-- ==== Sys2Proof/Word.lean ====
section
/-! DEFINITION. The two word types of the block: bytes and 32-bit words (00_scope.md R7, R17). -/

namespace Sys2Proof

/-- A byte: a transport byte, a byte of a buffer, an 8-bit field. -/
abbrev Byte := BitVec 8

/-- A 32-bit unsigned word: a host register, an LBA, a byte address, a size (00_scope.md R7). -/
abbrev Word := BitVec 32

end Sys2Proof
end

