-- ==== Sys2Proof/Config.lean ====
section
/-! DEFINITION. What an implementation fixes (the parameters of 00_scope.md R7) and the free values of 10_state.md R38
and R46. -/

namespace Sys2Proof

/-- The parameters a model of the block takes (00_scope.md R7). A build fixes them; nothing the block does changes them
(log 16). The parameters with one legal value (HC_BLOCK_SIZE, BLOCKBUF_BYTES, DMEM_ADDR_BITS) are constants of `Config`. -/
structure Params where
  /-- STD_BLOCK_SIZE, 256 or 512. -/
  stdBlockSize : Nat
  /-- RESP_BUDGET_DEFAULT, 1..255. -/
  respBudget : Byte
  /-- RESET_RETRIES_DEFAULT, 1..255. -/
  resetRetries : Byte
  /-- INIT_RETRIES_DEFAULT, 1..255. -/
  initRetries : Byte
  /-- WARMUP_BYTES_DEFAULT, 10..255. -/
  warmupBytes : Byte
  /-- MAX_FRAGMENTS, 1..63. -/
  maxFragments : Nat
  /-- NAMEBUF_BYTES, at least 39 times MAX_FRAGMENTS. -/
  namebufBytes : Nat
  /-- HAS_DIR_DECODER. -/
  hasDirDecoder : Bool
  /-- BASE, the host bus address of the register space, a multiple of 2 KiB. -/
  base : Nat
  /-- CMD8_VHS. -/
  cmd8Vhs : BitVec 4
  /-- CMD8_PATTERN. -/
  cmd8Pattern : Byte
  /-- ACMD41_ARG. -/
  acmd41Arg : Word
deriving DecidableEq, Repr

/-- The values of the table of 00_scope.md R7. BASE is OPEN there; the value 0 is a placeholder (DESIGN CHOICE, log 16). -/
def Params.standard : Params where
  stdBlockSize := 256
  respBudget := 5
  resetRetries := 3
  initRetries := 10
  warmupBytes := 10
  maxFragments := 20
  namebufBytes := 1024
  hasDirDecoder := true
  base := 0
  cmd8Vhs := 0x1
  cmd8Pattern := 0xAA
  acmd41Arg := 0x40000000

/-- HC_BLOCK_SIZE (00_scope.md R7). -/
def Config.hcBlockSize : Nat := 512

/-- BLOCKBUF_BYTES (00_scope.md R7). -/
def Config.blockbufBytes : Nat := 512

/-- The size of the host register space, 2 KiB (20_memory.md R70). -/
def Config.spaceBytes : Nat := 2048

/-- The value a host read of RES0 to RES3 returns while BUSY = 1: unspecified (10_state.md R38), a free value for every
draw (DESIGN CHOICE of the form, log 8). -/
opaque Config.freeWord : Nat → Word

/-- An unspecified byte of a window read (10_state.md R46): a free value for every draw (DESIGN CHOICE of the form,
log 8). -/
opaque Config.freeByte : Nat → Byte

end Sys2Proof
end

