-- ==== Sys2Proof/Syntax.lean ====
section
/-! DEFINITION. The instructions: the twelve host ops of 30_encoding.md R102 and the six wire commands of R112; and the
host accesses of R130. -/

namespace Sys2Proof

/-- One constructor per row of spec/opcode_table.json. A host op has no operand in its word (30_encoding.md R101); of the
wire commands only CMD17 has one, its 32-bit argument (R112). -/
inductive Instr where
  | bringup
  | speedup
  | sendcmd
  | readresp
  | readblk
  | readbytes
  | partition
  | mount
  | clus2lba
  | decslot
  | dirstart
  | dirnext
  | cmd0
  | cmd8
  | cmd17 (arg : Word)
  | cmd55
  | acmd41
  | cmd58
deriving DecidableEq, Repr

/-- What a host access asks for: `RD` or `WR` of a value (30_encoding.md R130). -/
inductive HostDir where
  | rd
  | wr (v : Word)
deriving DecidableEq, Repr

/-- One host access at a host bus address: its width in bits, its address, its direction. Only 32-bit accesses at
multiples of 4 inside the block's space are of the modelled interface (20_memory.md R70, R74). -/
structure HostAccess where
  bits : Nat
  addr : Nat
  dir  : HostDir
deriving DecidableEq, Repr

end Sys2Proof
end

