-- ==== Sys2Proof/WellFormed.lean ====
section
/-! DEFINITION. The checks on instructions, host accesses and parameters. -/

namespace Sys2Proof

/-- An instruction the block can issue. The argument of CMD17 is `(LBA << 9) mod 2^32` (30_encoding.md R112,
42_block_io.md R201), so its low nine bits are 0; the other instructions have no operand to check. -/
def Instr.wellFormed : Instr → Bool
  | .cmd17 arg => arg.extractLsb' 0 9 == 0
  | .bringup | .speedup | .sendcmd | .readresp | .readblk | .readbytes | .partition | .mount | .clus2lba | .decslot
  | .dirstart | .dirnext | .cmd0 | .cmd8 | .cmd55 | .acmd41 | .cmd58 => true

/-- A host access of the modelled shape: 32 bits wide at a multiple of 4 (20_memory.md R74). -/
def HostAccess.shapeOk (a : HostAccess) : Bool :=
  a.bits == 32 && a.addr % 4 == 0

/-- A host access that falls into the 2 KiB at BASE (20_memory.md R70). -/
def HostAccess.inSpace (a : HostAccess) (p : Params) : Bool :=
  decide (p.base ≤ a.addr) && decide (a.addr < p.base + Config.spaceBytes)

/-- The legal values of the parameters (00_scope.md R7). -/
def Params.legal (p : Params) : Bool :=
  (p.stdBlockSize == 256 || p.stdBlockSize == 512)
  && p.respBudget != 0 && p.resetRetries != 0 && p.initRetries != 0
  && decide (10 ≤ p.warmupBytes.toNat)
  && decide (1 ≤ p.maxFragments) && decide (p.maxFragments ≤ 63)
  && decide (39 * p.maxFragments ≤ p.namebufBytes)
  && p.base % 2048 == 0

end Sys2Proof
end

