-- ==== Sys2Proof/Decode.lean ====
section
/-! DEFINITION. The two encodings of 30_encoding.md: the host op word (R100, R102) and the 6-byte wire command frame
(R110 to R112), with a total decoder on any bytes and the encoder. -/

namespace Sys2Proof

/-- Why bytes are no instruction of the opcode table. -/
inductive DecodeError where
  /-- Neither 4 bytes (a host op word) nor 6 bytes (a command frame). -/
  | badLength (n : Nat)
  /-- A reserved OPCODE (30_encoding.md R106). -/
  | reservedOpcode (code : Byte)
  /-- A frame whose start bits are not 01 (30_encoding.md R110). -/
  | badStart (bits : BitVec 2)
  /-- A frame whose checksum byte is not that of its index (30_encoding.md R111). -/
  | badChecksum (ck : Byte)
  /-- A frame that is none of the six commands of 30_encoding.md R112. -/
  | unlistedCommand (idx : BitVec 6) (arg : Word)
deriving DecidableEq, Repr

/-! ## The command frame -/

/-- `ck(idx)`, the checksum byte, a table by command index alone (40_command_engine.md R142, 30_encoding.md R111). -/
def checksum (idx : BitVec 6) : Byte :=
  if idx = 0 then 0x95 else if idx = 8 then 0x87 else 0xFF

/-- The frame of a command, byte 0 most significant: start bits 01, INDEX, ARG big-endian, CK (30_encoding.md R110). -/
def frameWord (idx : BitVec 6) (arg : Word) : BitVec 48 :=
  (1#2 ++ idx ++ arg ++ checksum idx : BitVec (2 + 6 + 32 + 8))

/-- Byte `j` of a frame, `j` = 0 to 5 in the order the bytes are sent (30_encoding.md R110). -/
def frameByte (f : BitVec 48) (j : Nat) : Byte :=
  f.extractLsb' (40 - 8 * j) 8

/-- The six bytes of a frame in the order they are sent. -/
def frameBytes (f : BitVec 48) : List Byte :=
  [frameByte f 0, frameByte f 1, frameByte f 2, frameByte f 3, frameByte f 4, frameByte f 5]

/-! ## Decoding -/

/-- The op code map (30_encoding.md R102). Bits 31:8 of the word are ignored (R100). -/
def decodeHostOp (w : Word) : Except DecodeError Instr :=
  match (w.extractLsb' 0 8).toNat with
  | 0x01 => .ok .bringup
  | 0x02 => .ok .speedup
  | 0x03 => .ok .sendcmd
  | 0x04 => .ok .readresp
  | 0x05 => .ok .readblk
  | 0x06 => .ok .readbytes
  | 0x07 => .ok .partition
  | 0x08 => .ok .mount
  | 0x09 => .ok .clus2lba
  | 0x0A => .ok .decslot
  | 0x0B => .ok .dirstart
  | 0x0C => .ok .dirnext
  | _ => .error (.reservedOpcode (w.extractLsb' 0 8))

/-- The six commands the block sends (30_encoding.md R112). -/
def decodeCommand (idx : BitVec 6) (arg : Word) : Except DecodeError Instr :=
  if idx = 0 ∧ arg = 0 then .ok .cmd0
  else if idx = 8 ∧ arg = 0x1AA then .ok .cmd8
  else if idx = 17 then .ok (.cmd17 arg)
  else if idx = 55 ∧ arg = 0 then .ok .cmd55
  else if idx = 41 ∧ arg = 0x40000000 then .ok .acmd41
  else if idx = 58 ∧ arg = 0 then .ok .cmd58
  else .error (.unlistedCommand idx arg)

/-- A frame's fields (30_encoding.md R110): the start bits and the checksum are checked, then the command. -/
def decodeFrame (f : BitVec 48) : Except DecodeError Instr :=
  if f.extractLsb' 46 2 ≠ 1#2 then .error (.badStart (f.extractLsb' 46 2))
  else if f.extractLsb' 0 8 ≠ checksum (f.extractLsb' 40 6) then .error (.badChecksum (f.extractLsb' 0 8))
  else decodeCommand (f.extractLsb' 40 6) (f.extractLsb' 8 32)

/-- The word of four bytes, the lowest address least significant: how a 32-bit host word lies in bytes (20_memory.md R74,
R78; log 1). -/
def wordOfBytes (b0 b1 b2 b3 : Byte) : Word :=
  (b3 ++ b2 ++ b1 ++ b0 : BitVec (8 + 8 + 8 + 8))

/-- The frame of six bytes in the order they are sent (30_encoding.md R110). -/
def frameOfBytes (b0 b1 b2 b3 b4 b5 : Byte) : BitVec 48 :=
  (b0 ++ b1 ++ b2 ++ b3 ++ b4 ++ b5 : BitVec (8 + 8 + 8 + 8 + 8 + 8))

/-- The decoder: four bytes are a host op word, six a command frame, anything else is refused by name. -/
def decode : List Byte → Except DecodeError Instr
  | [b0, b1, b2, b3] => decodeHostOp (wordOfBytes b0 b1 b2 b3)
  | [b0, b1, b2, b3, b4, b5] => decodeFrame (frameOfBytes b0 b1 b2 b3 b4 b5)
  | bs => .error (.badLength bs.length)

/-- The bytes of a 32-bit word, least significant first. -/
def bytesOfWord (w : Word) : List Byte :=
  [w.extractLsb' 0 8, w.extractLsb' 8 8, w.extractLsb' 16 8, w.extractLsb' 24 8]

/-! ## Encoding -/

/-- The OPCODE of a host op (30_encoding.md R102); a wire command has none. -/
def opcodeOf : Instr → Option Byte
  | .bringup => some 0x01
  | .speedup => some 0x02
  | .sendcmd => some 0x03
  | .readresp => some 0x04
  | .readblk => some 0x05
  | .readbytes => some 0x06
  | .partition => some 0x07
  | .mount => some 0x08
  | .clus2lba => some 0x09
  | .decslot => some 0x0A
  | .dirstart => some 0x0B
  | .dirnext => some 0x0C
  | .cmd0 | .cmd8 | .cmd17 _ | .cmd55 | .acmd41 | .cmd58 => none

/-- The command index and argument of a wire command (30_encoding.md R112); a host op has none. -/
def commandOf : Instr → Option (BitVec 6 × Word)
  | .cmd0 => some (0, 0)
  | .cmd8 => some (8, 0x1AA)
  | .cmd17 arg => some (17, arg)
  | .cmd55 => some (55, 0)
  | .acmd41 => some (41, 0x40000000)
  | .cmd58 => some (58, 0)
  | .bringup | .speedup | .sendcmd | .readresp | .readblk | .readbytes | .partition | .mount | .clus2lba | .decslot
  | .dirstart | .dirnext => none

/-- The bytes of an instruction: a host op word with bits 31:8 zero (log 29), or a command frame. -/
def encode (i : Instr) : List Byte :=
  match opcodeOf i, commandOf i with
  | some op, _ => bytesOfWord (op.setWidth 32)
  | none, some (idx, arg) => frameBytes (frameWord idx arg)
  | none, none => []

/-! ## The table's words -/

/-- The bytes of a table word: up to 32 bits it is a host op word, above that a command frame whose bits 47:40 are byte 0
(30_encoding.md R110; log 1). -/
def tableBytes (nbits w : Nat) : List Byte :=
  if nbits ≤ 32 then bytesOfWord (BitVec.ofNat 32 (w % 2 ^ nbits))
  else if nbits ≤ 48 then frameBytes (BitVec.ofNat 48 (w % 2 ^ nbits))
  else []

/-- The instruction the decoder reads from a word of the opcode table. -/
def decodeTableWord (nbits w : Nat) : Option Instr :=
  match decode (tableBytes nbits w) with
  | .ok i => some i
  | .error _ => none

end Sys2Proof
end

