-- ==== Sys2Proof/Machine/State.lean ====
section
/-! DEFINITION. The state of the block and of what it is connected to (10_state.md), the fault and refusal reasons, and the
state after reset (10_state.md R54). -/

namespace Sys2Proof.Machine

/-! ## Names -/

/-- The bring-up states of STATUS.STATE (10_state.md R31, 41_bringup.md R170). -/
inductive Stage where
  | unpowered
  | warmedUp
  | reset
  | versionChecked
  | voltageNegotiated
  | ready
  | failed
deriving DecidableEq, Repr

/-- The error codes of STATUS.ERRCODE (60_exceptions.md R300); `none` is NONE, code 0. -/
inductive ErrCode where
  | none
  | transportError
  | noResponse
  | resetTimeout
  | initTimeout
  | voltageRejected
  | speedupFailed
  | readRejected
  | badStartToken
  | badSignature
  | invalidCluster
  | illegalOp
  | badArgument
  | blockSizeUnsupported
  | nameTooLong
deriving DecidableEq, Repr

/-- Which procedure a running `read_block` (42_block_io.md R200) returns to. -/
inductive BlockUse where
  /-- READBLK (42_block_io.md R205). -/
  | readblk
  /-- Block `k` of READBYTES (42_block_io.md R206). -/
  | readbytes
  /-- Block 0 for PARTITION (43_fat32.md R232). -/
  | partition
  /-- Block 0 for MOUNT (43_fat32.md R236). -/
  | mountMbr
  /-- The boot sector for MOUNT (43_fat32.md R236). -/
  | mountBoot
  /-- A directory block for DIRNEXT (44_directory.md R274). -/
  | dirnext
deriving DecidableEq, Repr

/-- The exchanges a procedure makes with the card: a command frame, a response, or both. -/
inductive Exch where
  /-- SENDCMD: the frame alone (40_command_engine.md R150). -/
  | send
  /-- READRESP: the response alone (40_command_engine.md R151). -/
  | resp
  /-- CMD0 of the reset loop (41_bringup.md R173). -/
  | reset
  /-- CMD8, the interface check (41_bringup.md R174). -/
  | iface
  /-- CMD55 of the initialization loop (41_bringup.md R175). -/
  | marker
  /-- ACMD41 of the initialization loop (41_bringup.md R175). -/
  | activate
  /-- CMD58 of either branch (41_bringup.md R176, R177); STATUS.V2 says which. -/
  | ocr
  /-- CMD17 of a block read (42_block_io.md R200). -/
  | block (u : BlockUse)
deriving DecidableEq, Repr

/-- The label of a running op (10_state.md R47). At `start`, `ready` and `copy` the engine has an internal step to make; at
the others it waits for the transport, whose request has been made. -/
inductive Label where
  /-- Issued, nothing done yet (10_state.md R50). -/
  | start
  /-- Waiting for `idle` (41_bringup.md R172). -/
  | warmup
  /-- Waiting for `reconf` (41_bringup.md R185). -/
  | reconf
  /-- The frame in `scratch.frame` is built and its first byte not yet sent. -/
  | ready (x : Exch)
  /-- Waiting for the exchange of frame byte `scratch.i` (40_command_engine.md R141). -/
  | frame (x : Exch)
  /-- Waiting for poll `scratch.poll` of `read_response` (40_command_engine.md R143). -/
  | poll (x : Exch)
  /-- Waiting for response byte `scratch.i` (40_command_engine.md R143). -/
  | rest (x : Exch)
  /-- Waiting for data frame byte `scratch.i` (42_block_io.md R200). -/
  | data (u : BlockUse)
  /-- READBYTES is to write BLOCKBUF byte `scratch.j` to DMEM (42_block_io.md R206). -/
  | copy
deriving DecidableEq, Repr

/-- The engine's control state (10_state.md R47); the op is its op code, as R50 takes it from OP. -/
inductive Eng where
  | idle
  | running (op : Byte) (l : Label)
deriving DecidableEq, Repr

/-- A transport transaction the block requests (10_state.md R21). -/
inductive Txn where
  | xfer (t : Byte)
  | idle (n : Nat)
  | reconf (k : Word)
deriving DecidableEq, Repr

/-- The transport's answer to the request in flight (10_state.md R21). `idle` has no failure outcome, so any answer ends it,
and the byte of an `ok` to `idle` or `reconf` carries nothing (log 7). -/
inductive Answer where
  | ok (b : Byte)
  | err
deriving DecidableEq, Repr

/-- An input from outside. A host access or a reset edge carries its pace: `none` lands when the engine next waits for the
transport or is idle; `some n` lands after at most `n` more internal engine steps (log 4). -/
inductive Event where
  /-- The transport answers the request in flight. -/
  | answer (r : Answer)
  /-- The host accesses a register (10_state.md R22). -/
  | host (pace : Option Nat) (a : HostAccess)
  /-- The platform sets the reset input to `level` (70_reset_and_hazards.md R340). -/
  | hard (pace : Option Nat) (level : Bool)
deriving DecidableEq, Repr

/-- What a host read returned: its offset and its value. -/
structure HostRead where
  off : Nat
  val : Word
deriving DecidableEq, Repr

/-! ## Register groups -/

/-- The stored fields of STATUS (10_state.md R27). BUSY is computed (R28; log 22). -/
structure Status where
  done      : Bool
  err       : Bool
  opovr     : Bool
  stage     : Stage
  v2        : Bool
  hc        : Bool
  voltWarn  : Bool
  spedUp    : Bool
  mounted   : Bool
  bufvalid  : Bool
  dirActive : Bool
  errctx    : Bool
  errcode   : ErrCode
deriving DecidableEq, Repr

/-- The configuration registers (10_state.md R42). -/
structure Cfg where
  respBudget   : Byte
  resetRetries : Byte
  initRetries  : Byte
  warmupBytes  : Byte
deriving DecidableEq, Repr

/-- The partition registers (10_state.md R43). -/
structure Part where
  lba   : Word
  ptype : Byte
  count : Word
deriving DecidableEq, Repr

/-- The volume registers (10_state.md R44). -/
structure Vol where
  bps      : BitVec 16
  spc      : Byte
  rsvd     : BitVec 16
  nfats    : Byte
  spf      : Word
  rootClus : Word
  bootSig  : BitVec 16
  fatLba   : Word
  dataLba  : Word
deriving DecidableEq, Repr

/-- A long-name fragment held: its ordinal byte and its 13 code units in slot order (10_state.md R52). -/
structure Frag where
  ord : Byte
  cu  : List (BitVec 16)
deriving DecidableEq, Repr

/-- The directory scan (10_state.md R45, R52; 44_directory.md R273). DIR_NFRAG and `nfrag` are the length of `frags`. -/
structure Dir where
  lba    : Word
  left   : Word
  slot   : Byte
  frags  : List Frag
  loaded : Bool
deriving DecidableEq, Repr

/-- Counters and locals of a running op, host-invisible (10_state.md R49; the last five are locals of the procedures of
40_command_engine.md R141, 42_block_io.md R200 and R206, log 12). The counters of R49 have its widths; of the locals, `written`
and `j` are naturals whose bounds `State.Inv` states (log 11). -/
structure Scratch where
  attempt : Byte
  poll    : Byte
  i       : BitVec 16
  resp    : Vector Byte 5
  k       : Word
  dst     : Word
  frame   : BitVec 48
  lba     : Word
  tok     : Byte
  written : Nat
  j       : Nat
deriving DecidableEq, Repr

/-- Destination memory, in canonical form: addresses strictly rising, one entry for each byte that was written. A byte that
nothing has written has no value (log 13). -/
abbrev Memory := List Host.Cell

/-! ## The state -/

/-- The state of the block, of DMEM, and the inputs and outputs at its transport and host ports. -/
structure State where
  /-- The build's parameters (00_scope.md R7; log 16). -/
  params    : Params
  status    : Status
  /-- CTRL.IRQ_EN (10_state.md R35). -/
  irqEn     : Bool
  /-- INT_STATUS.DONE_PEND (10_state.md R36). -/
  donePend  : Bool
  arg0      : Word
  arg1      : Word
  arg2      : Word
  res0      : Word
  res1      : Word
  res2      : Word
  res3      : Word
  blockSize : Word
  errByte   : Byte
  errLba    : Word
  cfg       : Cfg
  part      : Part
  vol       : Vol
  dir       : Dir
  nameLen   : BitVec 16
  blockbuf  : List Byte
  namebuf   : List Byte
  eng       : Eng
  /-- The latched arguments (10_state.md R48). -/
  a0        : Word
  a1        : Word
  a2        : Word
  scratch   : Scratch
  /-- A soft reset has been written and has not taken effect (70_reset_and_hazards.md R341). -/
  softReset : Bool
  /-- The reset input is asserted (70_reset_and_hazards.md R340). -/
  inReset   : Bool
  /-- Destination memory (20_memory.md R72). -/
  dmem      : Memory
  /-- Inputs still to come, the next first (the model's own, log 3). -/
  events    : List Event
  /-- Transport requests made, oldest first (the model's own, log 6). -/
  bus       : List Txn
  /-- What host reads returned, oldest first (the model's own, log 23). -/
  reads     : List HostRead
  /-- Free values drawn so far (the model's own, log 8). -/
  draws     : Nat
deriving DecidableEq, Repr

/-- A step ends in a fault for this one reason. -/
inductive Fault where
  /-- The engine waits for a transport that never answers: no input is left, and the engine has no step
  (60_exceptions.md R311). Raised by the step function alone. Safe: the hardware hangs there. -/
  | transportSilent
deriving DecidableEq, Repr

/-- A step is refused for one of these reasons. -/
inductive Refusal where
  /-- The instruction has no meaning yet. Raised by an arm of `exec` alone. Safe. -/
  | notModelled (mnemonic : String)
  /-- A host access that is not 32 bits wide at a multiple of 4 (20_memory.md R74). Raised by a host access. Safe. -/
  | hostAccessShape
  /-- A host access outside the 2 KiB at BASE, which is not an access to the block (20_memory.md R70). Raised by a host
  access. Safe. -/
  | outsideBlock
  /-- A wire command where no running op sends it: the block sends none of its own (10_state.md R24). Raised by the meaning
  of a wire command. Safe. -/
  | notAtCommand
deriving DecidableEq, Repr

/-! ## Reset -/

/-- All fields of STATUS at reset (10_state.md R54). -/
def Status.zero : Status where
  done := false
  err := false
  opovr := false
  stage := .unpowered
  v2 := false
  hc := false
  voltWarn := false
  spedUp := false
  mounted := false
  bufvalid := false
  dirActive := false
  errctx := false
  errcode := .none

/-- The configuration registers at reset: the defaults of the build (10_state.md R42, R54). -/
def Cfg.default (p : Params) : Cfg where
  respBudget := p.respBudget
  resetRetries := p.resetRetries
  initRetries := p.initRetries
  warmupBytes := p.warmupBytes

/-- Scratch at reset: unspecified there and never read outside an op (10_state.md R49, R54), all 0 here (DESIGN CHOICE,
log 10). -/
def Scratch.zero : Scratch where
  attempt := 0
  poll := 0
  i := 0
  resp := Vector.replicate 5 0
  k := 0
  dst := 0
  frame := 0
  lba := 0
  tok := 0
  written := 0
  j := 0

/-- A block of the given build right after reset, with nothing outside it (10_state.md R54). The contents of the two buffers
are unspecified there; they are 0 here and no read shows them (DESIGN CHOICE, log 9). -/
def State.fresh (p : Params) : State where
  params := p
  status := Status.zero
  irqEn := false
  donePend := false
  arg0 := 0
  arg1 := 0
  arg2 := 0
  res0 := 0
  res1 := 0
  res2 := 0
  res3 := 0
  blockSize := 0
  errByte := 0
  errLba := 0
  cfg := Cfg.default p
  part := { lba := 0, ptype := 0, count := 0 }
  vol := { bps := 0, spc := 0, rsvd := 0, nfats := 0, spf := 0, rootClus := 0, bootSig := 0, fatLba := 0, dataLba := 0 }
  dir := { lba := 0, left := 0, slot := 0, frags := [], loaded := false }
  nameLen := 0
  blockbuf := List.replicate Config.blockbufBytes 0
  namebuf := List.replicate p.namebufBytes 0
  eng := .idle
  a0 := 0
  a1 := 0
  a2 := 0
  scratch := Scratch.zero
  softReset := false
  inReset := false
  dmem := []
  events := []
  bus := []
  reads := []
  draws := 0

/-- The machine right after reset: the standard build, every field at the value of 10_state.md R54. -/
def State.reset : State := State.fresh Params.standard

end Sys2Proof.Machine
end

