-- ==== Sys2Proof/Machine/Flags.lean ====
section
/-! DEFINITION. Every flag computation: the STATUS word (10_state.md R27), the interrupt line (60_exceptions.md R321), and the
response helpers (40_command_engine.md R145 to R148). -/

namespace Sys2Proof.Machine

/-- The value of STATUS.STATE for a bring-up state (10_state.md R31). -/
def Stage.code : Stage → BitVec 4
  | .unpowered => 0
  | .warmedUp => 1
  | .reset => 2
  | .versionChecked => 3
  | .voltageNegotiated => 4
  | .ready => 5
  | .failed => 6

/-- The value of STATUS.ERRCODE for an error (60_exceptions.md R300). -/
def ErrCode.code : ErrCode → Byte
  | .none => 0
  | .transportError => 1
  | .noResponse => 2
  | .resetTimeout => 3
  | .initTimeout => 4
  | .voltageRejected => 5
  | .speedupFailed => 6
  | .readRejected => 7
  | .badStartToken => 8
  | .badSignature => 9
  | .invalidCluster => 10
  | .illegalOp => 11
  | .badArgument => 12
  | .blockSizeUnsupported => 13
  | .nameTooLong => 14

/-- An op runs. -/
def Eng.isRunning : Eng → Bool
  | .idle => false
  | .running _ _ => true

/-- STATUS.BUSY: an op runs (10_state.md R28), or a soft reset has been written and has not taken effect
(70_reset_and_hazards.md R341). -/
def State.busy (s : State) : Bool :=
  s.eng.isRunning || s.softReset

/-- STATUS.DIR_ACTIVE as a read shows it: 0 in a build without the decoder (00_scope.md R8). -/
def State.dirActiveView (s : State) : Bool :=
  s.params.hasDirDecoder && s.status.dirActive

/-- The STATUS word, bit 31 first: ERRCODE, reserved, ERRCTX, DIR_ACTIVE, BUFVALID, MOUNTED, SPED_UP, VOLT_WARN, HC, V2, STATE,
reserved, OPOVR, ERR, DONE, BUSY (10_state.md R27). -/
def State.statusWord (s : State) : Word :=
  (s.status.errcode.code ++ 0#4
    ++ BitVec.ofBool s.status.errctx ++ BitVec.ofBool s.dirActiveView
    ++ BitVec.ofBool s.status.bufvalid ++ BitVec.ofBool s.status.mounted
    ++ BitVec.ofBool s.status.spedUp ++ BitVec.ofBool s.status.voltWarn
    ++ BitVec.ofBool s.status.hc ++ BitVec.ofBool s.status.v2
    ++ s.status.stage.code ++ 0#4
    ++ BitVec.ofBool s.status.opovr ++ BitVec.ofBool s.status.err
    ++ BitVec.ofBool s.status.done ++ BitVec.ofBool s.busy
    : BitVec (8 + 4 + 1 + 1 + 1 + 1 + 1 + 1 + 1 + 1 + 4 + 4 + 1 + 1 + 1 + 1))

/-- The interrupt line, a level: `irq = INT_STATUS.DONE_PEND and CTRL.IRQ_EN` (60_exceptions.md R321). -/
def State.irq (s : State) : Bool :=
  s.donePend && s.irqEn

/-- `is_idle(resp)`: bit 0 of the first response byte (40_command_engine.md R145). -/
def isIdle (r0 : Byte) : Bool :=
  r0.getLsbD 0

/-- `has_acceptable_voltage(ocr)`: some bit of 23:15 is set (40_command_engine.md R147). -/
def hasAcceptableVoltage (ocr : Word) : Bool :=
  ocr.extractLsb' 15 9 != 0

/-- `is_high_capacity(ocr)`: bit 30 (40_command_engine.md R148). -/
def isHighCapacity (ocr : Word) : Bool :=
  ocr.getLsbD 30

end Sys2Proof.Machine
end

