-- ==== Sys2Proof/Machine/Operands.lean ====
section
/-! DEFINITION. Every operand form: fields of byte sequences (00_scope.md R10), the legality table and the argument ranges of
the ops (30_encoding.md R105, R107), the arithmetic of an unaligned read (42_block_io.md R207), and the fields and names of
directory slots (30_encoding.md R122 to R124, 44_directory.md R260 to R267). -/

namespace Sys2Proof.Machine

/-! ## Byte sequences -/

/-- Byte `o` of a byte sequence; 0 beyond its end, where no rule reads. -/
def byteAt (b : List Byte) (o : Nat) : Byte :=
  b.getD o 0

/-- `LE16(buf, o)` (00_scope.md R10). -/
def le16 (b : List Byte) (o : Nat) : BitVec 16 :=
  (byteAt b (o + 1) ++ byteAt b o : BitVec (8 + 8))

/-- `LE32(buf, o)` (00_scope.md R10). -/
def le32 (b : List Byte) (o : Nat) : Word :=
  (byteAt b (o + 3) ++ byteAt b (o + 2) ++ byteAt b (o + 1) ++ byteAt b o : BitVec (8 + 8 + 8 + 8))

/-- `BE32(b0, b1, b2, b3)` (00_scope.md R10). -/
def be32 (b0 b1 b2 b3 : Byte) : Word :=
  (b0 ++ b1 ++ b2 ++ b3 : BitVec (8 + 8 + 8 + 8))

/-- `extract_ocr(resp)`: big-endian over response bytes 1 to 4 (40_command_engine.md R146). -/
def extractOcr (resp : Vector Byte 5) : Word :=
  be32 resp[1] resp[2] resp[3] resp[4]

/-! ## Legality and argument ranges -/

/-- STATUS.STATE is Ready. -/
def State.isReady (s : State) : Bool :=
  s.status.stage == .ready

/-- The legality table (30_encoding.md R105) with the reserved op codes of R106; the three directory ops are reserved in a
build without the decoder (00_scope.md R8). -/
def opLegal (op : Byte) (s : State) : Bool :=
  match op.toNat with
  | 0x01 => s.status.stage == .unpowered
  | 0x02 => s.isReady && !s.status.spedUp
  | 0x03 => true
  | 0x04 => true
  | 0x05 => s.isReady
  | 0x06 => s.isReady
  | 0x07 => s.isReady
  | 0x08 => s.isReady
  | 0x09 => s.status.mounted
  | 0x0A => s.params.hasDirDecoder && s.status.bufvalid
  | 0x0B => s.params.hasDirDecoder && s.isReady
  | 0x0C => s.params.hasDirDecoder && (!s.status.dirActive || s.isReady)
  | _ => false

/-- The session's block size as a count of bytes (10_state.md R39). -/
def State.bs (s : State) : Nat :=
  s.blockSize.toNat

/-- Slots in a block (30_encoding.md R126). -/
def State.slots (s : State) : Nat :=
  s.bs / 32

/-- SENDCMD: a0 > 63 is out of range (30_encoding.md R107). -/
def sendcmdArgsOk (s : State) : Bool :=
  decide (s.a0.toNat ≤ 63)

/-- READRESP: a0 = 0 or a0 > 5 or a1 > 255 is out of range (30_encoding.md R107). -/
def readrespArgsOk (s : State) : Bool :=
  decide (1 ≤ s.a0.toNat) && decide (s.a0.toNat ≤ 5) && decide (s.a1.toNat ≤ 255)

/-- READBYTES: neither the destination nor the card range may leave 2^32, sums exact (30_encoding.md R107). -/
def readbytesArgsOk (s : State) : Bool :=
  decide (s.a0.toNat + s.a1.toNat ≤ 2 ^ 32) && decide (s.a2.toNat + s.a1.toNat ≤ 2 ^ 32)

/-- PARTITION and MOUNT: the partition index is 1 to 4 (30_encoding.md R107). -/
def partitionArgsOk (s : State) : Bool :=
  decide (1 ≤ s.a0.toNat) && decide (s.a0.toNat ≤ 4)

/-- DECSLOT: the slot index is below BLOCK_SIZE / 32 (30_encoding.md R107). -/
def decslotArgsOk (s : State) : Bool :=
  decide (s.a0.toNat < s.slots)

/-! ## The arithmetic of READBYTES (42_block_io.md R207) -/

/-- `off = a2 % bs`. -/
def readOff (s : State) : Nat :=
  s.a2.toNat % s.bs

/-- `first = a2 / bs`. -/
def readFirst (s : State) : Nat :=
  s.a2.toNat / s.bs

/-- `n = ceil((off + size) / bs)`. -/
def readCount (s : State) : Nat :=
  (readOff s + s.a1.toNat + s.bs - 1) / s.bs

/-- `lo_k`. -/
def readLo (s : State) (k : Nat) : Nat :=
  if k = 0 then readOff s else 0

/-- `hi_k`. -/
def readHi (s : State) (k : Nat) : Nat :=
  if k + 1 = readCount s then (readOff s + s.a1.toNat - 1) % s.bs + 1 else s.bs

/-! ## Directory slots -/

/-- The 32 bytes of slot `j` of a block (30_encoding.md R126). -/
def slotOf (b : List Byte) (j : Nat) : List Byte :=
  (b.drop (32 * j)).take 32

/-- What a slot is (44_directory.md R260). -/
inductive SlotKind where
  | endOfDir
  | free
  | longFrag
  | short
deriving DecidableEq, Repr

/-- `classify(s)`, tested in this order (44_directory.md R260). -/
def classify (s : List Byte) : SlotKind :=
  if byteAt s 0 = 0x00 then .endOfDir
  else if byteAt s 0 = 0xE5 then .free
  else if byteAt s 11 &&& 0x0F = 0x0F then .longFrag
  else .short

/-- The first cluster of a short entry: high half at 20, low half at 26 (44_directory.md R261). -/
def firstCluster (s : List Byte) : Word :=
  (le16 s 20 ++ le16 s 26 : BitVec (16 + 16))

/-- A padded field without its trailing spaces (44_directory.md R262). -/
def trimRight (f : List Byte) : List Byte :=
  (f.reverse.dropWhile (· == 0x20)).reverse

/-- `short_name(s)`: base and extension, each right-trimmed, with no dot (44_directory.md R262). -/
def shortName (s : List Byte) : List Byte :=
  trimRight (s.take 8) ++ trimRight ((s.drop 8).take 3)

/-- The 13 code units of a long-name fragment, chunks at 1, 14 and 28 (44_directory.md R263). -/
def fragUnits (s : List Byte) : List (BitVec 16) :=
  (List.range 5).map (fun j => le16 s (1 + 2 * j))
    ++ (List.range 6).map (fun j => le16 s (14 + 2 * j))
    ++ (List.range 2).map (fun j => le16 s (28 + 2 * j))

/-- `utf8(u)` of one code unit, surrogates included (44_directory.md R264, R266). -/
def utf8 (u : BitVec 16) : List Byte :=
  if u.toNat ≤ 0x7F then [u.setWidth 8]
  else if u.toNat ≤ 0x7FF then [0xC0 ||| (u >>> 6).setWidth 8, 0x80 ||| (u &&& 0x3F).setWidth 8]
  else [0xE0 ||| (u >>> 12).setWidth 8, 0x80 ||| ((u >>> 6) &&& 0x3F).setWidth 8, 0x80 ||| (u &&& 0x3F).setWidth 8]

/-- One chunk, up to its first 0x0000 or 0xFFFF (44_directory.md R265). -/
def chunkUtf8 (c : List (BitVec 16)) : List Byte :=
  (c.takeWhile (fun u => u != 0x0000 && u != 0xFFFF)).flatMap utf8

/-- `frag_utf8(cu)`: the chunks of 5, 6 and 2 units one after the other (44_directory.md R265). -/
def fragUtf8 (cu : List (BitVec 16)) : List Byte :=
  chunkUtf8 (cu.take 5) ++ chunkUtf8 ((cu.drop 5).take 6) ++ chunkUtf8 ((cu.drop 11).take 2)

/-- A fragment put before the first one of a larger or equal ordinal: with `sortFrags`, a stable sort. -/
def insertFrag (f : Frag) : List Frag → List Frag
  | [] => [f]
  | g :: gs => if f.ord.toNat ≤ g.ord.toNat then f :: g :: gs else g :: insertFrag f gs

/-- The stable ascending sort by the whole ordinal byte (44_directory.md R267). -/
def sortFrags : List Frag → List Frag
  | [] => []
  | f :: fs => insertFrag f (sortFrags fs)

/-- `lfn_name()`: the fragments' names in ordinal order (44_directory.md R267). -/
def lfnName (fs : List Frag) : List Byte :=
  (sortFrags fs).flatMap (fun f => fragUtf8 f.cu)

end Sys2Proof.Machine
end

