-- ==== Sys2Proof/Machine/Ops.lean ====
section
/-! DEFINITION. The named operations: destination memory, op issue and op completion (the block's way of taking an error and of
returning, 10_state.md R50, R51, 60_exceptions.md R306), the two resets, the requests to the transport, the directory scan's
end, and the host's reads and writes of the register space. -/

namespace Sys2Proof.Machine

/-! ## Destination memory (20_memory.md R72) -/

/-- The byte at an address, if one was written. -/
def Memory.read : Memory → Nat → Option Byte
  | [], _ => none
  | c :: m, a => if c.1 = a then some c.2 else Memory.read m a

/-- A byte written: in address order, in place of the one that stood there. -/
def Memory.write : Memory → Nat → Byte → Memory
  | [], a, v => [(a, v)]
  | c :: m, a, v => if a < c.1 then (a, v) :: c :: m else if a = c.1 then (a, v) :: m else c :: Memory.write m a v

/-- Every address is below 2^32 and they rise strictly from above `lo`. -/
def Memory.wfFrom : Option Nat → Memory → Bool
  | _, [] => true
  | lo, c :: m => (match lo with | none => true | some l => decide (l < c.1)) && decide (c.1 < 2 ^ 32)
      && Memory.wfFrom (some c.1) m

/-- The canonical form of destination memory. -/
def Memory.wf (m : Memory) : Bool :=
  Memory.wfFrom none m

/-- `MemWrite(a, 1, v)` (00_scope.md R13). -/
def State.memWrite (s : State) (a : Word) (v : Byte) : State :=
  { s with dmem := s.dmem.write a.toNat v }

/-! ## The engine's place -/

/-- The same op at another label; an idle engine stays idle. -/
def Eng.moveTo (e : Eng) (l : Label) : Eng :=
  match e with
  | .idle => .idle
  | .running op _ => .running op l

/-- The label of the running op. -/
def Eng.label? : Eng → Option Label
  | .idle => none
  | .running _ l => some l

/-- Labels with an internal engine step to make. -/
def Label.isInternal : Label → Bool
  | .start => true
  | .ready _ => true
  | .copy => true
  | .warmup | .reconf | .frame _ | .poll _ | .rest _ | .data _ => false

/-- The engine has an internal step to make. -/
def State.internal (s : State) : Bool :=
  match s.eng with
  | .idle => false
  | .running _ l => l.isInternal

/-- The engine waits for the transport. -/
def State.waiting (s : State) : Bool :=
  match s.eng with
  | .idle => false
  | .running _ l => !l.isInternal

/-- The engine goes on to an internal label. -/
def State.goTo (s : State) (l : Label) : State :=
  { s with eng := s.eng.moveTo l }

/-- The counters and locals of the running op are set. -/
def State.put (s : State) (sc : Scratch) : State :=
  { s with scratch := sc }

/-- A transport transaction is requested and the engine waits for its answer at `l` (10_state.md R21; log 6), its counters and
locals as given. -/
def State.ask (s : State) (sc : Scratch) (t : Txn) (l : Label) : State :=
  { s with scratch := sc, bus := s.bus ++ [t], eng := s.eng.moveTo l }

/-- The frame of a command is built (40_command_engine.md R141). -/
def State.build (s : State) (x : Exch) (idx : BitVec 6) (arg : Word) : State :=
  { s with scratch := { s.scratch with frame := frameWord idx arg }, eng := s.eng.moveTo (.ready x) }

/-! ## Op issue, op completion, error (10_state.md R50, R51) -/

/-- Op issue of an op code by a host write of OP with BUSY = 0 (10_state.md R50). -/
def State.issue (s : State) (op : Byte) : State :=
  { s with
    a0 := s.arg0
    a1 := s.arg1
    a2 := s.arg2
    status := { s.status with done := false, err := false, errcode := .none, opovr := false, errctx := false }
    eng := .running op .start }

/-- Op completion, with an error or with `.none` (10_state.md R51, R29; 60_exceptions.md R306). This is how the block takes
an error: nothing is saved beyond it and there is no handler; the return is the next op issue (60_exceptions.md R309). -/
def State.complete (s : State) (e : ErrCode) : State :=
  { s with
    status := { s.status with done := true, err := e != .none, errcode := e }
    donePend := true
    eng := .idle }

/-! ## Reset -/

/-- Hard and soft reset of the block: every piece of the block's state at its value of 10_state.md R54. The build's parameters
are not state of the block; DMEM, the transport and the inputs still to come are outside it (70_reset_and_hazards.md R342). -/
def State.blockReset (s : State) : State :=
  { State.fresh s.params with
    dmem := s.dmem
    events := s.events
    bus := s.bus
    reads := s.reads
    draws := s.draws }

/-! ## The directory scan -/

/-- `end_scan()` (44_directory.md R275). -/
def State.endScan (s : State) : State :=
  { s with
    status := { s.status with dirActive := false }
    dir := { s.dir with frags := [], loaded := false } }

/-- `cancel_scan()` (44_directory.md R277). -/
def State.cancelScan (s : State) : State :=
  if s.params.hasDirDecoder && s.status.dirActive then s.endScan else s

/-- A name is written to NAMEBUF and its length to NAME_LEN (44_directory.md R268). -/
def State.writeName (s : State) (n : List Byte) : State :=
  { s with namebuf := n ++ s.namebuf.drop n.length, nameLen := BitVec.ofNat 16 n.length }

/-! ## Host reads (20_memory.md R74 to R76) -/

/-- RES0 to RES3 as a host read sees them: unspecified while BUSY = 1 (10_state.md R38). -/
def State.readRes (s : State) (v : Word) : Word × State :=
  if s.busy then (Config.freeWord s.draws, { s with draws := s.draws + 1 }) else (v, s)

/-- Byte `o` of BLOCKBUF as a host read sees it: the payload when BUFVALID = 1, `o` is below BLOCK_SIZE and no op runs;
unspecified otherwise (10_state.md R46). -/
def State.blockbufView (s : State) (o : Nat) (d : Nat) : Byte :=
  if !s.busy && s.status.bufvalid && decide (o < s.bs) then byteAt s.blockbuf o else Config.freeByte d

/-- Byte `o` of NAMEBUF as a host read sees it: the name below NAME_LEN when no op runs, unspecified otherwise
(10_state.md R46); 0 in a build without the decoder (00_scope.md R8). -/
def State.namebufView (s : State) (o : Nat) (d : Nat) : Byte :=
  if !s.params.hasDirDecoder then 0
  else if !s.busy && decide (o < s.nameLen.toNat) then byteAt s.namebuf o
  else Config.freeByte d

/-- A window word: four bytes packed little-endian (20_memory.md R74). Each byte may be a free value, so four draws are used. -/
def State.readWindow (s : State) (view : Nat → Nat → Byte) (o : Nat) : Word × State :=
  (wordOfBytes (view o s.draws) (view (o + 1) (s.draws + 1)) (view (o + 2) (s.draws + 2)) (view (o + 3) (s.draws + 3)),
   { s with draws := s.draws + 4 })

/-- A directory register: 0 in a build without the decoder (00_scope.md R8). -/
def State.dirView (s : State) (v : Word) : Word :=
  if s.params.hasDirDecoder then v else 0

/-- The value a host read of an offset returns (10_state.md R25 to R46). An offset that is not listed reads 0. Only the count of
free values used changes (20_memory.md R76: reads have no side effects). -/
def State.readReg (s : State) (off : Nat) : Word × State :=
  match off with
  | 0x004 => (s.statusWord, s)
  | 0x008 => ((BitVec.ofBool s.irqEn ++ 0#1 : BitVec (1 + 1)).setWidth 32, s)
  | 0x00C => ((BitVec.ofBool s.donePend).setWidth 32, s)
  | 0x010 => (s.arg0, s)
  | 0x014 => (s.arg1, s)
  | 0x018 => (s.arg2, s)
  | 0x020 => s.readRes s.res0
  | 0x024 => s.readRes s.res1
  | 0x028 => s.readRes s.res2
  | 0x02C => s.readRes s.res3
  | 0x030 => (s.blockSize, s)
  | 0x034 => (s.errByte.setWidth 32, s)
  | 0x038 => (s.errLba, s)
  | 0x040 => (s.cfg.respBudget.setWidth 32, s)
  | 0x044 => (s.cfg.resetRetries.setWidth 32, s)
  | 0x048 => (s.cfg.initRetries.setWidth 32, s)
  | 0x04C => (s.cfg.warmupBytes.setWidth 32, s)
  | 0x050 => (s.part.lba, s)
  | 0x054 => (s.part.ptype.setWidth 32, s)
  | 0x058 => (s.part.count, s)
  | 0x05C => (s.vol.bps.setWidth 32, s)
  | 0x060 => (s.vol.spc.setWidth 32, s)
  | 0x064 => (s.vol.rsvd.setWidth 32, s)
  | 0x068 => (s.vol.nfats.setWidth 32, s)
  | 0x06C => (s.vol.spf, s)
  | 0x070 => (s.vol.rootClus, s)
  | 0x074 => (s.vol.bootSig.setWidth 32, s)
  | 0x078 => (s.vol.fatLba, s)
  | 0x07C => (s.vol.dataLba, s)
  | 0x080 => (s.dirView s.dir.lba, s)
  | 0x084 => (s.dirView s.dir.left, s)
  | 0x088 => (s.dirView (s.dir.slot.setWidth 32), s)
  | 0x08C => (s.dirView (s.nameLen.setWidth 32), s)
  | 0x090 => (s.dirView (BitVec.ofNat 32 s.dir.frags.length), s)
  | off =>
    if 0x200 ≤ off ∧ off < 0x400 then s.readWindow s.blockbufView (off - 0x200)
    else if 0x400 ≤ off ∧ off < 0x800 then s.readWindow s.namebufView (off - 0x400)
    else (0, s)

/-! ## Host writes other than OP (20_memory.md R76) -/

/-- What a write of `v` to a configuration register stores: `max(v[7:0], lo)` (10_state.md R42). -/
def cfgStored (v : Word) (lo : Byte) : Byte :=
  if (v.extractLsb' 0 8).toNat < lo.toNat then lo else v.extractLsb' 0 8

/-- A write of a configuration register; ignored while BUSY = 1 (10_state.md R42). -/
def State.writeCfg (s : State) (f : Cfg → Cfg) : State :=
  if s.busy then s else { s with cfg := f s.cfg }

/-- A write of CTRL: IRQ_EN is stored; bit 0 = 1 asks for a soft reset, which takes effect at once when BUSY = 0 and at the next
step boundary of the running op otherwise (10_state.md R35, 70_reset_and_hazards.md R341). -/
def State.writeCtrl (s : State) (v : Word) : State :=
  if v.getLsbD 0 then
    if s.busy then { s with irqEn := v.getLsbD 1, softReset := true } else s.blockReset
  else { s with irqEn := v.getLsbD 1 }

/-- A host write to an offset other than OP; read-only registers, windows and unlisted offsets ignore it
(20_memory.md R76). -/
def State.writeReg (s : State) (off : Nat) (v : Word) : State :=
  match off with
  | 0x008 => s.writeCtrl v
  | 0x00C => if v.getLsbD 0 then { s with donePend := false } else s
  | 0x010 => { s with arg0 := v }
  | 0x014 => { s with arg1 := v }
  | 0x018 => { s with arg2 := v }
  | 0x040 => s.writeCfg (fun c => { c with respBudget := cfgStored v 1 })
  | 0x044 => s.writeCfg (fun c => { c with resetRetries := cfgStored v 1 })
  | 0x048 => s.writeCfg (fun c => { c with initRetries := cfgStored v 1 })
  | 0x04C => s.writeCfg (fun c => { c with warmupBytes := cfgStored v 10 })
  | _ => s

end Sys2Proof.Machine
end

