-- ==== Sys2Proof/Machine/CommandProc.lean ====
section
/-! DEFINITION. The procedures of the Command/Response Engine: `send_command` and `read_response` (40_command_engine.md R141,
R143), and what SENDCMD and READRESP do with them (R150, R151). -/

namespace Sys2Proof.Machine

/-- `f[0]` of the frame that was built is sent (40_command_engine.md R141). -/
def sendFirst (x : Exch) (s : State) : State :=
  s.ask { s.scratch with i := 0 } (.xfer (frameByte s.scratch.frame 0)) (.frame x)

/-- `count` of the exchange's response (30_encoding.md R112, 40_command_engine.md R151). -/
def respCount (x : Exch) (s : State) : Nat :=
  match x with
  | .resp => s.a0.toNat
  | .iface | .ocr => 5
  | .send | .reset | .marker | .activate | .block _ => 1

/-- `budget` of the exchange's response: CFG_RESP_BUDGET, which READRESP may override by a1 (40_command_engine.md R151). -/
def respBudget (x : Exch) (s : State) : Nat :=
  match x with
  | .resp => if s.a1 = 0 then s.cfg.respBudget.toNat else s.a1.toNat
  | .send | .iface | .ocr | .reset | .marker | .activate | .block _ => s.cfg.respBudget.toNat

/-- The first poll of `read_response`; the byte sent while reading is 0xFF (40_command_engine.md R143). -/
def startPoll (x : Exch) (s : State) : State :=
  s.ask { s.scratch with poll := 1 } (.xfer 0xFF) (.poll x)

/-- `byte(j)` of READRESP's result (40_command_engine.md R151). -/
def respByte (s : State) (j : Nat) : Byte :=
  if j < s.a0.toNat then s.scratch.resp.getD j 0 else 0

/-- SENDCMD from its start (40_command_engine.md R150). -/
def startSendcmd (s : State) : State :=
  if sendcmdArgsOk s then s.build .send (s.a0.extractLsb' 0 6) s.a1 else s.complete .badArgument

/-- READRESP from its start (40_command_engine.md R151). -/
def startReadresp (s : State) : State :=
  if readrespArgsOk s then startPoll .resp s else s.complete .badArgument

/-- READRESP with its response (40_command_engine.md R151). -/
def finishReadresp (s : State) : State :=
  { s with
    res0 := wordOfBytes (respByte s 0) (respByte s 1) (respByte s 2) (respByte s 3)
    res1 := (respByte s 4).setWidth 32
    res2 := s.scratch.poll.setWidth 32 }.complete .none

end Sys2Proof.Machine
end

