-- ==== Sys2Proof/Machine/BringupProc.lean ====
section
/-! DEFINITION. The procedures of the Card Bring-up State Machine (41_bringup.md R171 to R181, R185). -/

namespace Sys2Proof.Machine

/-- STATUS.STATE is written. -/
def State.setStage (s : State) (st : Stage) : State :=
  { s with status := { s.status with stage := st } }

/-- `fail(E)` inside BRINGUP: STATE is Failed, then the op ends with E (41_bringup.md R181). -/
def bringupFail (e : ErrCode) (s : State) : State :=
  (s.setStage .failed).complete e

/-- BRINGUP from its start: the warm-up is requested (41_bringup.md R171, R172). -/
def startBringup (s : State) : State :=
  s.ask s.scratch (.idle s.cfg.warmupBytes.toNat) .warmup

/-- An attempt of the reset loop (41_bringup.md R173). -/
def resetAttempt (n : Byte) (s : State) : State :=
  (s.put { s.scratch with attempt := n }).build .reset 0 0

/-- The warm-up is done: WarmedUp, then the first reset attempt (41_bringup.md R172, R173). -/
def afterWarmup (s : State) : State :=
  resetAttempt 1 (s.setStage .warmedUp)

/-- A reset attempt failed: the next one, or RESET_TIMEOUT (41_bringup.md R173, R180). -/
def nextReset (s : State) : State :=
  if s.scratch.attempt.toNat < s.cfg.resetRetries.toNat then resetAttempt (s.scratch.attempt + 1) s
  else bringupFail .resetTimeout s

/-- The R1 of the reset command (41_bringup.md R173); when it is idle the interface check follows (R174). -/
def gotReset (s : State) : State :=
  if isIdle s.scratch.resp[0] then
    (s.setStage .reset).build .iface 8 ((0#20 ++ s.params.cmd8Vhs ++ s.params.cmd8Pattern : BitVec (20 + 4 + 8)))
  else nextReset s

/-- An attempt of the initialization loop (41_bringup.md R175). -/
def initAttempt (n : Byte) (s : State) : State :=
  (s.put { s.scratch with attempt := n }).build .marker 55 0

/-- An initialization attempt failed: the next one, or INIT_TIMEOUT (41_bringup.md R175, R180). -/
def nextInit (s : State) : State :=
  if s.scratch.attempt.toNat < s.cfg.initRetries.toNat then initAttempt (s.scratch.attempt + 1) s
  else bringupFail .initTimeout s

/-- The check of the R7: idle, the voltage nibble and the pattern echoed (41_bringup.md R174). -/
def ifaceMatches (p : Params) (r : Vector Byte 5) : Bool :=
  isIdle r[0] && r[3].extractLsb' 0 4 == p.cmd8Vhs && r[4] == p.cmd8Pattern

/-- The R7 of the interface check: V2 and VersionChecked, then the branch (41_bringup.md R174, R171). -/
def gotIface (s : State) : State :=
  let v2 := ifaceMatches s.params s.scratch.resp
  let s := { s with status := { s.status with v2 := v2, stage := .versionChecked } }
  if v2 then initAttempt 1 s else s.build .ocr 58 0

/-- The R1 of the marker: the activation command follows when it is idle (41_bringup.md R175). -/
def gotMarker (s : State) : State :=
  if isIdle s.scratch.resp[0] then s.build .activate 41 s.params.acmd41Arg else nextInit s

/-- `enter_ready(hc)` (41_bringup.md R178, R179), and BRINGUP returns. -/
def enterReady (hc : Bool) (s : State) : State :=
  { s with
    status := { s.status with hc := hc, stage := .ready }
    blockSize := BitVec.ofNat 32 (if hc then Config.hcBlockSize else s.params.stdBlockSize) }.complete .none

/-- The R1 of the activation command: when it is not idle the initialization is done and STATE is VoltageNegotiated; the
high-capacity-capable branch then reads the OCR (41_bringup.md R176), the legacy branch is Ready (R177). -/
def gotActivate (s : State) : State :=
  if isIdle s.scratch.resp[0] then nextInit s
  else if s.status.v2 then (s.setStage .voltageNegotiated).build .ocr 58 0
  else enterReady false (s.setStage .voltageNegotiated)

/-- The R3 of CMD58: in the high-capacity-capable branch the capacity class (41_bringup.md R176); in the legacy branch its R1
must be idle, then the voltage advisory and the initialization loop (R177). -/
def gotOcr (s : State) : State :=
  if s.status.v2 then enterReady (isHighCapacity (extractOcr s.scratch.resp)) s
  else if isIdle s.scratch.resp[0] then
    initAttempt 1 { s with
      status := { s.status with voltWarn := !hasAcceptableVoltage (extractOcr s.scratch.resp) } }
  else bringupFail .voltageRejected s

/-- SPEEDUP from its start (41_bringup.md R185). -/
def startSpeedup (s : State) : State :=
  s.ask s.scratch (.reconf s.a0) .reconf

/-- SPEEDUP with the transport's answer (41_bringup.md R185). -/
def finishSpeedup (ok : Bool) (s : State) : State :=
  if ok then { s with status := { s.status with spedUp := true } }.complete .none
  else (s.setStage .failed).complete .speedupFailed

end Sys2Proof.Machine
end

