-- ==== Sys2Proof/Machine/BlockProc.lean ====
section
/-! DEFINITION. The procedures of Block I/O: `read_block` (42_block_io.md R200 to R204) and READBLK and READBYTES (R205, R206). -/

namespace Sys2Proof.Machine

/-- `read_block(lba)` from its start: BUFVALID is cleared and CMD17 is built with the byte address `lba << 9`
(42_block_io.md R200, R201). -/
def readBlock (u : BlockUse) (lba : Word) (s : State) : State :=
  ({ s with status := { s.status with bufvalid := false } }.put { s.scratch with lba := lba }).build (.block u) 17 (lba <<< 9)

/-- What the calling procedure does with an error of `read_block` before it passes it on: READBYTES counts the bytes written
(42_block_io.md R206), DIRNEXT ends the scan (44_directory.md R274). -/
def propagate (u : BlockUse) (s : State) : State :=
  match u with
  | .readbytes => { s with res0 := BitVec.ofNat 32 s.scratch.written }
  | .dirnext => s.endScan
  | .readblk | .partition | .mountMbr | .mountBoot => s

/-- `err(E)` of `read_block`: the error context is recorded and the op ends with E (42_block_io.md R200, R204). -/
def blockFail (u : BlockUse) (e : ErrCode) (s : State) : State :=
  (propagate u { s with
    errLba := s.scratch.lba
    status := { s.status with errctx := true, bufvalid := false } }).complete e

/-- The status byte of CMD17: only 0x00 goes on to the data frame (42_block_io.md R200, R202). -/
def gotStatus (u : BlockUse) (s : State) : State :=
  if s.scratch.resp[0] = 0x00 then
    s.ask { s.scratch with i := 0 } (.xfer 0xFF) (.data u)
  else blockFail u .readRejected { s with errByte := s.scratch.resp[0] }

/-- Data frame byte `i`: the token, a payload byte into BLOCKBUF, or a checksum byte, which is dropped
(42_block_io.md R200). -/
def takeDatum (d : Byte) (s : State) : State :=
  if s.scratch.i = 0 then s.put { s.scratch with tok := d }
  else if s.scratch.i.toNat ≤ s.bs then { s with blockbuf := s.blockbuf.set (s.scratch.i.toNat - 1) d }
  else s

/-- READBLK from its start (42_block_io.md R205). -/
def startReadblk (s : State) : State :=
  readBlock .readblk s.a0 s.cancelScan

/-- Block `k` of READBYTES is asked for (42_block_io.md R206). -/
def readChunk (k : Word) (s : State) : State :=
  readBlock .readbytes (BitVec.ofNat 32 (readFirst s) + k) (s.put { s.scratch with k := k })

/-- READBYTES from its start (42_block_io.md R206). -/
def startReadbytes (s : State) : State :=
  if readbytesArgsOk s then
    let s := s.cancelScan.put { s.scratch with written := 0, dst := s.a0 }
    if s.a1 = 0 then { s with res0 := 0 }.complete .none else readChunk 0 s
  else s.complete .badArgument

/-- Block `k` of READBYTES was read: its bytes `lo_k` to `hi_k - 1` are to be written to DMEM (42_block_io.md R206). -/
def startCopy (s : State) : State :=
  (s.put { s.scratch with j := readLo s s.scratch.k.toNat }).goTo .copy

/-- One DMEM write of READBYTES (42_block_io.md R206). -/
def copyByte (s : State) : State :=
  (s.memWrite s.scratch.dst (byteAt s.blockbuf s.scratch.j)).put
    { s.scratch with dst := s.scratch.dst + 1, written := s.scratch.written + 1, j := s.scratch.j + 1 }

/-- All bytes of block `k` are written: the next block, or the end (42_block_io.md R206). -/
def afterCopy (s : State) : State :=
  if s.scratch.k.toNat + 1 < readCount s then readChunk (s.scratch.k + 1) s
  else { s with res0 := BitVec.ofNat 32 s.scratch.written }.complete .none

/-- One engine step of READBYTES's copy loop: a DMEM write, and the loop's end after the last (42_block_io.md R206). -/
def copyStep (s : State) : State :=
  if s.scratch.j + 1 < readHi s s.scratch.k.toNat then copyByte s else afterCopy (copyByte s)

end Sys2Proof.Machine
end

