-- ==== Sys2Proof/Machine/FatProc.lean ====
section
/-! DEFINITION. The procedures of the FAT32 Volume Parser (43_fat32.md R230 to R240). -/

namespace Sys2Proof.Machine

/-- The checks PARTITION and MOUNT share: the index, then the block size (43_fat32.md R230, R232; 60_exceptions.md R305). -/
def checkPartition (s : State) : ErrCode :=
  if !partitionArgsOk s then .badArgument
  else if s.bs ≠ 512 then .blockSizeUnsupported
  else .none

/-- PARTITION from its start (43_fat32.md R232). -/
def startPartition (s : State) : State :=
  if checkPartition s = .none then readBlock .partition 0 s.cancelScan else s.complete (checkPartition s)

/-- Where record `n` lies in block 0 (43_fat32.md R231). -/
def recordOffset (n : Nat) : Nat :=
  446 + 16 * (n - 1)

/-- `decode_partition(n)` over block 0, once it was read (43_fat32.md R233). -/
def decodePartition (s : State) : State :=
  let o := recordOffset s.a0.toNat
  { s with part := { ptype := byteAt s.blockbuf (o + 4), count := le32 s.blockbuf (o + 4), lba := le32 s.blockbuf (o + 8) } }

/-- PARTITION with block 0 (43_fat32.md R232). -/
def finishPartition (s : State) : State :=
  let s := decodePartition s
  { s with res0 := s.part.lba }.complete .none

/-- MOUNT from its start (43_fat32.md R236). -/
def startMount (s : State) : State :=
  if checkPartition s = .none then
    let s := s.cancelScan
    readBlock .mountMbr 0 { s with status := { s.status with mounted := false } }
  else s.complete (checkPartition s)

/-- MOUNT with block 0: the boot sector is read at PART_LBA (43_fat32.md R236). -/
def mountPartition (s : State) : State :=
  let s := decodePartition s
  readBlock .mountBoot s.part.lba s

/-- `decode_bpb()` (43_fat32.md R234). -/
def decodeBpb (s : State) : State :=
  { s with vol := { s.vol with
      bps := le16 s.blockbuf 0x0B
      spc := byteAt s.blockbuf 0x0D
      rsvd := le16 s.blockbuf 0x0E
      nfats := byteAt s.blockbuf 0x10
      spf := le32 s.blockbuf 0x24
      rootClus := le32 s.blockbuf 0x2C
      bootSig := le16 s.blockbuf 0x1FE } }

/-- `FAT_LBA` and `DATA_LBA` from the decoded fields, mod 2^32 (43_fat32.md R237). -/
def regionLbas (partLba : Word) (v : Vol) : Word × Word :=
  let fat := partLba + v.rsvd.setWidth 32
  (fat, fat + v.nfats.setWidth 32 * v.spf)

/-- MOUNT with the boot sector (43_fat32.md R235, R236). -/
def finishMount (s : State) : State :=
  let s := decodeBpb s
  if s.vol.bootSig = 0xAA55 then
    let r := regionLbas s.part.lba s.vol
    { s with
      vol := { s.vol with fatLba := r.1, dataLba := r.2 }
      status := { s.status with mounted := true }
      res0 := r.1
      res1 := r.2 }.complete .none
  else s.complete .badSignature

/-- The LBA of a cluster, mod 2^32 (43_fat32.md R240). -/
def clusterLba (v : Vol) (c : Word) : Word :=
  v.dataLba + (c - 2) * v.spc.setWidth 32

/-- CLUS2LBA from its start to its end (43_fat32.md R240). -/
def startClus2lba (s : State) : State :=
  if s.a0.toNat < 2 then s.complete .invalidCluster
  else { s with res0 := clusterLba s.vol s.a0 }.complete .none

end Sys2Proof.Machine
end

