-- ==== Sys2Proof/Machine/DirProc.lean ====
section
/-! DEFINITION. The procedures of the Directory Entry Decoder (44_directory.md R270 to R277). -/

namespace Sys2Proof.Machine

/-- RES0 of DECSLOT (44_directory.md R270, R271). -/
def decslotRes0 (t : List Byte) : Word :=
  match classify t with
  | .endOfDir => 0
  | .free => 1
  | .short => (byteAt t 11 ++ 2#8 : BitVec (8 + 8)).setWidth 32
  | .longFrag => (byteAt t 13 ++ byteAt t 0 ++ byteAt t 11 ++ 3#8 : BitVec (8 + 8 + 8 + 8))

/-- The name DECSLOT writes; empty for End and Free, so NAME_LEN is 0 (44_directory.md R270). -/
def decslotName (t : List Byte) : List Byte :=
  match classify t with
  | .endOfDir => []
  | .free => []
  | .short => shortName t
  | .longFrag => fragUtf8 (fragUnits t)

/-- RES1 and RES2 of DECSLOT: cluster and size of a short entry, else 0 (44_directory.md R270). -/
def decslotRes12 (t : List Byte) : Word × Word :=
  match classify t with
  | .short => (firstCluster t, le32 t 28)
  | .endOfDir | .free | .longFrag => (0, 0)

/-- DECSLOT from its start to its end (44_directory.md R270). -/
def startDecslot (s : State) : State :=
  if decslotArgsOk s then
    let t := slotOf s.blockbuf s.a0.toNat
    ({ s with res0 := decslotRes0 t, res1 := (decslotRes12 t).1, res2 := (decslotRes12 t).2 }.writeName
      (decslotName t)).complete .none
  else s.complete .badArgument

/-- DIRSTART from its start to its end (44_directory.md R272). -/
def startDirstart (s : State) : State :=
  { s with
    dir := { lba := s.a0, left := s.a1, slot := 0, frags := [], loaded := false }
    status := { s.status with dirActive := s.a1 != 0 } }.complete .none

/-- DIRNEXT returns END (44_directory.md R274). -/
def dirEnd (s : State) : State :=
  { s with res0 := 0, res1 := 0, res2 := 0, res3 := 0, nameLen := 0 }.complete .none

/-- The name of the entry a short slot yields: the fragments' name if some are held, else its own (44_directory.md R274). -/
def entryName (fs : List Frag) (t : List Byte) : List Byte :=
  if fs.isEmpty then shortName t else lfnName fs

/-- DIRNEXT yields the entry of a short slot (44_directory.md R274). -/
def dirYield (t : List Byte) (s : State) : State :=
  let s' := s.writeName (entryName s.dir.frags t)
  { s' with
    res0 := (BitVec.ofBool (!s.dir.frags.isEmpty) ++ byteAt t 11 ++ 1#8 : BitVec (1 + 8 + 8)).setWidth 32
    res1 := firstCluster t
    res2 := le32 t 28
    res3 := s.dir.lba
    dir := { s.dir with frags := [] } }.complete .none

/-- The block of the scan is finished: the next one is read, or the scan ends (44_directory.md R274, R275). -/
def dirBlockDone (s : State) : State :=
  let s := { s with dir := { s.dir with lba := s.dir.lba + 1, left := s.dir.left - 1, loaded := false } }
  if s.dir.left = 0 then dirEnd s.endScan else readBlock .dirnext s.dir.lba s

/-- The scan of the loaded block over its last `n` slots (44_directory.md R274). -/
def dirScan : Nat → State → State
  | 0, s => dirBlockDone s
  | n + 1, s =>
    let t := slotOf s.blockbuf s.dir.slot.toNat
    let s := { s with dir := { s.dir with slot := s.dir.slot + 1 } }
    match classify t with
    | .endOfDir => dirEnd s.endScan
    | .free => dirScan n s
    | .longFrag =>
      if s.params.maxFragments ≤ s.dir.frags.length then s.endScan.complete .nameTooLong
      else dirScan n { s with dir := { s.dir with frags := s.dir.frags ++ [{ ord := byteAt t 0, cu := fragUnits t }] } }
    | .short => dirYield t s

/-- The scan of the loaded block from DIR_SLOT on (44_directory.md R274). -/
def dirScanBlock (s : State) : State :=
  dirScan (s.slots - s.dir.slot.toNat) s

/-- DIRNEXT from its start (44_directory.md R274). -/
def startDirnext (s : State) : State :=
  if !s.status.dirActive then dirEnd s
  else if s.dir.loaded then dirScanBlock s
  else readBlock .dirnext s.dir.lba s

/-- DIRNEXT with a block of the scan (44_directory.md R274). -/
def dirBlockRead (s : State) : State :=
  dirScanBlock { s with dir := { s.dir with loaded := true, slot := 0 } }

end Sys2Proof.Machine
end

