-- ==== Sys2Proof/Machine/Engine.lean ====
section
/-! DEFINITION. The engine (10_state.md R24, R47): its steps at every label, and how it runs over the inputs. -/

namespace Sys2Proof.Machine

/-! ## One engine step -/

/-- The procedure of an op from its start, once it is legal. -/
def opBody (op : Byte) (s : State) : State :=
  match op.toNat with
  | 0x01 => startBringup s
  | 0x02 => startSpeedup s
  | 0x03 => startSendcmd s
  | 0x04 => startReadresp s
  | 0x05 => startReadblk s
  | 0x06 => startReadbytes s
  | 0x07 => startPartition s
  | 0x08 => startMount s
  | 0x09 => startClus2lba s
  | 0x0A => startDecslot s
  | 0x0B => startDirstart s
  | 0x0C => startDirnext s
  | _ => s.complete .illegalOp

/-- An issued op: ILLEGAL_OP before any other check and any effect, else its procedure (60_exceptions.md R301, R305). -/
def startOp (op : Byte) (s : State) : State :=
  if opLegal op s then opBody op s else s.complete .illegalOp

/-- The frame is sent: SENDCMD returns, the other exchanges read their response. -/
def frameSent (x : Exch) (s : State) : State :=
  match x with
  | .send => s.complete .none
  | .resp | .reset | .iface | .marker | .activate | .ocr | .block _ => startPoll x s

/-- What the caller does with a TRANSPORT_ERROR of its exchange (40_command_engine.md R140, 41_bringup.md R181,
42_block_io.md R200). -/
def exchErr (x : Exch) (s : State) : State :=
  match x with
  | .send | .resp => s.complete .transportError
  | .reset | .iface | .marker | .activate | .ocr => bringupFail .transportError s
  | .block u => blockFail u .transportError s

/-- What the caller does with `NoResp` (40_command_engine.md R144): a failed attempt inside a retry loop, else NO_RESPONSE. -/
def exchNoResp (x : Exch) (s : State) : State :=
  match x with
  | .send | .resp => s.complete .noResponse
  | .reset => nextReset s
  | .marker | .activate => nextInit s
  | .iface | .ocr => bringupFail .noResponse s
  | .block u => blockFail u .noResponse s

/-- What the caller does with its response. -/
def exchGot (x : Exch) (s : State) : State :=
  match x with
  | .send => s.complete .none
  | .resp => finishReadresp s
  | .reset => gotReset s
  | .iface => gotIface s
  | .marker => gotMarker s
  | .activate => gotActivate s
  | .ocr => gotOcr s
  | .block u => gotStatus u s

/-- What the caller of `read_block` does with its block. -/
def afterBlock (u : BlockUse) (s : State) : State :=
  match u with
  | .readblk => s.complete .none
  | .readbytes => startCopy s
  | .partition => finishPartition s
  | .mountMbr => mountPartition s
  | .mountBoot => finishMount s
  | .dirnext => dirBlockRead s

/-- The data frame is received: the token is tested only now (42_block_io.md R200, R202). -/
def dataDone (u : BlockUse) (s : State) : State :=
  if s.scratch.tok = 0xFE then afterBlock u { s with status := { s.status with bufvalid := true } }
  else blockFail u .badStartToken { s with errByte := s.scratch.tok }

/-- A frame byte was exchanged; the byte received is dropped (40_command_engine.md R141). -/
def frameStep (x : Exch) (s : State) : State :=
  if s.scratch.i.toNat < 5 then
    s.ask { s.scratch with i := s.scratch.i + 1 } (.xfer (frameByte s.scratch.frame (s.scratch.i.toNat + 1))) (.frame x)
  else frameSent x s

/-- A poll returned `b` (40_command_engine.md R143). -/
def pollStep (x : Exch) (b : Byte) (s : State) : State :=
  if b = 0xFF then
    if s.scratch.poll.toNat < respBudget x s then
      s.ask { s.scratch with poll := s.scratch.poll + 1 } (.xfer 0xFF) (.poll x)
    else exchNoResp x s
  else
    let sc := { s.scratch with resp := s.scratch.resp.setIfInBounds 0 b, i := 1 }
    if respCount x s ≤ 1 then exchGot x (s.put sc) else s.ask sc (.xfer 0xFF) (.rest x)

/-- A further response byte, kept whatever it is (40_command_engine.md R143). -/
def restStep (x : Exch) (c : Byte) (s : State) : State :=
  let sc := { s.scratch with resp := s.scratch.resp.setIfInBounds s.scratch.i.toNat c, i := s.scratch.i + 1 }
  if s.scratch.i.toNat + 1 < respCount x s then s.ask sc (.xfer 0xFF) (.rest x) else exchGot x (s.put sc)

/-- A data frame byte; `BLOCK_SIZE + 3` of them make the frame (42_block_io.md R200). -/
def dataStep (u : BlockUse) (d : Byte) (s : State) : State :=
  let s' := takeDatum d s
  if s.scratch.i.toNat < s.bs + 2 then s'.ask { s'.scratch with i := s.scratch.i + 1 } (.xfer 0xFF) (.data u)
  else dataDone u s'

/-- The engine step at a waiting label, with the transport's answer. When a soft reset is pending the answer is ignored and the
reset takes effect (70_reset_and_hazards.md R341). -/
def engAnswer (r : Answer) (s : State) : State :=
  if s.softReset then s.blockReset
  else match s.eng with
    | .running _ .warmup => afterWarmup s
    | .running _ .reconf =>
      match r with
      | .ok _ => finishSpeedup true s
      | .err => finishSpeedup false s
    | .running _ (.frame x) =>
      match r with
      | .ok _ => frameStep x s
      | .err => exchErr x s
    | .running _ (.poll x) =>
      match r with
      | .ok b => pollStep x b s
      | .err => exchErr x s
    | .running _ (.rest x) =>
      match r with
      | .ok c => restStep x c s
      | .err => exchErr x s
    | .running _ (.data u) =>
      match r with
      | .ok d => dataStep u d s
      | .err => blockFail u .transportError s
    | .running _ .start | .running _ (.ready _) | .running _ .copy | .idle => s

/-- The engine step at an internal label. When a soft reset is pending it takes effect instead
(70_reset_and_hazards.md R341). -/
def engInternal (s : State) : State :=
  if s.softReset then s.blockReset
  else match s.eng with
    | .running op .start => startOp op s
    | .running _ (.ready x) => sendFirst x s
    | .running _ .copy => copyStep s
    | .running _ .warmup | .running _ .reconf | .running _ (.frame _) | .running _ (.poll _) | .running _ (.rest _)
    | .running _ (.data _) | .idle => s

/-! ## Runs of engine steps -/

/-- At most `n` internal steps. -/
def internalRun : Nat → State → State
  | 0, s => s
  | n + 1, s => if s.internal then internalRun n (engInternal s) else s

/-- No more internal steps than this stand between a label and the next wait or the op's end: two from the start (the op's own
and the frame's first byte), and in READBYTES's copy loop one for each byte left and the frame's first byte. -/
def internalBound (s : State) : Nat :=
  match s.eng with
  | .running _ .start => 2
  | .running _ (.ready _) => 1
  | .running _ .copy => readHi s s.scratch.k.toNat - s.scratch.j + 2
  | .running _ .warmup | .running _ .reconf | .running _ (.frame _) | .running _ (.poll _) | .running _ (.rest _)
  | .running _ (.data _) | .idle => 0

/-- All internal steps up to the next wait for the transport or the op's end. -/
def settle (s : State) : State :=
  internalRun (internalBound s) s

/-- The pace a host access or a reset edge has left after the engine made the internal steps it asked for: it lands at once when
the engine still has an internal step to make (log 4). -/
def paceLeft (p : Option Nat) (s : State) : Option Nat :=
  match p with
  | none => none
  | some n => if s.internal then some 0 else some n

/-- The internal steps before an event of the given pace. -/
def paceRun (p : Option Nat) (s : State) : State :=
  match p with
  | none => settle s
  | some n => internalRun n s

/-- The engine runs over the inputs: it makes its internal steps at once, takes the transport's answers in order, and stops
when the op is over, when a host access or a reset edge is next, or when no answer is left. What is left of the inputs stays
in `events` (log 4). -/
def drive : List Event → State → State
  | [], s => { settle s with events := [] }
  | .answer r :: es, s =>
    if (settle s).waiting then drive es (engAnswer r (settle s)) else { settle s with events := .answer r :: es }
  | .host p a :: es, s => { paceRun p s with events := .host (paceLeft p (paceRun p s)) a :: es }
  | .hard p l :: es, s => { paceRun p s with events := .hard (paceLeft p (paceRun p s)) l :: es }

/-- The engine runs one exchange over the inputs: as `drive`, but it stops at the next internal label. -/
def exchange : List Event → State → State
  | [], s => { s with events := [] }
  | .answer r :: es, s =>
    if s.waiting then exchange es (engAnswer r s) else { s with events := .answer r :: es }
  | .host p a :: es, s => { s with events := .host p a :: es }
  | .hard p l :: es, s => { s with events := .hard p l :: es }

/-! ## The two ways an instruction starts -/

/-- A host write of OP with an op code: the op is issued and runs (10_state.md R50). With BUSY = 1 the write only sets OPOVR
(R30); while the reset input is asserted it is ignored (70_reset_and_hazards.md R340). -/
def launch (op : Byte) (s : State) : Host.Outcome State Fault Refusal :=
  if s.inReset then .next s
  else if s.busy then .next { s with status := { s.status with opovr := true } }
  else .next (drive s.events (s.issue op))

/-- The running op sends a wire command: the engine must stand where the op's procedure sends it (`at_` says so of an exchange).
The frame is sent and the exchange runs to its end (log 18). A pending soft reset takes effect instead
(70_reset_and_hazards.md R341). -/
def sendWire (at_ : Exch → Bool) (idx : BitVec 6) (arg : Word) (s : State) : Host.Outcome State Fault Refusal :=
  match s.eng with
  | .running _ (.ready x) =>
    if at_ x then
      if s.softReset then .next s.blockReset
      else .next (exchange s.events (sendFirst x (s.put { s.scratch with frame := frameWord idx arg })))
    else .refused .notAtCommand
  | .running _ .start | .running _ .warmup | .running _ .reconf | .running _ (.frame _) | .running _ (.poll _)
  | .running _ (.rest _) | .running _ (.data _) | .running _ .copy | .idle => .refused .notAtCommand

end Sys2Proof.Machine
end

