-- ==== Sys2Proof/Machine/Block.lean ====
section
/-! DEFINITION. The meanings of the block read ops. -/

namespace Sys2Proof.Machine

/-- READBLK (42_block_io.md R205); its procedure begins at `startReadblk`. -/
def execReadblk (s : State) : Host.Outcome State Fault Refusal :=
  launch 0x05 s

/-- READBYTES (42_block_io.md R206); its procedure begins at `startReadbytes`. -/
def execReadbytes (s : State) : Host.Outcome State Fault Refusal :=
  launch 0x06 s

end Sys2Proof.Machine
end

