-- ==== Sys2Proof/Machine/Bringup.lean ====
section
/-! DEFINITION. The meanings of the bring-up ops. -/

namespace Sys2Proof.Machine

/-- BRINGUP (41_bringup.md R171); its procedure begins at `startBringup`. -/
def execBringup (s : State) : Host.Outcome State Fault Refusal :=
  launch 0x01 s

/-- SPEEDUP (41_bringup.md R185); its procedure is `startSpeedup`, then `finishSpeedup`. -/
def execSpeedup (s : State) : Host.Outcome State Fault Refusal :=
  launch 0x02 s

end Sys2Proof.Machine
end

