-- ==== Sys2Proof/Machine/Command.lean ====
section
/-! DEFINITION. The meanings of the two raw card ops. -/

namespace Sys2Proof.Machine

/-- SENDCMD (40_command_engine.md R150): the op is issued and runs over the inputs at hand; its procedure is
`startSendcmd`. -/
def execSendcmd (s : State) : Host.Outcome State Fault Refusal :=
  launch 0x03 s

/-- READRESP (40_command_engine.md R151); its procedure is `startReadresp`, then `finishReadresp`. -/
def execReadresp (s : State) : Host.Outcome State Fault Refusal :=
  launch 0x04 s

end Sys2Proof.Machine
end

