-- ==== Sys2Proof/Machine/Directory.lean ====
section
/-! DEFINITION. The meanings of the directory ops. -/

namespace Sys2Proof.Machine

/-- DECSLOT (44_directory.md R270); its procedure is `startDecslot`. -/
def execDecslot (s : State) : Host.Outcome State Fault Refusal :=
  launch 0x0A s

/-- DIRSTART (44_directory.md R272); its procedure is `startDirstart`. -/
def execDirstart (s : State) : Host.Outcome State Fault Refusal :=
  launch 0x0B s

/-- DIRNEXT (44_directory.md R274); its procedure is `startDirnext`, with `dirBlockRead` after each block. -/
def execDirnext (s : State) : Host.Outcome State Fault Refusal :=
  launch 0x0C s

end Sys2Proof.Machine
end

