-- ==== Sys2Proof/Machine/Fat.lean ====
section
/-! DEFINITION. The meanings of the volume ops. -/

namespace Sys2Proof.Machine

/-- PARTITION (43_fat32.md R232); its procedure is `startPartition`, then `finishPartition`. -/
def execPartition (s : State) : Host.Outcome State Fault Refusal :=
  launch 0x07 s

/-- MOUNT (43_fat32.md R236); its procedure is `startMount`, `mountPartition`, `finishMount`. -/
def execMount (s : State) : Host.Outcome State Fault Refusal :=
  launch 0x08 s

/-- CLUS2LBA (43_fat32.md R240); its procedure is `startClus2lba`. -/
def execClus2lba (s : State) : Host.Outcome State Fault Refusal :=
  launch 0x09 s

end Sys2Proof.Machine
end

