-- ==== Sys2Proof/Machine/Wire.lean ====
section
/-! DEFINITION. The meanings of the six wire commands (30_encoding.md R112): one exchange of the running op with the card,
its frame and its response, and what the op's procedure does with the response (log 18). -/

namespace Sys2Proof.Machine

/-- CMD0: one attempt of the reset loop (41_bringup.md R173); its response goes to `gotReset`. -/
def execCmd0 (s : State) : Host.Outcome State Fault Refusal :=
  sendWire (· == .reset) 0 0 s

/-- CMD8: the interface check (41_bringup.md R174); its response goes to `gotIface`. -/
def execCmd8 (s : State) : Host.Outcome State Fault Refusal :=
  sendWire (· == .iface) 8 0x1AA s

/-- CMD17: one block read (42_block_io.md R200); its response goes to `gotStatus`, the block to `afterBlock`. -/
def execCmd17 (arg : Word) (s : State) : Host.Outcome State Fault Refusal :=
  sendWire (fun x => match x with
    | .block _ => true
    | .send | .resp | .reset | .iface | .marker | .activate | .ocr => false) 17 arg s

/-- CMD55: the marker of an initialization attempt (41_bringup.md R175); its response goes to `gotMarker`. -/
def execCmd55 (s : State) : Host.Outcome State Fault Refusal :=
  sendWire (· == .marker) 55 0 s

/-- ACMD41: the activation of an initialization attempt (41_bringup.md R175); its response goes to `gotActivate`. -/
def execAcmd41 (s : State) : Host.Outcome State Fault Refusal :=
  sendWire (· == .activate) 41 0x40000000 s

/-- CMD58: read operating conditions, in either branch (41_bringup.md R176, R177); its response goes to `gotOcr`. -/
def execCmd58 (s : State) : Host.Outcome State Fault Refusal :=
  sendWire (· == .ocr) 58 0 s

end Sys2Proof.Machine
end

