-- ==== Sys2Proof/Machine/Dispatch.lean ====
section
/-! DEFINITION. One arm per instruction, each a call of its meaning. -/

namespace Sys2Proof.Machine

def exec (i : Instr) (s : State) : Host.Outcome State Fault Refusal :=
  match i with
  | .bringup => Sys2Proof.Machine.execBringup s
  | .speedup => Sys2Proof.Machine.execSpeedup s
  | .sendcmd => Sys2Proof.Machine.execSendcmd s
  | .readresp => Sys2Proof.Machine.execReadresp s
  | .readblk => Sys2Proof.Machine.execReadblk s
  | .readbytes => Sys2Proof.Machine.execReadbytes s
  | .partition => Sys2Proof.Machine.execPartition s
  | .mount => Sys2Proof.Machine.execMount s
  | .clus2lba => Sys2Proof.Machine.execClus2lba s
  | .decslot => Sys2Proof.Machine.execDecslot s
  | .dirstart => Sys2Proof.Machine.execDirstart s
  | .dirnext => Sys2Proof.Machine.execDirnext s
  | .cmd0 => Sys2Proof.Machine.execCmd0 s
  | .cmd8 => Sys2Proof.Machine.execCmd8 s
  | .cmd17 arg => Sys2Proof.Machine.execCmd17 arg s
  | .cmd55 => Sys2Proof.Machine.execCmd55 s
  | .acmd41 => Sys2Proof.Machine.execAcmd41 s
  | .cmd58 => Sys2Proof.Machine.execCmd58 s

end Sys2Proof.Machine
end

