-- ==== Sys2Proof/Machine/Sched.lean ====
section
/-! DEFINITION. Fetching, host accesses, and the order in which the engine, the host, the transport and the platform move: the
order of the inputs (20_memory.md R80). -/

namespace Sys2Proof.Machine

/-! ## The host's accesses -/

/-- A host write of OP: the word's bytes are decoded and the op runs; a reserved op code is issued and raises ILLEGAL_OP
(30_encoding.md R100, R106). -/
def writeOp (v : Word) (s : State) : Host.Outcome State Fault Refusal :=
  match decode (bytesOfWord v) with
  | .ok i => exec i s
  | .error _ => launch (v.extractLsb' 0 8) s

/-- One host access (20_memory.md R74 to R76); what a read returned is put at the end of `reads`. -/
def hostAccess (a : HostAccess) (s : State) : Host.Outcome State Fault Refusal :=
  if !a.shapeOk then .refused .hostAccessShape
  else if !a.inSpace s.params then .refused .outsideBlock
  else
    match a.dir with
    | .rd =>
      let r := s.readReg (a.addr - s.params.base)
      .next { r.2 with reads := r.2.reads ++ [{ off := a.addr - s.params.base, val := r.1 }] }
    | .wr v =>
      if a.addr = s.params.base then writeOp v s else .next (s.writeReg (a.addr - s.params.base) v)

/-! ## The engine's own fetch -/

/-- The wire command the running op sends next, if the engine stands before its first byte and the frame is one of the opcode
table's; the frame of a SENDCMD is the host's and is none of the op's own (log 27). -/
def wireFetch (s : State) : Option Instr :=
  match s.eng with
  | .running _ (.ready x) =>
    if x = .send then none
    else
      match decode (frameBytes s.scratch.frame) with
      | .ok i => some i
      | .error _ => none
  | .running _ .start | .running _ .warmup | .running _ .reconf | .running _ (.frame _) | .running _ (.poll _)
  | .running _ (.rest _) | .running _ (.data _) | .running _ .copy | .idle => none

/-- The engine goes on from an internal label: a wire command of the table is executed, any other step is made by the engine's
run. -/
def advance (s : State) : Host.Outcome State Fault Refusal :=
  match wireFetch s with
  | some i => exec i s
  | none => .next (drive s.events s)

/-! ## Who moves next -/

/-- The next input lands before the engine's next internal step (log 4). -/
def landsNow : List Event → Bool
  | .host (some 0) _ :: _ => true
  | .hard (some 0) _ :: _ => true
  | _ => false

/-- A step while the reset input is asserted: host accesses and late answers are ignored; the release leaves the block at its
reset values (70_reset_and_hazards.md R340). -/
def heldStep (s : State) : Host.Outcome State Fault Refusal :=
  match s.events with
  | [] => .next s
  | .hard _ false :: es => .next { s.blockReset with events := es }
  | _ :: es => .next { s with events := es }

/-- A step on the next input, when the engine has no internal step to make first. With no input left an idle block stays as it is
(70_reset_and_hazards.md R343), and a waiting engine has no step (60_exceptions.md R311). An answer that no request awaits is
dropped. -/
def inputStep (s : State) : Host.Outcome State Fault Refusal :=
  match s.events with
  | [] => if s.waiting then .fault .transportSilent else .next s
  | .answer _ :: es => if s.waiting then .next (drive s.events s) else .next { s with events := es }
  | .host _ a :: es => hostAccess a { s with events := es }
  | .hard _ true :: es => .next { s.blockReset with inReset := true, events := es }
  | .hard _ false :: es => .next { s with events := es }

/-- One step of the block and its surroundings (20_memory.md R80). -/
def schedule (s : State) : Host.Outcome State Fault Refusal :=
  if s.inReset then heldStep s
  else if s.internal && !landsNow s.events then advance s
  else inputStep s

/-! ## Placing an instruction -/

/-- The inputs with the pace of the next one taken off, so that it does not land before the engine's next step. -/
def unpaced : List Event → List Event
  | .host _ a :: es => .host none a :: es
  | .hard _ l :: es => .hard none l :: es
  | es => es

/-- The op and the exchange that send a wire command: CMD17 is READBLK's, the others BRINGUP's; the frame of no listed command is
sent as SENDCMD sends it. -/
def wirePlace (f : BitVec 48) : Byte × Exch :=
  match decode (frameBytes f) with
  | .ok .cmd0 => (0x01, .reset)
  | .ok .cmd8 => (0x01, .iface)
  | .ok .cmd55 => (0x01, .marker)
  | .ok .acmd41 => (0x01, .activate)
  | .ok .cmd58 => (0x01, .ocr)
  | .ok (.cmd17 _) => (0x05, .block .readblk)
  | _ => (0x03, .send)

/-- A host op word placed: the next input is the host's write of it to OP, and no op runs. -/
def placeHostOp (s : State) (w : Word) : State :=
  { s with
    eng := .idle
    softReset := false
    inReset := false
    events := .host none { bits := 32, addr := s.params.base, dir := .wr w } :: s.events }

/-- A command frame placed: the op that sends it stands before its first byte. -/
def placeFrame (s : State) (f : BitVec 48) : State :=
  { s with
    eng := .running (wirePlace f).1 (.ready (wirePlace f).2)
    softReset := false
    inReset := false
    scratch := { s.scratch with frame := f }
    events := unpaced s.events }

end Sys2Proof.Machine
end

