-- ==== Sys2Proof/Machine/Step.lean ====
section
/-! DEFINITION. The step function, and an instruction placed where it fetches its next one. -/

namespace Sys2Proof.Machine

/-- One step (20_memory.md R80): the next host access, reset edge or engine run. -/
def step (s : State) : Host.Outcome State Fault Refusal :=
  schedule s

/-- `s` with an instruction of the opcode table placed where the next step fetches it: a host op word as the host's next write of
OP, a command frame as the frame the engine sends next (log 1, 2). -/
def State.withFetchWord (s : State) (nbits w : Nat) : State :=
  if nbits ≤ 32 then placeHostOp s (BitVec.ofNat 32 (w % 2 ^ nbits))
  else placeFrame s (BitVec.ofNat 48 (w % 2 ^ nbits))

end Sys2Proof.Machine
end

