-- ==== Sys2Proof/Machine/Script.lean ====
section
/-! DEFINITION. Transport scripts and host programs as inputs (30_encoding.md R130, R131). -/

namespace Sys2Proof.Machine

/-! ## Transport scripts (30_encoding.md R131) -/

/-- `rx:` bytes: the transport answers each request with the next of them. -/
def rx (bs : List Byte) : List Event :=
  bs.map (fun b => Event.answer (.ok b))

/-- `Err`: the transport fails the request. -/
def rxErr : List Event :=
  [Event.answer .err]

/-- The answers of one exchange: six bytes during the frame, which the block ignores, `p` filler bytes, the response. -/
def rxExchange (g : List Byte) (p : Nat) (r : List Byte) : List Event :=
  rx g ++ rx (List.replicate p 0xFF) ++ rx r

/-- The answers of one successful block read: an exchange with status 0x00, then the data frame of R114 with its payload and
two checksum bytes. -/
def rxBlock (g : List Byte) (p : Nat) (payload : List Byte) (c0 c1 : Byte) : List Event :=
  rxExchange g p [0x00] ++ rx (0xFE :: payload ++ [c0, c1])

/-- What a card answers to one exchange: six bytes during the frame, filler bytes, the response. -/
structure Reply where
  ignored : List Byte
  fillers : Nat
  bytes   : List Byte
deriving DecidableEq, Repr

/-- Response byte `j`. -/
def Reply.byte (r : Reply) (j : Nat) : Byte :=
  r.bytes.getD j 0

/-- The inputs of a reply. -/
def Reply.inputs (r : Reply) : List Event :=
  rxExchange r.ignored r.fillers r.bytes

/-- How many bytes 0xFF the block sends to read it. -/
def Reply.polled (r : Reply) : Nat :=
  r.fillers + r.bytes.length

/-- A reply that `read_response(count, budget)` gets: fewer filler bytes than the budget, then `count` bytes of which the first is
no filler (40_command_engine.md R143). -/
def Reply.Fits (r : Reply) (budget count : Nat) : Prop :=
  r.ignored.length = 6 ∧ r.fillers < budget ∧ r.bytes.length = count ∧ r.byte 0 ≠ 0xFF

/-- What a card answers to a block read that succeeds: status 0x00, the data-start token, the payload, two checksum bytes. -/
structure BlockReply where
  ignored : List Byte
  fillers : Nat
  payload : List Byte
  ck0     : Byte
  ck1     : Byte
deriving DecidableEq, Repr

/-- The inputs of a block reply. -/
def BlockReply.inputs (b : BlockReply) : List Event :=
  rxBlock b.ignored b.fillers b.payload b.ck0 b.ck1

/-- A block reply that `read_block` gets: fewer filler bytes than the budget, a payload of BLOCK_SIZE bytes
(42_block_io.md R200). -/
def BlockReply.Fits (b : BlockReply) (budget size : Nat) : Prop :=
  b.ignored.length = 6 ∧ b.fillers < budget ∧ b.payload.length = size

/-! ## Requests (30_encoding.md R131) -/

/-- `tx:` bytes: the requests that send them. -/
def tx (bs : List Byte) : List Txn :=
  bs.map Txn.xfer

/-- The requests of one exchange: the six frame bytes, then `n` bytes 0xFF. -/
def txExchange (idx : BitVec 6) (arg : Word) (n : Nat) : List Txn :=
  tx (frameBytes (frameWord idx arg)) ++ tx (List.replicate n 0xFF)

/-- The requests of a read of block `lba` that gets the reply: the frame of CMD17, the polls, the data frame
(42_block_io.md R200, R209). -/
def BlockReply.sent (b : BlockReply) (lba : Word) (size : Nat) : List Txn :=
  txExchange 17 (lba <<< 9) (b.fillers + 1 + size + 3)

/-! ## Host programs (30_encoding.md R130) -/

/-- `WR <reg>, v`, the register by its offset. -/
def wr (p : Params) (off : Nat) (v : Word) : Event :=
  .host none { bits := 32, addr := p.base + off, dir := .wr v }

/-- `RD <reg>`. -/
def rd (p : Params) (off : Nat) : Event :=
  .host none { bits := 32, addr := p.base + off, dir := .rd }

/-- `CALL` with three arguments and an op code, without its `WAIT`: a host access of no pace waits by itself until the engine has
no step to make without the transport. -/
def call (p : Params) (op v0 v1 v2 : Word) : List Event :=
  [wr p 0x010 v0, wr p 0x014 v1, wr p 0x018 v2, wr p 0x000 op]

/-- `CLRIRQ`. -/
def clrIrq (p : Params) : Event :=
  wr p 0x00C 1

/-- `SRESET`, without its `WAIT`. -/
def sReset (p : Params) : Event :=
  wr p 0x008 1

end Sys2Proof.Machine
end

