-- ==== Sys2Proof/Safety.lean ====
section
/-! DEFINITION. The invariant of the block, and the terms the statements are written in. -/

namespace Sys2Proof.Machine

/-! ## The session (10_state.md R53) -/

/-- The session invariants of 10_state.md R53, over STATUS and BLOCK_SIZE, and what the unit flags ask of the block size
(R34). -/
structure SessionInv (p : Params) (st : Status) (size : Word) : Prop where
  sizes : size = 0 ∨ size = 512 ∨ size = BitVec.ofNat 32 p.stdBlockSize
  ready : st.stage = .ready → size ≠ 0
  stages : size ≠ 0 → st.stage = .ready ∨ st.stage = .failed
  failed : st.stage = .failed → size ≠ 0 → st.spedUp = false
  hc : st.hc = true → st.v2 = true ∧ size = 512
  spedUp : st.spedUp = true → size ≠ 0
  mounted : st.mounted = true → size = 512
  bufvalid : st.bufvalid = true → size ≠ 0

/-- What a mounted volume's registers satisfy (43_fat32.md R235 to R237). -/
structure VolumeInv (mounted : Bool) (v : Vol) : Prop where
  signature : mounted = true → v.bootSig = 0xAA55
  dataLba : mounted = true → v.dataLba = v.fatLba + v.nfats.setWidth 32 * v.spf

/-! ## Registers and buffers -/

/-- The legal values of the configuration registers (10_state.md R42). -/
structure CfgInv (c : Cfg) : Prop where
  respBudget : 1 ≤ c.respBudget.toNat
  resetRetries : 1 ≤ c.resetRetries.toNat
  initRetries : 1 ≤ c.initRetries.toNat
  warmupBytes : 10 ≤ c.warmupBytes.toNat

/-- The sizes of the two buffers (10_state.md R46) and the range of NAME_LEN (R45). -/
structure BufferInv (p : Params) (blockbuf namebuf : List Byte) (nameLen : BitVec 16) : Prop where
  blockbuf : blockbuf.length = Config.blockbufBytes
  namebuf : namebuf.length = p.namebufBytes
  nameLen : nameLen.toNat ≤ p.namebufBytes

/-- The directory scan: the ranges of DIR_SLOT and DIR_NFRAG (10_state.md R45), the shape of a fragment (R52), and what an
active and a loaded scan ask for (44_directory.md R272 to R277). -/
structure ScanInv (p : Params) (st : Status) (size : Word) (d : Dir) : Prop where
  active : st.dirActive = true → p.hasDirDecoder = true ∧ size ≠ 0 ∧ d.left ≠ 0
  inactive : st.dirActive = false → d.frags = [] ∧ d.loaded = false
  loaded : d.loaded = true → st.bufvalid = true
  slot : d.slot.toNat ≤ size.toNat / 32
  frags : d.frags.length ≤ p.maxFragments
  units : ∀ f ∈ d.frags, f.cu.length = 13

/-- Completion status (10_state.md R29): an op that runs has none, and ERR says that ERRCODE is not 0. -/
structure CompletionInv (st : Status) (e : Eng) : Prop where
  done : st.done = true → e = .idle
  err : st.err = (st.errcode != .none)
  errDone : st.err = true → st.done = true

/-! ## The engine's place (10_state.md R47, R49) -/

/-- The state a block read asks for at every step of it, and the op it belongs to (42_block_io.md R200, R205, R206,
43_fat32.md R232, R236, 44_directory.md R274). -/
def BlockUse.Place (u : BlockUse) (op : Byte) (s : State) : Prop :=
  s.status.stage = .ready ∧
  match u with
  | .readblk => op = 0x05 ∧ s.status.dirActive = false
  | .readbytes => op = 0x06 ∧ s.status.dirActive = false ∧ s.a1 ≠ 0 ∧ readbytesArgsOk s = true
      ∧ s.scratch.k.toNat < readCount s
  | .partition => op = 0x07 ∧ s.status.dirActive = false ∧ partitionArgsOk s = true ∧ s.bs = 512
  | .mountMbr | .mountBoot => op = 0x08 ∧ s.status.dirActive = false ∧ partitionArgsOk s = true ∧ s.bs = 512
      ∧ s.status.mounted = false
  | .dirnext => op = 0x0C ∧ s.status.dirActive = true ∧ s.dir.loaded = false

/-- The LBA a block read is for, and how far a READBYTES is when block `k` is read: every block before it is written, in order
from a0 on (42_block_io.md R205, R206, 43_fat32.md R233, R236, 44_directory.md R274, 20_memory.md R80). -/
def BlockUse.Aims (u : BlockUse) (s : State) : Prop :=
  match u with
  | .readblk => s.scratch.lba = s.a0
  | .readbytes => s.scratch.lba = BitVec.ofNat 32 (readFirst s) + s.scratch.k
      ∧ s.scratch.written = s.scratch.k.toNat * s.bs - readOff s
      ∧ s.scratch.dst = s.a0 + BitVec.ofNat 32 s.scratch.written
  | .partition | .mountMbr => s.scratch.lba = 0
  | .mountBoot => s.scratch.lba = s.part.lba
  | .dirnext => s.scratch.lba = s.dir.lba

/-- The state an exchange asks for at every step of it, and the op it belongs to: the arguments' ranges (30_encoding.md R107),
the bring-up state (41_bringup.md R170), the attempt counter's range (R173, R175). -/
def Exch.Place (x : Exch) (op : Byte) (s : State) : Prop :=
  match x with
  | .send => op = 0x03 ∧ sendcmdArgsOk s = true
  | .resp => op = 0x04 ∧ readrespArgsOk s = true
  | .reset => op = 0x01 ∧ s.status.stage = .warmedUp
      ∧ 1 ≤ s.scratch.attempt.toNat ∧ s.scratch.attempt.toNat ≤ s.cfg.resetRetries.toNat
  | .iface => op = 0x01 ∧ s.status.stage = .reset
  | .marker | .activate => op = 0x01 ∧ s.status.stage = .versionChecked
      ∧ 1 ≤ s.scratch.attempt.toNat ∧ s.scratch.attempt.toNat ≤ s.cfg.initRetries.toNat
  | .ocr => op = 0x01 ∧ s.status.stage = if s.status.v2 then .voltageNegotiated else .versionChecked
  | .block u => u.Place op s ∧ s.status.bufvalid = false ∧ u.Aims s

/-- The frame an exchange sends (30_encoding.md R112, 41_bringup.md R173 to R177, 42_block_io.md R200, R201; SENDCMD's is the
host's, 40_command_engine.md R150). -/
def Exch.frameOf (x : Exch) (s : State) : BitVec 48 :=
  match x with
  | .send => frameWord (s.a0.extractLsb' 0 6) s.a1
  | .reset | .resp => frameWord 0 0
  | .iface => frameWord 8 (0#20 ++ s.params.cmd8Vhs ++ s.params.cmd8Pattern : BitVec (20 + 4 + 8))
  | .marker => frameWord 55 0
  | .activate => frameWord 41 s.params.acmd41Arg
  | .ocr => frameWord 58 0
  | .block _ => frameWord 17 (s.scratch.lba <<< 9)

/-- The state a label asks for, with the ranges of the counters (10_state.md R49): a running op stands at a step of its own
procedure (R47). -/
def Label.Place (l : Label) (op : Byte) (s : State) : Prop :=
  match l with
  | .start => True
  | .warmup => op = 0x01 ∧ s.status.stage = .unpowered
  | .reconf => op = 0x02 ∧ s.status.stage = .ready ∧ s.status.spedUp = false
  | .ready x => x.Place op s ∧ x ≠ .resp ∧ s.scratch.frame = x.frameOf s
  | .frame x => x.Place op s ∧ x ≠ .resp ∧ s.scratch.i.toNat ≤ 5
  | .poll x => x.Place op s ∧ x ≠ .send ∧ 1 ≤ s.scratch.poll.toNat ∧ s.scratch.poll.toNat ≤ respBudget x s
  | .rest x => x.Place op s ∧ x ≠ .send ∧ 1 ≤ s.scratch.i.toNat ∧ s.scratch.i.toNat < respCount x s
  | .data u => u.Place op s ∧ s.status.bufvalid = false ∧ u.Aims s ∧ s.scratch.i.toNat ≤ s.bs + 2
  | .copy => BlockUse.Place .readbytes op s ∧ s.status.bufvalid = true
      ∧ readLo s s.scratch.k.toNat ≤ s.scratch.j ∧ s.scratch.j < readHi s s.scratch.k.toNat
      ∧ s.scratch.written = s.scratch.k.toNat * s.bs - readOff s + (s.scratch.j - readLo s s.scratch.k.toNat)
      ∧ s.scratch.dst = s.a0 + BitVec.ofNat 32 s.scratch.written

/-- The engine stands where the running op's procedure has a step. -/
def State.EngineInv (s : State) : Prop :=
  match s.eng with
  | .idle => True
  | .running op l => l.Place op s

/-- What every state the block can be in satisfies: the parts above; a soft reset is pending only while an op runs
(70_reset_and_hazards.md R341); a block held in hard reset has its reset values (R340). -/
structure State.Inv (s : State) : Prop where
  legal : s.params.legal = true
  session : SessionInv s.params s.status s.blockSize
  volume : VolumeInv s.status.mounted s.vol
  cfg : CfgInv s.cfg
  buffers : BufferInv s.params s.blockbuf s.namebuf s.nameLen
  scan : ScanInv s.params s.status s.blockSize s.dir
  completion : CompletionInv s.status s.eng
  engine : s.EngineInv
  soft : s.softReset = true → s.eng ≠ .idle
  held : s.inReset = true → { s with inReset := false } = s.blockReset
  dmem : s.dmem.wf = true

/-! ## The terms of the statements -/

/-- A host write of OP issues an op: BUSY = 0 and no reset in progress (10_state.md R50). -/
def State.CanIssue (s : State) : Prop :=
  s.eng = .idle ∧ s.softReset = false ∧ s.inReset = false

/-- The inputs do not begin with an access or an edge that lands before the engine's next internal step is over. -/
def Prompt : List Event → Prop
  | .host (some _) _ :: _ => False
  | .hard (some _) _ :: _ => False
  | _ => True

/-- The state an op leaves that writes nothing but the completion status: issue (10_state.md R50), then completion with `e`
(R51). -/
def State.after (s : State) (e : ErrCode) : State :=
  { s with
    a0 := s.arg0
    a1 := s.arg1
    a2 := s.arg2
    status := { s.status with
      done := true
      err := e != .none
      errcode := e
      opovr := false
      errctx := false }
    donePend := true
    eng := .idle }

/-- A state without the record of what host reads returned and without the count of free values drawn: the two fields a host
read changes (20_memory.md R76; log 8, 23). -/
def State.apartFromReads (s : State) : State :=
  { s with reads := [], draws := 0 }

/-- Two steps end alike, apart from the record of reads and the count of draws. -/
def SameApartFromReads : Host.Outcome State Fault Refusal → Host.Outcome State Fault Refusal → Prop
  | .next s, .next t => s.apartFromReads = t.apartFromReads
  | .fault f, .fault g => f = g
  | .refused q, .refused r => q = r
  | .next _, .fault _ | .next _, .refused _ | .fault _, .next _ | .fault _, .refused _ | .refused _, .next _
  | .refused _, .fault _ => False

/-- A scan with nothing held and no block loaded. -/
def Dir.dropped (d : Dir) : Dir :=
  { d with frags := [], loaded := false }

/-- The next `k` slots of the loaded block are free or long-name fragments (44_directory.md R260). -/
def State.Skips (s : State) (k : Nat) : Prop :=
  ∀ j < k, classify (slotOf s.blockbuf (s.dir.slot.toNat + j)) = .free
    ∨ classify (slotOf s.blockbuf (s.dir.slot.toNat + j)) = .longFrag

/-- The fragments among the next `k` slots of the loaded block, in slot order (44_directory.md R263, R274). -/
def State.heldOver (s : State) (k : Nat) : List Frag :=
  ((List.range k).map (fun j => slotOf s.blockbuf (s.dir.slot.toNat + j))).filterMap (fun t =>
    if classify t = .longFrag then some { ord := byteAt t 0, cu := fragUnits t } else none)

end Sys2Proof.Machine
end

