-- ==== Sys2Proof/Certificates/Slice0/Obligations.lean ====
section
/-! DEFINITION. The statements for the provers. -/

open Sys2Proof Sys2Proof.Machine

/-! ## Encodings -/

/-- Decoding the encoding of a well-formed instruction gives it back (30_encoding.md R100, R102, R110 to R112). -/
def Obligations.DecodeEncode : Prop :=
  ∀ i : Instr, i.wellFormed = true → decode (encode i) = .ok i

/-- Whatever bytes decode to an instruction are its encoding: all six bytes of a frame, and the OPCODE byte of a host op word,
whose other bytes are ignored (30_encoding.md R100, R110). -/
def Obligations.EncodeDecode : Prop :=
  ∀ (bs : List Byte) (i : Instr), decode bs = .ok i →
    (bs.length = 4 ∨ bs.length = 6) ∧ (bs.length = 6 → encode i = bs) ∧ (bs.length = 4 → (encode i).head? = bs.head?)

/-- Words written out from the encodings decode to their instructions, all eighteen (30_encoding.md R102, R112), and a reserved
op code (R106), a wrong checksum (R111) and an unlisted command to none. -/
def Obligations.DecodedWords : Prop :=
  decode [0x01, 0x00, 0x00, 0x00] = .ok .bringup
  ∧ decode [0x02, 0x00, 0x00, 0x00] = .ok .speedup
  ∧ decode [0x03, 0x00, 0x00, 0x00] = .ok .sendcmd
  ∧ decode [0x04, 0x00, 0x00, 0x00] = .ok .readresp
  ∧ decode [0x05, 0x00, 0x00, 0x00] = .ok .readblk
  ∧ decode [0x06, 0x01, 0x00, 0x00] = .ok .readbytes
  ∧ decode [0x07, 0x00, 0x00, 0x00] = .ok .partition
  ∧ decode [0x08, 0x00, 0x00, 0x00] = .ok .mount
  ∧ decode [0x09, 0x00, 0x00, 0x00] = .ok .clus2lba
  ∧ decode [0x0A, 0x00, 0x00, 0x00] = .ok .decslot
  ∧ decode [0x0B, 0x00, 0x00, 0x00] = .ok .dirstart
  ∧ decode [0x0C, 0x00, 0x00, 0x00] = .ok .dirnext
  ∧ decode [0x40, 0x00, 0x00, 0x00, 0x00, 0x95] = .ok .cmd0
  ∧ decode [0x48, 0x00, 0x00, 0x01, 0xAA, 0x87] = .ok .cmd8
  ∧ decode [0x51, 0x57, 0x9B, 0xDE, 0x00, 0xFF] = .ok (.cmd17 0x579BDE00)
  ∧ decode [0x77, 0x00, 0x00, 0x00, 0x00, 0xFF] = .ok .cmd55
  ∧ decode [0x69, 0x40, 0x00, 0x00, 0x00, 0xFF] = .ok .acmd41
  ∧ decode [0x7A, 0x00, 0x00, 0x00, 0x00, 0xFF] = .ok .cmd58
  ∧ decode [0x00, 0x00, 0x00, 0x00] = .error (.reservedOpcode 0x00)
  ∧ decode [0x0D, 0x00, 0x00, 0x00] = .error (.reservedOpcode 0x0D)
  ∧ decode [0x40, 0x00, 0x00, 0x00, 0x00, 0xFF] = .error (.badChecksum 0xFF)
  ∧ decode [0x49, 0x00, 0x00, 0x00, 0x00, 0xFF] = .error (.unlistedCommand 9 0)

/-- OPCODE is bits 7:0 of the word written to OP; bits 31:8 select nothing and change nothing (30_encoding.md R100). -/
def Obligations.OpcodeAlone : Prop :=
  (∀ (v : Word) (i : Instr), decode (bytesOfWord v) = .ok i ↔ opcodeOf i = some (v.extractLsb' 0 8))
  ∧ ∀ (v : Word) (s : State), writeOp v s = writeOp (v &&& 0xFF) s

/-- The six bytes of a frame: `0x40 | index`, the argument most significant byte first, the checksum byte, which depends on the
index alone (30_encoding.md R110, R111, 40_command_engine.md R142). -/
def Obligations.FrameLayout : Prop :=
  (∀ (idx : BitVec 6) (arg : Word), frameBytes (frameWord idx arg) =
    [0x40 ||| idx.setWidth 8, (arg >>> 24).setWidth 8, (arg >>> 16).setWidth 8, (arg >>> 8).setWidth 8, arg.setWidth 8,
      checksum idx])
  ∧ checksum 0 = 0x95 ∧ checksum 8 = 0x87 ∧ ∀ idx : BitVec 6, idx ≠ 0 → idx ≠ 8 → checksum idx = 0xFF

/-! ## The step -/

/-- A step whose next input is a host write of OP runs the instruction the word decodes to, on the state without that input; a
reserved op code is issued (30_encoding.md R100, R106). The write lands when the engine has no internal step to make, or at once
with pace 0 (log 4). -/
def Obligations.StepRunsHostOp : Prop :=
  ∀ (s : State) (p : Option Nat) (v : Word) (es : List Event),
    s.inReset = false → s.params.base % 4 = 0 → (s.internal = false ∨ p = some 0) →
    s.events = .host p { bits := 32, addr := s.params.base, dir := .wr v } :: es →
    (∀ i : Instr, decode (bytesOfWord v) = .ok i → step s = exec i { s with events := es })
    ∧ ((∀ i : Instr, decode (bytesOfWord v) ≠ .ok i) → step s = launch (v.extractLsb' 0 8) { s with events := es })

/-- A step of an engine that stands before a command frame runs the wire command the frame decodes to (10_state.md R47, log 18).
SENDCMD's frame is the host's and is sent by the op itself (log 27). -/
def Obligations.StepRunsWireCommand : Prop :=
  ∀ (s : State) (op : Byte) (x : Exch) (i : Instr),
    s.inReset = false → s.eng = .running op (.ready x) → x ≠ .send → landsNow s.events = false →
    decode (frameBytes s.scratch.frame) = .ok i → step s = exec i s

/-- With no input left, an engine that waits for the transport has no step (60_exceptions.md R311), and an idle block stays as it
is (70_reset_and_hazards.md R343). -/
def Obligations.StepWithoutInput : Prop :=
  ∀ s : State, s.inReset = false → s.events = [] →
    (s.waiting = true → step s = .fault .transportSilent) ∧ (s.eng = .idle → step s = .next s)

/-! ## The invariant -/

/-- The state after reset satisfies the invariant (10_state.md R53, R54). -/
def Obligations.InvAtReset : Prop :=
  State.reset.Inv

/-- Every step keeps the invariant: the session (10_state.md R53), the ranges of every register (R42, R45), the legal place of
the engine (R47, R49), and the canonical form of DMEM. That a block held in hard reset has its reset values already is a clause
of it too, and the model's choice (log 20): the spec gives those values at the release. -/
def Obligations.StepKeepsInv : Prop :=
  ∀ s t : State, s.Inv → step s = .next t → t.Inv

/-- From a state of the invariant no step is refused but for a malformed or foreign host access (20_memory.md R70, R74), and the
only fault is a transport that never answers (60_exceptions.md R311). That an access outside the block is refused is the model's
choice (log 21). -/
def Obligations.StepStopsOnlyOutside : Prop :=
  ∀ s : State, s.Inv →
    (∀ f, step s = .fault f → s.waiting = true ∧ s.events = [])
    ∧ ∀ r, step s = .refused r → ∃ p a es, s.events = .host p a :: es
        ∧ (a.shapeOk = false ∧ r = .hostAccessShape
          ∨ a.shapeOk = true ∧ a.inSpace s.params = false ∧ r = .outsideBlock)

/-! ## Reset -/

/-- What both resets leave (10_state.md R54): the values of the table for every build, and for the machine's reset state the
defaults of 00_scope.md R7. DMEM, the transport's requests and the inputs to come are outside the block
(70_reset_and_hazards.md R342). -/
def Obligations.ResetValues : Prop :=
  (∀ s : State,
    s.blockReset.statusWord = 0 ∧ s.blockReset.irqEn = false ∧ s.blockReset.donePend = false ∧ s.blockReset.irq = false
    ∧ s.blockReset.arg0 = 0 ∧ s.blockReset.arg1 = 0 ∧ s.blockReset.arg2 = 0
    ∧ s.blockReset.res0 = 0 ∧ s.blockReset.res1 = 0 ∧ s.blockReset.res2 = 0 ∧ s.blockReset.res3 = 0
    ∧ s.blockReset.blockSize = 0 ∧ s.blockReset.errByte = 0 ∧ s.blockReset.errLba = 0
    ∧ s.blockReset.cfg = {
        respBudget := s.params.respBudget, resetRetries := s.params.resetRetries
        initRetries := s.params.initRetries, warmupBytes := s.params.warmupBytes }
    ∧ s.blockReset.part = { lba := 0, ptype := 0, count := 0 }
    ∧ s.blockReset.vol = {
        bps := 0, spc := 0, rsvd := 0, nfats := 0, spf := 0, rootClus := 0, bootSig := 0, fatLba := 0, dataLba := 0 }
    ∧ s.blockReset.dir = { lba := 0, left := 0, slot := 0, frags := [], loaded := false } ∧ s.blockReset.nameLen = 0
    ∧ s.blockReset.eng = .idle ∧ s.blockReset.a0 = 0 ∧ s.blockReset.a1 = 0 ∧ s.blockReset.a2 = 0
    ∧ s.blockReset.dmem = s.dmem ∧ s.blockReset.bus = s.bus ∧ s.blockReset.events = s.events)
  ∧ State.reset = State.reset.blockReset
  ∧ State.reset.cfg = { respBudget := 5, resetRetries := 3, initRetries := 10, warmupBytes := 10 }

/-- Soft reset, a host write of CTRL with bit 0 = 1 (70_reset_and_hazards.md R341): with BUSY = 0 it takes effect at once; with
BUSY = 1 it is pending, BUSY stays 1, and at the running op's next step (the transport's answer, which is ignored, or an internal
step) it takes effect with no request, DMEM write or completion. -/
def Obligations.SoftReset : Prop :=
  (∀ (s : State) (p : Option Nat) (v : Word) (es : List Event),
      s.inReset = false → s.params.base % 4 = 0 → (s.internal = false ∨ p = some 0) → v.getLsbD 0 = true →
      s.events = .host p { bits := 32, addr := s.params.base + 0x008, dir := .wr v } :: es →
      (s.busy = false → step s = .next { s.blockReset with events := es })
      ∧ (s.busy = true → ∃ t, step s = .next t ∧ t = { s with irqEn := v.getLsbD 1, softReset := true, events := es }
          ∧ t.busy = true))
  ∧ (∀ (s : State) (r : Answer) (es : List Event), s.softReset = true → s.inReset = false → s.waiting = true →
      s.events = .answer r :: es → step s = .next { s.blockReset with events := es })
  ∧ ∀ s : State, s.Inv → s.softReset = true → s.internal = true → landsNow s.events = false →
      step s = .next s.blockReset

/-- Hard reset (70_reset_and_hazards.md R340): at its assertion the running op is abandoned and the block has its reset values;
while it is asserted host accesses and late answers are ignored; its release leaves the reset values. -/
def Obligations.HardReset : Prop :=
  (∀ (s : State) (p : Option Nat) (es : List Event), s.inReset = false → (s.internal = false ∨ p = some 0) →
      s.events = .hard p true :: es → step s = .next { s.blockReset with inReset := true, events := es })
  ∧ (∀ (s : State) (e : Event) (es : List Event), s.inReset = true → s.events = e :: es →
      (∀ p, e ≠ .hard p false) → step s = .next { s with events := es })
  ∧ ∀ (s : State) (p : Option Nat) (es : List Event), s.inReset = true → s.events = .hard p false :: es →
      step s = .next { s.blockReset with events := es }

/-! ## The host's registers -/

/-- The fields of STATUS by their bits (10_state.md R27), the codes of STATE (R31) and of ERRCODE (60_exceptions.md R300): a read
gives them, a write changes nothing, and all are 0 after reset. -/
def Obligations.StatusFields : Prop :=
  (∀ s : State,
    s.readReg 0x004 = (s.statusWord, s) ∧ (∀ v, s.writeReg 0x004 v = s)
    ∧ s.statusWord.getLsbD 0 = s.busy ∧ s.statusWord.getLsbD 1 = s.status.done ∧ s.statusWord.getLsbD 2 = s.status.err
    ∧ s.statusWord.getLsbD 3 = s.status.opovr ∧ s.statusWord.extractLsb' 4 4 = 0
    ∧ s.statusWord.extractLsb' 8 4 = s.status.stage.code
    ∧ s.statusWord.getLsbD 12 = s.status.v2 ∧ s.statusWord.getLsbD 13 = s.status.hc
    ∧ s.statusWord.getLsbD 14 = s.status.voltWarn ∧ s.statusWord.getLsbD 15 = s.status.spedUp
    ∧ s.statusWord.getLsbD 16 = s.status.mounted ∧ s.statusWord.getLsbD 17 = s.status.bufvalid
    ∧ s.statusWord.getLsbD 18 = (s.params.hasDirDecoder && s.status.dirActive)
    ∧ s.statusWord.getLsbD 19 = s.status.errctx ∧ s.statusWord.extractLsb' 20 4 = 0
    ∧ s.statusWord.extractLsb' 24 8 = s.status.errcode.code)
  ∧ State.reset.statusWord = 0
  ∧ [Stage.unpowered, .warmedUp, .reset, .versionChecked, .voltageNegotiated, .ready, .failed].map Stage.code
    = [0, 1, 2, 3, 4, 5, 6]
  ∧ [ErrCode.none, .transportError, .noResponse, .resetTimeout, .initTimeout, .voltageRejected, .speedupFailed, .readRejected,
      .badStartToken, .badSignature, .invalidCluster, .illegalOp, .badArgument, .blockSizeUnsupported, .nameTooLong].map
      ErrCode.code = [0, 1, 2, 3, 4, 5, 6, 7, 8, 9, 10, 11, 12, 13, 14]

/-- A host read of any offset (10_state.md R25): it returns the register's value and changes nothing of the block
(20_memory.md R76). The value is free where the spec leaves it unspecified: RES0 to RES3 while BUSY = 1 (R38), and the bytes of
the windows that hold no payload and no name (R46). Window bytes are packed little-endian (20_memory.md R74). -/
def Obligations.HostReads : Prop :=
  ∀ (s : State) (p : Option Nat) (off : Nat) (es : List Event),
    s.inReset = false → s.params.base % 4 = 0 → (s.internal = false ∨ p = some 0) → off % 4 = 0 → off < 2048 →
    s.events = .host p { bits := 32, addr := s.params.base + off, dir := .rd } :: es →
    ∃ (v : Word) (n : Nat), step s = .next { s with events := es, reads := s.reads ++ [{ off := off, val := v }], draws := n }
    ∧ (off = 0x004 → v = s.statusWord)
    ∧ (off = 0x008 → v.toNat = if s.irqEn then 2 else 0) ∧ (off = 0x00C → v.toNat = if s.donePend then 1 else 0)
    ∧ (off = 0x010 → v = s.arg0) ∧ (off = 0x014 → v = s.arg1) ∧ (off = 0x018 → v = s.arg2)
    ∧ (s.busy = false → (off = 0x020 → v = s.res0) ∧ (off = 0x024 → v = s.res1) ∧ (off = 0x028 → v = s.res2)
        ∧ (off = 0x02C → v = s.res3))
    ∧ (off = 0x030 → v = s.blockSize) ∧ (off = 0x034 → v.toNat = s.errByte.toNat) ∧ (off = 0x038 → v = s.errLba)
    ∧ (off = 0x040 → v.toNat = s.cfg.respBudget.toNat) ∧ (off = 0x044 → v.toNat = s.cfg.resetRetries.toNat)
    ∧ (off = 0x048 → v.toNat = s.cfg.initRetries.toNat) ∧ (off = 0x04C → v.toNat = s.cfg.warmupBytes.toNat)
    ∧ (off = 0x050 → v = s.part.lba) ∧ (off = 0x054 → v.toNat = s.part.ptype.toNat) ∧ (off = 0x058 → v = s.part.count)
    ∧ (off = 0x05C → v.toNat = s.vol.bps.toNat) ∧ (off = 0x060 → v.toNat = s.vol.spc.toNat)
    ∧ (off = 0x064 → v.toNat = s.vol.rsvd.toNat) ∧ (off = 0x068 → v.toNat = s.vol.nfats.toNat)
    ∧ (off = 0x06C → v = s.vol.spf) ∧ (off = 0x070 → v = s.vol.rootClus)
    ∧ (off = 0x074 → v.toNat = s.vol.bootSig.toNat) ∧ (off = 0x078 → v = s.vol.fatLba) ∧ (off = 0x07C → v = s.vol.dataLba)
    ∧ (s.params.hasDirDecoder = true →
        (off = 0x080 → v = s.dir.lba) ∧ (off = 0x084 → v = s.dir.left) ∧ (off = 0x088 → v.toNat = s.dir.slot.toNat)
        ∧ (off = 0x08C → v.toNat = s.nameLen.toNat) ∧ (off = 0x090 → v = BitVec.ofNat 32 s.dir.frags.length))
    ∧ (s.params.hasDirDecoder = false → 0x080 ≤ off → off < 0x094 → v = 0)
    ∧ (∀ j < 4, 0x200 ≤ off → off < 0x400 → s.busy = false → s.status.bufvalid = true → off - 0x200 + j < s.bs →
        v.extractLsb' (8 * j) 8 = byteAt s.blockbuf (off - 0x200 + j))
    ∧ (∀ j < 4, 0x400 ≤ off → s.busy = false → s.params.hasDirDecoder = true → off - 0x400 + j < s.nameLen.toNat →
        v.extractLsb' (8 * j) 8 = byteAt s.namebuf (off - 0x400 + j))
    ∧ (0x400 ≤ off → s.params.hasDirDecoder = false → v = 0)
    ∧ (off = 0x000 ∨ off = 0x01C ∨ off = 0x03C ∨ 0x094 ≤ off ∧ off < 0x200 → v = 0)

/-- A host write of any offset but OP's (20_memory.md R76): ARG0 to ARG2 at any time (10_state.md R37), the configuration
registers with `max(v[7:0], lo)` when BUSY = 0 only (R42), IRQ_EN (R35), DONE_PEND cleared by a 1 (R36); every other offset
ignores it. A write of CTRL with bit 0 = 1 is `SoftReset`'s. -/
def Obligations.HostWrites : Prop :=
  ∀ (s : State) (p : Option Nat) (off : Nat) (v : Word) (es : List Event),
    s.inReset = false → s.params.base % 4 = 0 → (s.internal = false ∨ p = some 0) → off % 4 = 0 → off < 2048 → off ≠ 0 →
    s.events = .host p { bits := 32, addr := s.params.base + off, dir := .wr v } :: es →
    (off = 0x008 → v.getLsbD 0 = false → step s = .next { s with events := es, irqEn := v.getLsbD 1 })
    ∧ (off = 0x00C → step s = .next { s with events := es, donePend := s.donePend && !v.getLsbD 0 })
    ∧ (off = 0x010 → step s = .next { s with events := es, arg0 := v })
    ∧ (off = 0x014 → step s = .next { s with events := es, arg1 := v })
    ∧ (off = 0x018 → step s = .next { s with events := es, arg2 := v })
    ∧ (s.busy = false →
        (off = 0x040 → ∃ b : Byte, b.toNat = max (v.toNat % 256) 1
          ∧ step s = .next { s with events := es, cfg := { s.cfg with respBudget := b } })
        ∧ (off = 0x044 → ∃ b : Byte, b.toNat = max (v.toNat % 256) 1
          ∧ step s = .next { s with events := es, cfg := { s.cfg with resetRetries := b } })
        ∧ (off = 0x048 → ∃ b : Byte, b.toNat = max (v.toNat % 256) 1
          ∧ step s = .next { s with events := es, cfg := { s.cfg with initRetries := b } })
        ∧ (off = 0x04C → ∃ b : Byte, b.toNat = max (v.toNat % 256) 10
          ∧ step s = .next { s with events := es, cfg := { s.cfg with warmupBytes := b } }))
    ∧ (s.busy = true → 0x040 ≤ off → off < 0x050 → step s = .next { s with events := es })
    ∧ (off = 0x004 ∨ off = 0x01C ∨ 0x020 ≤ off ∧ off < 0x040 ∨ 0x050 ≤ off → step s = .next { s with events := es })

/-- The interrupt line `irq = INT_STATUS.DONE_PEND and CTRL.IRQ_EN` (60_exceptions.md R321): op completion raises it when it is
enabled, setting IRQ_EN with DONE_PEND = 1 raises it, writing INT_STATUS with bit 0 = 1 lowers it, and reset lowers it. -/
def Obligations.InterruptLine : Prop :=
  (∀ s : State, s.irq = (s.donePend && s.irqEn))
  ∧ (∀ (s : State) (e : ErrCode), (s.complete e).irq = s.irqEn)
  ∧ (∀ (s : State) (v : Word), v.getLsbD 0 = false → (s.writeReg 0x008 v).irq = (s.donePend && v.getLsbD 1))
  ∧ (∀ (s : State) (v : Word), v.getLsbD 0 = true → (s.writeReg 0x00C v).irq = false)
  ∧ ∀ s : State, s.blockReset.irq = false

/-- A write of any word to OP while BUSY = 1 only sets OPOVR, which the next op issue clears (10_state.md R30, R50). -/
def Obligations.OpWhileBusy : Prop :=
  (∀ (s : State) (v : Word), s.busy = true → s.inReset = false →
    writeOp v s = .next { s with status := { s.status with opovr := true } })
  ∧ ∀ (s : State) (op : Byte), (s.issue op).status.opovr = false

/-- A host access that is not 32 bits wide at a multiple of 4 is refused (20_memory.md R74), and so is one outside the 2 KiB at
BASE: R70 gives the space and does not say what such an access does, and the refusal is the model's choice (log 21). -/
def Obligations.HostAccessRefused : Prop :=
  ∀ (s : State) (p : Option Nat) (a : HostAccess) (es : List Event),
    s.inReset = false → (s.internal = false ∨ p = some 0) → s.events = .host p a :: es →
    (a.bits ≠ 32 ∨ a.addr % 4 ≠ 0 → step s = .refused .hostAccessShape)
    ∧ (a.bits = 32 → a.addr % 4 = 0 → (a.addr < s.params.base ∨ s.params.base + 2048 ≤ a.addr) →
        step s = .refused .outsideBlock)

/-- An op polled while it runs goes on as without the polls (20_memory.md R76, R80). A run of an op that comes to a host access
while it waits for the transport stops before it, and the next answer takes it on exactly as if the access had not been there. A
host read changes nothing but the record of reads and the draw of free values, and no step depends on those two. -/
def Obligations.ReadsLeaveRun : Prop :=
  (∀ (i : Instr) (s : State) (pre : List Answer) (a : HostAccess) (rest : List Event), (opcodeOf i).isSome = true →
    s.CanIssue → s.events = pre.map Event.answer ++ .host none a :: rest →
    ∃ t, exec i s = .next t ∧ (t.waiting = true → t.events = .host none a :: rest
      ∧ ∀ (r : Answer) (es : List Event),
        step { t with events := .answer r :: es } = exec i { s with events := pre.map Event.answer ++ .answer r :: es }))
  ∧ (∀ (s : State) (p : Option Nat) (off : Nat) (es : List Event),
    s.inReset = false → s.params.base % 4 = 0 → (s.internal = false ∨ p = some 0) → off % 4 = 0 → off < 2048 →
    s.events = .host p { bits := 32, addr := s.params.base + off, dir := .rd } :: es →
    ∃ t, step s = .next t ∧ t.apartFromReads = State.apartFromReads { s with events := es })
  ∧ ∀ s t : State, s.apartFromReads = t.apartFromReads → SameApartFromReads (step s) (step t)

/-! ## Refused ops -/

/-- An op outside its legal state (30_encoding.md R105) or a reserved op code (R106, 00_scope.md R8) raises ILLEGAL_OP before any
other check, writes nothing but the completion status and makes no request (60_exceptions.md R301). -/
def Obligations.IllegalOps : Prop :=
  ∀ s : State, s.CanIssue → Prompt s.events →
    (s.status.stage ≠ .unpowered → exec .bringup s = .next (s.after .illegalOp))
    ∧ (s.status.stage ≠ .ready ∨ s.status.spedUp = true → exec .speedup s = .next (s.after .illegalOp))
    ∧ (s.status.stage ≠ .ready →
        exec .readblk s = .next (s.after .illegalOp) ∧ exec .readbytes s = .next (s.after .illegalOp)
        ∧ exec .partition s = .next (s.after .illegalOp) ∧ exec .mount s = .next (s.after .illegalOp)
        ∧ exec .dirstart s = .next (s.after .illegalOp))
    ∧ (s.status.mounted = false → exec .clus2lba s = .next (s.after .illegalOp))
    ∧ (s.status.bufvalid = false → exec .decslot s = .next (s.after .illegalOp))
    ∧ (s.status.dirActive = true → s.status.stage ≠ .ready → exec .dirnext s = .next (s.after .illegalOp))
    ∧ (s.params.hasDirDecoder = false →
        exec .decslot s = .next (s.after .illegalOp) ∧ exec .dirstart s = .next (s.after .illegalOp)
        ∧ exec .dirnext s = .next (s.after .illegalOp))
    ∧ ∀ v : Word, (v.toNat % 256 = 0 ∨ 0x0C < v.toNat % 256) → writeOp v s = .next (s.after .illegalOp)

/-- The argument checks of 30_encoding.md R107, after the legality check and before any request or effect
(60_exceptions.md R302), and then the block size check of PARTITION and MOUNT (R303, 43_fat32.md R230): nothing but the
completion status is written. -/
def Obligations.ArgumentChecks : Prop :=
  ∀ s : State, s.CanIssue → Prompt s.events →
    (63 < s.arg0.toNat → exec .sendcmd s = .next (s.after .badArgument))
    ∧ (s.arg0 = 0 ∨ 5 < s.arg0.toNat ∨ 255 < s.arg1.toNat → exec .readresp s = .next (s.after .badArgument))
    ∧ (s.status.stage = .ready →
        (2 ^ 32 < s.arg0.toNat + s.arg1.toNat ∨ 2 ^ 32 < s.arg2.toNat + s.arg1.toNat →
          exec .readbytes s = .next (s.after .badArgument))
        ∧ (s.arg0 = 0 ∨ 4 < s.arg0.toNat →
          exec .partition s = .next (s.after .badArgument) ∧ exec .mount s = .next (s.after .badArgument))
        ∧ (1 ≤ s.arg0.toNat → s.arg0.toNat ≤ 4 → s.blockSize ≠ 512 →
          exec .partition s = .next (s.after .blockSizeUnsupported) ∧ exec .mount s = .next (s.after .blockSizeUnsupported)))
    ∧ (s.params.hasDirDecoder = true → s.status.bufvalid = true → s.blockSize.toNat / 32 ≤ s.arg0.toNat →
        exec .decslot s = .next (s.after .badArgument))
    ∧ (s.status.mounted = true → s.arg0.toNat < 2 → exec .clus2lba s = .next (s.after .invalidCluster))

/-! ## The command engine -/

/-- SENDCMD (40_command_engine.md R150): the six bytes of the frame are sent, whatever the card answers; nothing but the
completion status is written. -/
def Obligations.SendcmdCompletes : Prop :=
  ∀ (s : State) (g : List Byte) (es : List Event), s.CanIssue → s.arg0.toNat ≤ 63 → g.length = 6 → s.events = rx g ++ es →
    ∃ sc, exec .sendcmd s = .next { s.after .none with
      scratch := sc
      bus := s.bus ++ tx (frameBytes (frameWord (s.arg0.extractLsb' 0 6) s.arg1))
      events := es }

/-- SENDCMD whose frame byte `j` fails (40_command_engine.md R140, R141): `j + 1` bytes are sent, then TRANSPORT_ERROR. -/
def Obligations.SendcmdStops : Prop :=
  ∀ (s : State) (g : List Byte) (es : List Event), s.CanIssue → s.arg0.toNat ≤ 63 → g.length ≤ 5 →
    s.events = rx g ++ rxErr ++ es →
    ∃ sc, exec .sendcmd s = .next { s.after .transportError with
      scratch := sc
      bus := s.bus ++ tx ((frameBytes (frameWord (s.arg0.extractLsb' 0 6) s.arg1)).take (g.length + 1))
      events := es }

/-- READRESP (40_command_engine.md R143, R151): filler bytes within the budget are dropped, the first other byte and the
`count - 1` bytes after it, 0xFF included, are returned in RES0 and RES1, the polls in RES2. -/
def Obligations.ReadrespCompletes : Prop :=
  ∀ (s : State) (p : Nat) (b : Byte) (r : List Byte) (es : List Event), s.CanIssue →
    1 ≤ s.arg0.toNat → s.arg0.toNat ≤ 5 → s.arg1.toNat ≤ 255 →
    p < (if s.arg1 = 0 then s.cfg.respBudget.toNat else s.arg1.toNat) → b ≠ 0xFF → r.length + 1 = s.arg0.toNat →
    s.events = rx (List.replicate p 0xFF) ++ rx (b :: r) ++ es →
    ∃ sc, exec .readresp s = .next { s.after .none with
      res0 := wordOfBytes b (r.getD 0 0) (r.getD 1 0) (r.getD 2 0)
      res1 := (r.getD 3 0).setWidth 32
      res2 := BitVec.ofNat 32 (p + 1)
      scratch := sc
      bus := s.bus ++ tx (List.replicate (p + s.arg0.toNat) 0xFF)
      events := es }

/-- READRESP over filler bytes alone (40_command_engine.md R144, R151): `budget` polls, then NO_RESPONSE, and no RES register is
written. -/
def Obligations.ReadrespNoResponse : Prop :=
  ∀ (s : State) (n : Nat) (es : List Event), s.CanIssue →
    1 ≤ s.arg0.toNat → s.arg0.toNat ≤ 5 → s.arg1.toNat ≤ 255 →
    n = (if s.arg1 = 0 then s.cfg.respBudget.toNat else s.arg1.toNat) → 1 ≤ n →
    s.events = rx (List.replicate n 0xFF) ++ es →
    ∃ sc, exec .readresp s = .next { s.after .noResponse with
      scratch := sc
      bus := s.bus ++ tx (List.replicate n 0xFF)
      events := es }

/-- A failed byte exchange ends the running op at once with TRANSPORT_ERROR and no further request (40_command_engine.md R140):
alone for SENDCMD and READRESP; with STATE = Failed inside BRINGUP (41_bringup.md R181); with the error context inside a block
read (42_block_io.md R204), where READBYTES also counts its bytes (R206) and DIRNEXT ends its scan (44_directory.md R274). -/
def Obligations.TransportErrorEnds : Prop :=
  ∀ (s : State) (op : Byte) (es : List Event), s.inReset = false → s.softReset = false → s.events = rxErr ++ es →
    (∀ x : Exch, (x = .send ∨ x = .resp) →
        (s.eng = .running op (.frame x) ∨ s.eng = .running op (.poll x) ∨ s.eng = .running op (.rest x)) →
        step s = .next { s.complete .transportError with events := es })
    ∧ (∀ x : Exch, (x = .reset ∨ x = .iface ∨ x = .marker ∨ x = .activate ∨ x = .ocr) →
        (s.eng = .running op (.frame x) ∨ s.eng = .running op (.poll x) ∨ s.eng = .running op (.rest x)) →
        step s = .next { s with
          status := { s.status with stage := .failed, done := true, err := true, errcode := .transportError }
          donePend := true
          eng := .idle
          events := es })
    ∧ ∀ u : BlockUse,
        (s.eng = .running op (.frame (.block u)) ∨ s.eng = .running op (.poll (.block u))
          ∨ s.eng = .running op (.rest (.block u)) ∨ s.eng = .running op (.data u)) →
        step s = .next { s with
          errLba := s.scratch.lba
          res0 := if u = .readbytes then BitVec.ofNat 32 s.scratch.written else s.res0
          status := { s.status with
            done := true, err := true, errcode := .transportError, errctx := true, bufvalid := false
            dirActive := if u = .dirnext then false else s.status.dirActive }
          dir := if u = .dirnext then s.dir.dropped else s.dir
          donePend := true
          eng := .idle
          events := es }

/-! ## Bring-up -/

/-- BRINGUP of a card that passes the interface check (41_bringup.md R171 to R176, R178, R179): warm-up, CMD0, CMD8, CMD55,
ACMD41, CMD58, each with any number of filler bytes within the budget; Ready with V2 = 1, HC and the block size by OCR bit 30, which
is bit 6 of response byte 1 (40_command_engine.md R146, R148). Idle is bit 0 of the first response byte (R145). -/
def Obligations.BringupHighCapacity : Prop :=
  ∀ (s : State) (w : Answer) (r0 r8 r55 r41 r58 : Reply) (es : List Event), s.CanIssue → s.status.stage = .unpowered →
    r0.Fits s.cfg.respBudget.toNat 1 → (r0.byte 0).getLsbD 0 = true →
    r8.Fits s.cfg.respBudget.toNat 5 → (r8.byte 0).getLsbD 0 = true →
    (r8.byte 3).extractLsb' 0 4 = s.params.cmd8Vhs → r8.byte 4 = s.params.cmd8Pattern →
    r55.Fits s.cfg.respBudget.toNat 1 → (r55.byte 0).getLsbD 0 = true →
    r41.Fits s.cfg.respBudget.toNat 1 → (r41.byte 0).getLsbD 0 = false →
    r58.Fits s.cfg.respBudget.toNat 5 →
    s.events = .answer w :: (r0.inputs ++ r8.inputs ++ r55.inputs ++ r41.inputs ++ r58.inputs ++ es) →
    ∃ sc, exec .bringup s = .next { s.after .none with
      status := { (s.after .none).status with
        stage := .ready
        v2 := true
        hc := (r58.byte 1).getLsbD 6 }
      blockSize := if (r58.byte 1).getLsbD 6 then 512
        else BitVec.ofNat 32 s.params.stdBlockSize
      scratch := sc
      bus := s.bus ++ [.idle s.cfg.warmupBytes.toNat] ++ txExchange 0 0 r0.polled
        ++ txExchange 8 (0#20 ++ s.params.cmd8Vhs ++ s.params.cmd8Pattern : BitVec (20 + 4 + 8)) r8.polled
        ++ txExchange 55 0 r55.polled ++ txExchange 41 s.params.acmd41Arg r41.polled ++ txExchange 58 0 r58.polled
      events := es }

/-- BRINGUP of a card that fails the interface check (41_bringup.md R174, R177 to R179): CMD58 comes before the initialization,
VOLT_WARN is 1 if and only if OCR bits 23:15 are 0 (response byte 2 and bit 7 of byte 3; 40_command_engine.md R146, R147), and the
card is Ready with V2 = 0, HC = 0 and the standard block size. -/
def Obligations.BringupLegacy : Prop :=
  ∀ (s : State) (w : Answer) (r0 r8 r58 r55 r41 : Reply) (es : List Event), s.CanIssue → s.status.stage = .unpowered →
    r0.Fits s.cfg.respBudget.toNat 1 → (r0.byte 0).getLsbD 0 = true →
    r8.Fits s.cfg.respBudget.toNat 5 →
    ((r8.byte 0).getLsbD 0 = false ∨ (r8.byte 3).extractLsb' 0 4 ≠ s.params.cmd8Vhs ∨ r8.byte 4 ≠ s.params.cmd8Pattern) →
    r58.Fits s.cfg.respBudget.toNat 5 → (r58.byte 0).getLsbD 0 = true →
    r55.Fits s.cfg.respBudget.toNat 1 → (r55.byte 0).getLsbD 0 = true →
    r41.Fits s.cfg.respBudget.toNat 1 → (r41.byte 0).getLsbD 0 = false →
    s.events = .answer w :: (r0.inputs ++ r8.inputs ++ r58.inputs ++ r55.inputs ++ r41.inputs ++ es) →
    ∃ sc, exec .bringup s = .next { s.after .none with
      status := { (s.after .none).status with
        stage := .ready
        v2 := false
        hc := false
        voltWarn := r58.byte 2 == 0 && !(r58.byte 3).getLsbD 7 }
      blockSize := BitVec.ofNat 32 s.params.stdBlockSize
      scratch := sc
      bus := s.bus ++ [.idle s.cfg.warmupBytes.toNat] ++ txExchange 0 0 r0.polled
        ++ txExchange 8 (0#20 ++ s.params.cmd8Vhs ++ s.params.cmd8Pattern : BitVec (20 + 4 + 8)) r8.polled
        ++ txExchange 58 0 r58.polled ++ txExchange 55 0 r55.polled ++ txExchange 41 s.params.acmd41Arg r41.polled
      events := es }

/-- BRINGUP of a card that answers only filler (41_bringup.md R171, R173, R180, R181): RESET_TIMEOUT after
`CFG_RESET_RETRIES × (6 + CFG_RESP_BUDGET)` byte exchanges, each attempt with CMD0 sent again and the full budget. -/
def Obligations.BringupResetTimeout : Prop :=
  ∀ (s : State) (w : Answer) (es : List Event), s.CanIssue → s.status.stage = .unpowered →
    1 ≤ s.cfg.resetRetries.toNat → 1 ≤ s.cfg.respBudget.toNat →
    s.events = .answer w
      :: (rx (List.replicate (s.cfg.resetRetries.toNat * (6 + s.cfg.respBudget.toNat)) 0xFF) ++ es) →
    ∃ sc, exec .bringup s = .next { s.after .resetTimeout with
      status := { (s.after .resetTimeout).status with stage := .failed }
      scratch := sc
      bus := s.bus ++ [.idle s.cfg.warmupBytes.toNat]
        ++ (List.replicate s.cfg.resetRetries.toNat (txExchange 0 0 s.cfg.respBudget.toNat)).flatten
      events := es }

/-- SPEEDUP (41_bringup.md R185): one `reconf` of the token ARG0; success sets SPED_UP, failure leaves Failed; outside Ready or a
second time it is ILLEGAL_OP with no request. -/
def Obligations.Speedup : Prop :=
  ∀ (s : State) (es : List Event), s.CanIssue →
    (s.status.stage = .ready → s.status.spedUp = false →
      (∀ b, s.events = .answer (.ok b) :: es → exec .speedup s = .next { s.after .none with
        status := { (s.after .none).status with spedUp := true }
        bus := s.bus ++ [.reconf s.arg0]
        events := es })
      ∧ (s.events = .answer .err :: es → exec .speedup s = .next { s.after .speedupFailed with
        status := { (s.after .speedupFailed).status with stage := .failed }
        bus := s.bus ++ [.reconf s.arg0]
        events := es }))
    ∧ (s.status.stage ≠ .ready ∨ s.status.spedUp = true → Prompt s.events →
        exec .speedup s = .next (s.after .illegalOp))

/-! ## Wire commands -/

/-- CMD0, an attempt of the reset loop (41_bringup.md R173, R180): an idle R1 is Reset and goes on to the interface check; any other
goes on to the next attempt, and after the last to RESET_TIMEOUT and Failed. -/
def Obligations.Cmd0 : Prop :=
  ∀ (s : State) (op : Byte) (r : Reply) (es : List Event), s.softReset = false → s.eng = .running op (.ready .reset) →
    r.Fits s.cfg.respBudget.toNat 1 → s.events = r.inputs ++ es →
    ((r.byte 0).getLsbD 0 = true → ∃ sc, exec .cmd0 s = .next { s with
        status := { s.status with stage := .reset }
        scratch := sc
        bus := s.bus ++ txExchange 0 0 r.polled
        eng := .running op (.ready .iface)
        events := es }
      ∧ sc.frame = frameWord 8 (0#20 ++ s.params.cmd8Vhs ++ s.params.cmd8Pattern : BitVec (20 + 4 + 8)))
    ∧ ((r.byte 0).getLsbD 0 = false → s.scratch.attempt.toNat < s.cfg.resetRetries.toNat → ∃ sc, exec .cmd0 s = .next { s with
        scratch := sc
        bus := s.bus ++ txExchange 0 0 r.polled
        eng := .running op (.ready .reset)
        events := es }
      ∧ sc.frame = frameWord 0 0 ∧ sc.attempt = s.scratch.attempt + 1)
    ∧ ((r.byte 0).getLsbD 0 = false → s.cfg.resetRetries.toNat ≤ s.scratch.attempt.toNat → ∃ sc, exec .cmd0 s = .next { s with
        status := { s.status with stage := .failed, done := true, err := true, errcode := .resetTimeout }
        donePend := true
        scratch := sc
        bus := s.bus ++ txExchange 0 0 r.polled
        eng := .idle
        events := es })

/-- CMD8, the interface check (41_bringup.md R174): V2 says whether the R7 is idle and echoes the voltage nibble and the pattern;
STATE is VersionChecked; CMD55 follows when V2 = 1, else CMD58. -/
def Obligations.Cmd8 : Prop :=
  ∀ (s : State) (op : Byte) (r : Reply) (es : List Event), s.softReset = false → s.eng = .running op (.ready .iface) →
    r.Fits s.cfg.respBudget.toNat 5 → s.events = r.inputs ++ es →
    ((r.byte 0).getLsbD 0 = true → (r.byte 3).extractLsb' 0 4 = s.params.cmd8Vhs → r.byte 4 = s.params.cmd8Pattern →
      ∃ sc, exec .cmd8 s = .next { s with
        status := { s.status with v2 := true, stage := .versionChecked }
        scratch := sc
        bus := s.bus ++ txExchange 8 0x1AA r.polled
        eng := .running op (.ready .marker)
        events := es }
      ∧ sc.frame = frameWord 55 0 ∧ sc.attempt = 1)
    ∧ (((r.byte 0).getLsbD 0 = false ∨ (r.byte 3).extractLsb' 0 4 ≠ s.params.cmd8Vhs ∨ r.byte 4 ≠ s.params.cmd8Pattern) →
      ∃ sc, exec .cmd8 s = .next { s with
        status := { s.status with v2 := false, stage := .versionChecked }
        scratch := sc
        bus := s.bus ++ txExchange 8 0x1AA r.polled
        eng := .running op (.ready .ocr)
        events := es }
      ∧ sc.frame = frameWord 58 0)

/-- CMD55, the marker of an initialization attempt (41_bringup.md R175): an idle R1 goes on to ACMD41; any other ends the attempt
without it: the next attempt, and after the last INIT_TIMEOUT and Failed. -/
def Obligations.Cmd55 : Prop :=
  ∀ (s : State) (op : Byte) (r : Reply) (es : List Event), s.softReset = false → s.eng = .running op (.ready .marker) →
    r.Fits s.cfg.respBudget.toNat 1 → s.events = r.inputs ++ es →
    ((r.byte 0).getLsbD 0 = true → ∃ sc, exec .cmd55 s = .next { s with
        scratch := sc
        bus := s.bus ++ txExchange 55 0 r.polled
        eng := .running op (.ready .activate)
        events := es }
      ∧ sc.frame = frameWord 41 s.params.acmd41Arg ∧ sc.attempt = s.scratch.attempt)
    ∧ ((r.byte 0).getLsbD 0 = false → s.scratch.attempt.toNat < s.cfg.initRetries.toNat → ∃ sc, exec .cmd55 s = .next { s with
        scratch := sc
        bus := s.bus ++ txExchange 55 0 r.polled
        eng := .running op (.ready .marker)
        events := es }
      ∧ sc.frame = frameWord 55 0 ∧ sc.attempt = s.scratch.attempt + 1)
    ∧ ((r.byte 0).getLsbD 0 = false → s.cfg.initRetries.toNat ≤ s.scratch.attempt.toNat → ∃ sc, exec .cmd55 s = .next { s with
        status := { s.status with stage := .failed, done := true, err := true, errcode := .initTimeout }
        donePend := true
        scratch := sc
        bus := s.bus ++ txExchange 55 0 r.polled
        eng := .idle
        events := es })

/-- ACMD41, the activation of an initialization attempt (41_bringup.md R175 to R177, R179): an R1 that is not idle is
VoltageNegotiated, which goes on to CMD58 when V2 = 1 and to Ready with the standard block size when V2 = 0; an idle R1 is a
failed attempt. -/
def Obligations.Acmd41 : Prop :=
  ∀ (s : State) (op : Byte) (r : Reply) (es : List Event), s.softReset = false → s.eng = .running op (.ready .activate) →
    r.Fits s.cfg.respBudget.toNat 1 → s.events = r.inputs ++ es →
    ((r.byte 0).getLsbD 0 = false → s.status.v2 = true → ∃ sc, exec .acmd41 s = .next { s with
        status := { s.status with stage := .voltageNegotiated }
        scratch := sc
        bus := s.bus ++ txExchange 41 0x40000000 r.polled
        eng := .running op (.ready .ocr)
        events := es }
      ∧ sc.frame = frameWord 58 0)
    ∧ ((r.byte 0).getLsbD 0 = false → s.status.v2 = false → ∃ sc, exec .acmd41 s = .next { s with
        status := { s.status with stage := .ready, hc := false, done := true, err := false, errcode := .none }
        blockSize := BitVec.ofNat 32 s.params.stdBlockSize
        donePend := true
        scratch := sc
        bus := s.bus ++ txExchange 41 0x40000000 r.polled
        eng := .idle
        events := es })
    ∧ ((r.byte 0).getLsbD 0 = true → s.scratch.attempt.toNat < s.cfg.initRetries.toNat → ∃ sc, exec .acmd41 s = .next { s with
        scratch := sc
        bus := s.bus ++ txExchange 41 0x40000000 r.polled
        eng := .running op (.ready .marker)
        events := es }
      ∧ sc.frame = frameWord 55 0 ∧ sc.attempt = s.scratch.attempt + 1)
    ∧ ((r.byte 0).getLsbD 0 = true → s.cfg.initRetries.toNat ≤ s.scratch.attempt.toNat → ∃ sc, exec .acmd41 s = .next { s with
        status := { s.status with stage := .failed, done := true, err := true, errcode := .initTimeout }
        donePend := true
        scratch := sc
        bus := s.bus ++ txExchange 41 0x40000000 r.polled
        eng := .idle
        events := es })

/-- CMD58 (41_bringup.md R176 to R179): with V2 = 1 OCR bit 30 (bit 6 of response byte 1) gives HC and the block size, and STATE is
Ready; with V2 = 0 an R1 that is not idle is VOLTAGE_REJECTED and Failed, and an idle one sets VOLT_WARN to whether OCR bits 23:15
(response byte 2 and bit 7 of byte 3) are all 0 and goes on to the initialization loop (40_command_engine.md R145 to R148). -/
def Obligations.Cmd58 : Prop :=
  ∀ (s : State) (op : Byte) (r : Reply) (es : List Event), s.softReset = false → s.eng = .running op (.ready .ocr) →
    r.Fits s.cfg.respBudget.toNat 5 → s.events = r.inputs ++ es →
    (s.status.v2 = true → ∃ sc, exec .cmd58 s = .next { s with
        status := { s.status with
          stage := .ready
          hc := (r.byte 1).getLsbD 6
          done := true, err := false, errcode := .none }
        blockSize := if (r.byte 1).getLsbD 6 then 512
          else BitVec.ofNat 32 s.params.stdBlockSize
        donePend := true
        scratch := sc
        bus := s.bus ++ txExchange 58 0 r.polled
        eng := .idle
        events := es })
    ∧ (s.status.v2 = false → (r.byte 0).getLsbD 0 = true → ∃ sc, exec .cmd58 s = .next { s with
        status := { s.status with
          voltWarn := r.byte 2 == 0 && !(r.byte 3).getLsbD 7 }
        scratch := sc
        bus := s.bus ++ txExchange 58 0 r.polled
        eng := .running op (.ready .marker)
        events := es }
      ∧ sc.frame = frameWord 55 0 ∧ sc.attempt = 1)
    ∧ (s.status.v2 = false → (r.byte 0).getLsbD 0 = false → ∃ sc, exec .cmd58 s = .next { s with
        status := { s.status with stage := .failed, done := true, err := true, errcode := .voltageRejected }
        donePend := true
        scratch := sc
        bus := s.bus ++ txExchange 58 0 r.polled
        eng := .idle
        events := es })

/-- The budget spent on filler bytes (40_command_engine.md R144, 41_bringup.md R180): for CMD0, and for CMD55 and ACMD41, a failed
attempt, which goes on to the next one, and after the last to RESET_TIMEOUT or INIT_TIMEOUT and Failed; NO_RESPONSE and Failed for
CMD8 and CMD58. -/
def Obligations.WireNoResponse : Prop :=
  ∀ (s : State) (op : Byte) (g : List Byte) (es : List Event), s.softReset = false → g.length = 6 →
    1 ≤ s.cfg.respBudget.toNat → s.events = rx g ++ rx (List.replicate s.cfg.respBudget.toNat 0xFF) ++ es →
    (s.eng = .running op (.ready .reset) → s.scratch.attempt.toNat < s.cfg.resetRetries.toNat → ∃ sc,
      exec .cmd0 s = .next { s with
        scratch := sc
        bus := s.bus ++ txExchange 0 0 s.cfg.respBudget.toNat
        eng := .running op (.ready .reset)
        events := es }
      ∧ sc.frame = frameWord 0 0 ∧ sc.attempt = s.scratch.attempt + 1)
    ∧ (s.eng = .running op (.ready .reset) → s.cfg.resetRetries.toNat ≤ s.scratch.attempt.toNat → ∃ sc,
      exec .cmd0 s = .next { s with
        status := { s.status with stage := .failed, done := true, err := true, errcode := .resetTimeout }
        donePend := true
        scratch := sc
        bus := s.bus ++ txExchange 0 0 s.cfg.respBudget.toNat
        eng := .idle
        events := es })
    ∧ (s.eng = .running op (.ready .marker) → s.scratch.attempt.toNat < s.cfg.initRetries.toNat → ∃ sc,
      exec .cmd55 s = .next { s with
        scratch := sc
        bus := s.bus ++ txExchange 55 0 s.cfg.respBudget.toNat
        eng := .running op (.ready .marker)
        events := es }
      ∧ sc.frame = frameWord 55 0 ∧ sc.attempt = s.scratch.attempt + 1)
    ∧ (s.eng = .running op (.ready .marker) → s.cfg.initRetries.toNat ≤ s.scratch.attempt.toNat → ∃ sc,
      exec .cmd55 s = .next { s with
        status := { s.status with stage := .failed, done := true, err := true, errcode := .initTimeout }
        donePend := true
        scratch := sc
        bus := s.bus ++ txExchange 55 0 s.cfg.respBudget.toNat
        eng := .idle
        events := es })
    ∧ (s.eng = .running op (.ready .activate) → s.scratch.attempt.toNat < s.cfg.initRetries.toNat → ∃ sc,
      exec .acmd41 s = .next { s with
        scratch := sc
        bus := s.bus ++ txExchange 41 0x40000000 s.cfg.respBudget.toNat
        eng := .running op (.ready .marker)
        events := es }
      ∧ sc.frame = frameWord 55 0 ∧ sc.attempt = s.scratch.attempt + 1)
    ∧ (s.eng = .running op (.ready .activate) → s.cfg.initRetries.toNat ≤ s.scratch.attempt.toNat → ∃ sc,
      exec .acmd41 s = .next { s with
        status := { s.status with stage := .failed, done := true, err := true, errcode := .initTimeout }
        donePend := true
        scratch := sc
        bus := s.bus ++ txExchange 41 0x40000000 s.cfg.respBudget.toNat
        eng := .idle
        events := es })
    ∧ (s.eng = .running op (.ready .iface) → ∃ sc,
      exec .cmd8 s = .next { s with
        status := { s.status with stage := .failed, done := true, err := true, errcode := .noResponse }
        donePend := true
        scratch := sc
        bus := s.bus ++ txExchange 8 0x1AA s.cfg.respBudget.toNat
        eng := .idle
        events := es })
    ∧ (s.eng = .running op (.ready .ocr) → ∃ sc,
      exec .cmd58 s = .next { s with
        status := { s.status with stage := .failed, done := true, err := true, errcode := .noResponse }
        donePend := true
        scratch := sc
        bus := s.bus ++ txExchange 58 0 s.cfg.respBudget.toNat
        eng := .idle
        events := es })

/-- CMD17 for every op that reads a block (42_block_io.md R200, R203): status 0x00, token 0xFE, the payload into BLOCKBUF, two
checksum bytes of any value, BUFVALID = 1; then the op's procedure goes on with its block (`afterBlock`). READBLK completes there
(R205), READBYTES goes on to its DMEM writes (R206). -/
def Obligations.Cmd17Completes : Prop :=
  ∀ (s : State) (op : Byte) (arg : Word) (u : BlockUse) (b : BlockReply) (es : List Event), s.softReset = false →
    s.eng = .running op (.ready (.block u)) → s.bs ≤ 512 → s.bs ≤ s.blockbuf.length → b.Fits s.cfg.respBudget.toNat s.bs →
    s.events = b.inputs ++ es →
    ∃ sc, exec (.cmd17 arg) s = .next { afterBlock u { s with
        status := { s.status with bufvalid := true }
        blockbuf := b.payload ++ s.blockbuf.drop s.bs
        scratch := sc
        bus := s.bus ++ txExchange 17 arg (b.fillers + 1 + s.bs + 3)
        eng := .running op (.data u) } with events := es }
      ∧ sc.k = s.scratch.k ∧ sc.lba = s.scratch.lba ∧ sc.dst = s.scratch.dst ∧ sc.written = s.scratch.written
    ∧ (u = .readblk → exec (.cmd17 arg) s = .next { s with
        status := { s.status with bufvalid := true, done := true, err := false, errcode := .none }
        blockbuf := b.payload ++ s.blockbuf.drop s.bs
        donePend := true
        scratch := sc
        bus := s.bus ++ txExchange 17 arg (b.fillers + 1 + s.bs + 3)
        eng := .idle
        events := es })
    ∧ (u = .readbytes → exec (.cmd17 arg) s = .next { s with
        status := { s.status with bufvalid := true }
        blockbuf := b.payload ++ s.blockbuf.drop s.bs
        scratch := { sc with j := readLo s s.scratch.k.toNat }
        bus := s.bus ++ txExchange 17 arg (b.fillers + 1 + s.bs + 3)
        eng := .running op .copy
        events := es })

/-- CMD17 that fails, for every op that reads a block (42_block_io.md R200, R202, R204, 60_exceptions.md R308): a status byte other
than 0x00 is READ_REJECTED with no data frame; a data-start token other than 0xFE is BAD_START_TOKEN after the whole frame; both
put the byte into ERR_BYTE; a budget spent on filler bytes is NO_RESPONSE. All record ERR_LBA; READBYTES also counts its bytes
(R206) and DIRNEXT ends its scan (44_directory.md R274). -/
def Obligations.Cmd17Fails : Prop :=
  ∀ (s : State) (op : Byte) (arg : Word) (u : BlockUse) (es : List Event), s.softReset = false →
    s.eng = .running op (.ready (.block u)) →
    (∀ r : Reply, r.Fits s.cfg.respBudget.toNat 1 → r.byte 0 ≠ 0x00 → s.events = r.inputs ++ es →
      ∃ sc, exec (.cmd17 arg) s = .next { s with
        errByte := r.byte 0
        errLba := s.scratch.lba
        res0 := if u = .readbytes then BitVec.ofNat 32 s.scratch.written else s.res0
        status := { s.status with
          done := true, err := true, errcode := .readRejected, errctx := true, bufvalid := false
          dirActive := if u = .dirnext then false else s.status.dirActive }
        dir := if u = .dirnext then s.dir.dropped else s.dir
        donePend := true
        scratch := sc
        bus := s.bus ++ txExchange 17 arg r.polled
        eng := .idle
        events := es })
    ∧ (∀ (r : Reply) (tok c0 c1 : Byte) (ds : List Byte), r.Fits s.cfg.respBudget.toNat 1 → r.byte 0 = 0x00 → tok ≠ 0xFE →
      s.bs ≤ 512 → ds.length = s.bs → s.events = r.inputs ++ rx (tok :: ds ++ [c0, c1]) ++ es →
      ∃ sc buf, exec (.cmd17 arg) s = .next { s with
        errByte := tok
        errLba := s.scratch.lba
        res0 := if u = .readbytes then BitVec.ofNat 32 s.scratch.written else s.res0
        status := { s.status with
          done := true, err := true, errcode := .badStartToken, errctx := true, bufvalid := false
          dirActive := if u = .dirnext then false else s.status.dirActive }
        dir := if u = .dirnext then s.dir.dropped else s.dir
        blockbuf := buf
        donePend := true
        scratch := sc
        bus := s.bus ++ txExchange 17 arg (r.polled + s.bs + 3)
        eng := .idle
        events := es })
    ∧ ∀ g : List Byte, g.length = 6 → 1 ≤ s.cfg.respBudget.toNat →
      s.events = rx g ++ rx (List.replicate s.cfg.respBudget.toNat 0xFF) ++ es →
      ∃ sc, exec (.cmd17 arg) s = .next { s with
        errLba := s.scratch.lba
        res0 := if u = .readbytes then BitVec.ofNat 32 s.scratch.written else s.res0
        status := { s.status with
          done := true, err := true, errcode := .noResponse, errctx := true, bufvalid := false
          dirActive := if u = .dirnext then false else s.status.dirActive }
        dir := if u = .dirnext then s.dir.dropped else s.dir
        donePend := true
        scratch := sc
        bus := s.bus ++ txExchange 17 arg s.cfg.respBudget.toNat
        eng := .idle
        events := es }

/-- A wire command is refused where no op runs: between ops the engine makes no transaction (10_state.md R24). -/
def Obligations.WireOutOfPlace : Prop :=
  ∀ (s : State) (i : Instr), (commandOf i).isSome = true → s.eng = .idle → exec i s = .refused .notAtCommand

/-! ## Block reads -/

/-- READBLK (42_block_io.md R200 to R203, R205): the block of LBA ARG0 is read at card byte address `ARG0 << 9` into BLOCKBUF, a
directory scan is cancelled (44_directory.md R277). -/
def Obligations.ReadblkCompletes : Prop :=
  ∀ (s : State) (b : BlockReply) (es : List Event), s.Inv → s.CanIssue → s.status.stage = .ready →
    b.Fits s.cfg.respBudget.toNat s.bs → s.events = b.inputs ++ es →
    ∃ sc, exec .readblk s = .next { s.after .none with
      status := { (s.after .none).status with bufvalid := true, dirActive := false }
      dir := s.dir.dropped
      blockbuf := b.payload ++ s.blockbuf.drop s.bs
      scratch := sc
      bus := s.bus ++ b.sent s.arg0 s.bs
      events := es }

/-- READBLK that fails (42_block_io.md R200, R202 to R204): a data-start token other than 0xFE is BAD_START_TOKEN after the whole
frame; a budget spent on filler bytes is NO_RESPONSE. BUFVALID is 0 and BLOCKBUF unspecified. -/
def Obligations.ReadblkFails : Prop :=
  ∀ (s : State) (es : List Event), s.Inv → s.CanIssue → s.status.stage = .ready →
    (∀ (r : Reply) (tok c0 c1 : Byte) (ds : List Byte), r.Fits s.cfg.respBudget.toNat 1 → r.byte 0 = 0x00 → tok ≠ 0xFE →
      ds.length = s.bs → s.events = r.inputs ++ rx (tok :: ds ++ [c0, c1]) ++ es →
      ∃ sc buf, exec .readblk s = .next { s.after .badStartToken with
        errByte := tok
        errLba := s.arg0
        status := { (s.after .badStartToken).status with errctx := true, bufvalid := false, dirActive := false }
        dir := s.dir.dropped
        blockbuf := buf
        scratch := sc
        bus := s.bus ++ txExchange 17 (s.arg0 <<< 9) (r.polled + s.bs + 3)
        events := es })
    ∧ ∀ g : List Byte, g.length = 6 → s.events = rx g ++ rx (List.replicate s.cfg.respBudget.toNat 0xFF) ++ es →
      ∃ sc, exec .readblk s = .next { s.after .noResponse with
        errLba := s.arg0
        status := { (s.after .noResponse).status with errctx := true, bufvalid := false, dirActive := false }
        dir := s.dir.dropped
        scratch := sc
        bus := s.bus ++ txExchange 17 (s.arg0 <<< 9) s.cfg.respBudget.toNat
        events := es }

/-- READBYTES (42_block_io.md R206 to R208): `ceil((off + size) / bs)` blocks are read in order and byte `t` of the range lands at
`ARG0 + t`; every other byte of DMEM stays. A size of 0 reads nothing. -/
def Obligations.ReadbytesRange : Prop :=
  ∀ (s : State) (blocks : List BlockReply) (es : List Event), s.Inv → s.CanIssue → s.status.stage = .ready →
    s.arg0.toNat + s.arg1.toNat ≤ 2 ^ 32 → s.arg2.toNat + s.arg1.toNat ≤ 2 ^ 32 →
    (s.arg1 = 0 → Prompt s.events → ∃ sc, exec .readbytes s = .next { s.after .none with
      res0 := 0
      status := { (s.after .none).status with dirActive := false }
      dir := s.dir.dropped
      scratch := sc })
    ∧ (s.arg1 ≠ 0 → blocks.length = (s.arg2.toNat % s.bs + s.arg1.toNat + s.bs - 1) / s.bs →
      (∀ b ∈ blocks, b.Fits s.cfg.respBudget.toNat s.bs) → Prompt es → s.events = blocks.flatMap BlockReply.inputs ++ es →
      ∃ sc buf mem, exec .readbytes s = .next { s.after .none with
        res0 := s.arg1
        status := { (s.after .none).status with bufvalid := true, dirActive := false }
        dir := s.dir.dropped
        blockbuf := buf
        dmem := mem
        scratch := sc
        bus := s.bus ++ blocks.zipIdx.flatMap (fun b => b.1.sent (BitVec.ofNat 32 (s.arg2.toNat / s.bs + b.2)) s.bs)
        events := es }
      ∧ (∀ b ∈ blocks.getLast?, buf = b.payload ++ s.blockbuf.drop s.bs)
      ∧ ∀ a : Nat, mem.read a =
          if s.arg0.toNat ≤ a ∧ a < s.arg0.toNat + s.arg1.toNat then
            some (((blocks.map BlockReply.payload).getD ((s.arg2.toNat % s.bs + (a - s.arg0.toNat)) / s.bs) []).getD
              ((s.arg2.toNat % s.bs + (a - s.arg0.toNat)) % s.bs) 0)
          else s.dmem.read a)

/-- READBYTES whose block `m` is rejected after `m` blocks that succeed (42_block_io.md R206, R204): their bytes are in DMEM and
stay there, RES0 is their count, and no byte of block `m` is written. -/
def Obligations.ReadbytesStops : Prop :=
  ∀ (s : State) (blocks : List BlockReply) (r : Reply) (es : List Event), s.Inv → s.CanIssue → s.status.stage = .ready →
    s.arg0.toNat + s.arg1.toNat ≤ 2 ^ 32 → s.arg2.toNat + s.arg1.toNat ≤ 2 ^ 32 → s.arg1 ≠ 0 →
    blocks.length < (s.arg2.toNat % s.bs + s.arg1.toNat + s.bs - 1) / s.bs →
    (∀ b ∈ blocks, b.Fits s.cfg.respBudget.toNat s.bs) → r.Fits s.cfg.respBudget.toNat 1 → r.byte 0 ≠ 0x00 →
    s.events = blocks.flatMap BlockReply.inputs ++ r.inputs ++ es →
    ∃ sc buf mem, exec .readbytes s = .next { s.after .readRejected with
      res0 := BitVec.ofNat 32 (blocks.length * s.bs - s.arg2.toNat % s.bs)
      errByte := r.byte 0
      errLba := BitVec.ofNat 32 (s.arg2.toNat / s.bs + blocks.length)
      status := { (s.after .readRejected).status with errctx := true, bufvalid := false, dirActive := false }
      dir := s.dir.dropped
      blockbuf := buf
      dmem := mem
      scratch := sc
      bus := s.bus ++ blocks.zipIdx.flatMap (fun b => b.1.sent (BitVec.ofNat 32 (s.arg2.toNat / s.bs + b.2)) s.bs)
        ++ txExchange 17 (BitVec.ofNat 32 (s.arg2.toNat / s.bs + blocks.length) <<< 9) r.polled
      events := es }
    ∧ ∀ a : Nat, mem.read a =
        if s.arg0.toNat ≤ a ∧ a < s.arg0.toNat + (blocks.length * s.bs - s.arg2.toNat % s.bs) then
          some (((blocks.map BlockReply.payload).getD ((s.arg2.toNat % s.bs + (a - s.arg0.toNat)) / s.bs) []).getD
            ((s.arg2.toNat % s.bs + (a - s.arg0.toNat)) % s.bs) 0)
        else s.dmem.read a

/-- A step writes DMEM only inside the range of a READBYTES (20_memory.md R72, 42_block_io.md R206): the one that runs,
`[a0, a0 + a1)`, also when it goes on after a host access, or the one the step issues, `[ARG0, ARG0 + ARG1)`. Whatever the
transport answers, the run of a READBYTES writes no byte outside its range. -/
def Obligations.ReadbytesFrame : Prop :=
  (∀ s t : State, s.Inv → step s = .next t → ∀ a : Nat, t.dmem.read a ≠ s.dmem.read a →
    (∃ l, s.eng = .running 0x06 l ∧ s.a0.toNat ≤ a ∧ a < s.a0.toNat + s.a1.toNat)
    ∨ ∃ p v es, s.events = .host p { bits := 32, addr := s.params.base, dir := .wr v } :: es ∧ v.toNat % 256 = 0x06
        ∧ s.busy = false ∧ s.arg0.toNat ≤ a ∧ a < s.arg0.toNat + s.arg1.toNat)
  ∧ ∀ s t : State, s.Inv → s.CanIssue → exec .readbytes s = .next t →
    ∀ a : Nat, (a < s.arg0.toNat ∨ s.arg0.toNat + s.arg1.toNat ≤ a) → t.dmem.read a = s.dmem.read a

/-- No instruction but READBYTES writes a byte of DMEM (20_memory.md R72), in any state and whatever the inputs. -/
def Obligations.MemoryFrame : Prop :=
  ∀ (i : Instr) (s t : State), i ≠ .readbytes → exec i s = .next t → ∀ a : Nat, t.dmem.read a = s.dmem.read a

/-- The stitching arithmetic of READBYTES (42_block_io.md R207): `n = ceil((off + size) / bs)`, block `k` copies `[lo, hi)`, no block
copies past its end, and the copied ranges add up to `size`. -/
def Obligations.Stitching : Prop :=
  ∀ s : State, 0 < s.bs → 0 < s.a1.toNat →
    readFirst s = s.a2.toNat / s.bs ∧ readOff s = s.a2.toNat % s.bs
    ∧ (readCount s - 1) * s.bs < readOff s + s.a1.toNat ∧ readOff s + s.a1.toNat ≤ readCount s * s.bs
    ∧ (∀ k < readCount s, readLo s k = (if k = 0 then readOff s else 0)
        ∧ readHi s k = (if k = readCount s - 1 then (readOff s + s.a1.toNat - 1) % s.bs + 1 else s.bs)
        ∧ readLo s k < readHi s k)
    ∧ ((List.range (readCount s)).map (fun k => readHi s k - readLo s k)).sum = s.a1.toNat

/-! ## Volumes -/

/-- PARTITION (43_fat32.md R231 to R233): record `n` of block 0 stands at `446 + 16 × (n - 1)`; its byte 4, the word at 4 and the word
at 8 go to PART_TYPE, PART_COUNT and PART_LBA, the last also to RES0. -/
def Obligations.PartitionCompletes : Prop :=
  ∀ (s : State) (b : BlockReply) (es : List Event), s.Inv → s.CanIssue → s.status.stage = .ready → s.blockSize = 512 →
    1 ≤ s.arg0.toNat → s.arg0.toNat ≤ 4 → b.Fits s.cfg.respBudget.toNat 512 → s.events = b.inputs ++ es →
    ∃ sc, exec .partition s = .next { s.after .none with
      part := {
        ptype := byteAt b.payload (446 + 16 * (s.arg0.toNat - 1) + 4)
        count := le32 b.payload (446 + 16 * (s.arg0.toNat - 1) + 4)
        lba := le32 b.payload (446 + 16 * (s.arg0.toNat - 1) + 8) }
      res0 := le32 b.payload (446 + 16 * (s.arg0.toNat - 1) + 8)
      status := { (s.after .none).status with bufvalid := true, dirActive := false }
      dir := s.dir.dropped
      blockbuf := b.payload
      scratch := sc
      bus := s.bus ++ b.sent 0 512
      events := es }

/-- MOUNT (43_fat32.md R233 to R237): block 0, then the boot sector at the record's LBA; the seven fields of the boot sector, the two
region LBAs mod 2^32, MOUNTED. -/
def Obligations.MountCompletes : Prop :=
  ∀ (s : State) (m b : BlockReply) (plba : Word) (es : List Event), s.Inv → s.CanIssue → s.status.stage = .ready →
    s.blockSize = 512 → 1 ≤ s.arg0.toNat → s.arg0.toNat ≤ 4 →
    m.Fits s.cfg.respBudget.toNat 512 → b.Fits s.cfg.respBudget.toNat 512 →
    plba = le32 m.payload (446 + 16 * (s.arg0.toNat - 1) + 8) → le16 b.payload 0x1FE = 0xAA55 →
    s.events = m.inputs ++ b.inputs ++ es →
    ∃ sc fat data, exec .mount s = .next { s.after .none with
      part := {
        ptype := byteAt m.payload (446 + 16 * (s.arg0.toNat - 1) + 4)
        count := le32 m.payload (446 + 16 * (s.arg0.toNat - 1) + 4)
        lba := plba }
      vol := {
        bps := le16 b.payload 0x0B, spc := byteAt b.payload 0x0D, rsvd := le16 b.payload 0x0E
        nfats := byteAt b.payload 0x10, spf := le32 b.payload 0x24, rootClus := le32 b.payload 0x2C
        bootSig := 0xAA55, fatLba := fat, dataLba := data }
      res0 := fat
      res1 := data
      status := { (s.after .none).status with mounted := true, bufvalid := true, dirActive := false }
      dir := s.dir.dropped
      blockbuf := b.payload
      scratch := sc
      bus := s.bus ++ m.sent 0 512 ++ b.sent plba 512
      events := es }
    ∧ fat.toNat = (plba.toNat + (le16 b.payload 0x0E).toNat) % 2 ^ 32
    ∧ data.toNat = (fat.toNat + (byteAt b.payload 0x10).toNat * (le32 b.payload 0x24).toNat) % 2 ^ 32

/-- MOUNT of a boot sector whose signature is not 0xAA55 (43_fat32.md R235, R236): BAD_SIGNATURE, MOUNTED = 0, the boot sector's
fields as decoded, and no region LBA is written. -/
def Obligations.MountBadSignature : Prop :=
  ∀ (s : State) (m b : BlockReply) (plba : Word) (es : List Event), s.Inv → s.CanIssue → s.status.stage = .ready →
    s.blockSize = 512 → 1 ≤ s.arg0.toNat → s.arg0.toNat ≤ 4 →
    m.Fits s.cfg.respBudget.toNat 512 → b.Fits s.cfg.respBudget.toNat 512 →
    plba = le32 m.payload (446 + 16 * (s.arg0.toNat - 1) + 8) → le16 b.payload 0x1FE ≠ 0xAA55 →
    s.events = m.inputs ++ b.inputs ++ es →
    ∃ sc, exec .mount s = .next { s.after .badSignature with
      part := {
        ptype := byteAt m.payload (446 + 16 * (s.arg0.toNat - 1) + 4)
        count := le32 m.payload (446 + 16 * (s.arg0.toNat - 1) + 4)
        lba := plba }
      vol := {
        bps := le16 b.payload 0x0B, spc := byteAt b.payload 0x0D, rsvd := le16 b.payload 0x0E
        nfats := byteAt b.payload 0x10, spf := le32 b.payload 0x24, rootClus := le32 b.payload 0x2C
        bootSig := le16 b.payload 0x1FE, fatLba := s.vol.fatLba, dataLba := s.vol.dataLba }
      status := { (s.after .badSignature).status with mounted := false, bufvalid := true, dirActive := false }
      dir := s.dir.dropped
      blockbuf := b.payload
      scratch := sc
      bus := s.bus ++ m.sent 0 512 ++ b.sent plba 512
      events := es }

/-- CLUS2LBA (43_fat32.md R240): `(DATA_LBA + (a0 - 2) × SPC) mod 2^32` for a cluster from 2 on, INVALID_CLUSTER below, ILLEGAL_OP
without a volume; no request is made. -/
def Obligations.Clus2lba : Prop :=
  ∀ s : State, s.CanIssue → Prompt s.events →
    (s.status.mounted = true → 2 ≤ s.arg0.toNat → ∃ lba : Word, exec .clus2lba s = .next { s.after .none with res0 := lba }
      ∧ lba.toNat = (s.vol.dataLba.toNat + (s.arg0.toNat - 2) * s.vol.spc.toNat) % 2 ^ 32)
    ∧ (s.status.mounted = true → s.arg0.toNat < 2 → exec .clus2lba s = .next (s.after .invalidCluster))
    ∧ (s.status.mounted = false → exec .clus2lba s = .next (s.after .illegalOp))

/-! ## Directory slots -/

/-- The fields the other statements name, by their bytes: little-endian halfwords and words (00_scope.md R10), byte `i` of slot `j`
at `32 × j + i` of its block (30_encoding.md R126), what a slot is (44_directory.md R260), and the 13 code units of a long-name
fragment at 1, 14 and 28 (R263). -/
def Obligations.FieldBytes : Prop :=
  (∀ (b : List Byte) (o : Nat), o < b.length → b[o]? = some (byteAt b o))
  ∧ (∀ (b : List Byte) (o : Nat), (le16 b o).toNat = (byteAt b o).toNat + 2 ^ 8 * (byteAt b (o + 1)).toNat)
  ∧ (∀ (b : List Byte) (o : Nat), (le32 b o).toNat = (byteAt b o).toNat + 2 ^ 8 * (byteAt b (o + 1)).toNat
      + 2 ^ 16 * (byteAt b (o + 2)).toNat + 2 ^ 24 * (byteAt b (o + 3)).toNat)
  ∧ (∀ b0 b1 b2 b3 : Byte, (wordOfBytes b0 b1 b2 b3).toNat =
      b0.toNat + 2 ^ 8 * b1.toNat + 2 ^ 16 * b2.toNat + 2 ^ 24 * b3.toNat)
  ∧ (∀ (b : List Byte) (i j : Nat), i < 32 → (slotOf b j)[i]? = b[32 * j + i]?)
  ∧ (∀ t : List Byte, (fragUnits t).length = 13
      ∧ (∀ j < 5, (fragUnits t)[j]? = some (le16 t (1 + 2 * j)))
      ∧ (∀ j < 6, (fragUnits t)[5 + j]? = some (le16 t (14 + 2 * j)))
      ∧ ∀ j < 2, (fragUnits t)[11 + j]? = some (le16 t (28 + 2 * j)))
  ∧ ∀ t : List Byte,
      (classify t = .endOfDir ↔ byteAt t 0 = 0x00) ∧ (classify t = .free ↔ byteAt t 0 = 0xE5)
      ∧ (classify t = .longFrag ↔ byteAt t 0 ≠ 0x00 ∧ byteAt t 0 ≠ 0xE5 ∧ (byteAt t 11).toNat % 16 = 15)
      ∧ (classify t = .short ↔ byteAt t 0 ≠ 0x00 ∧ byteAt t 0 ≠ 0xE5 ∧ (byteAt t 11).toNat % 16 ≠ 15)

/-- `short_name` (44_directory.md R262): of the 8 base bytes and the 3 extension bytes exactly the trailing spaces are dropped, and the
two are joined with no dot. -/
def Obligations.ShortName : Prop :=
  ∀ t : List Byte, t.length = 32 → ∃ base ext : List Byte,
    shortName t = base ++ ext
    ∧ t.take 8 = base ++ List.replicate (8 - base.length) 0x20 ∧ base.getLast? ≠ some 0x20 ∧ base.length ≤ 8
    ∧ (t.drop 8).take 3 = ext ++ List.replicate (3 - ext.length) 0x20 ∧ ext.getLast? ≠ some 0x20 ∧ ext.length ≤ 3

/-- `utf8` of one code unit by value, surrogates included (44_directory.md R264, R266), and `frag_utf8` of the three chunks, each up
to its first 0x0000 or 0xFFFF (R265). -/
def Obligations.NameBytes : Prop :=
  (∀ u : BitVec 16, (utf8 u).map BitVec.toNat =
    if u.toNat ≤ 0x7F then [u.toNat]
    else if u.toNat ≤ 0x7FF then [0xC0 + u.toNat / 64, 0x80 + u.toNat % 64]
    else [0xE0 + u.toNat / 4096, 0x80 + u.toNat / 64 % 64, 0x80 + u.toNat % 64])
  ∧ ∀ a b c a' b' c' : List (BitVec 16),
    (∀ p ∈ [(a, a'), (b, b'), (c, c')], (∀ u ∈ p.1, u ≠ 0x0000 ∧ u ≠ 0xFFFF)
      ∧ (p.2.head? = none ∨ p.2.head? = some 0x0000 ∨ p.2.head? = some 0xFFFF)) →
    (a ++ a').length = 5 → (b ++ b').length = 6 → (c ++ c').length = 2 →
    fragUtf8 (a ++ a' ++ (b ++ b') ++ (c ++ c')) = a.flatMap utf8 ++ b.flatMap utf8 ++ c.flatMap utf8

/-- `lfn_name` (44_directory.md R267): the fragments' names in the order of a stable ascending sort by the whole ordinal byte. -/
def Obligations.LongName : Prop :=
  ∀ fs : List Frag, ∃ gs : List Frag, gs.Perm fs
    ∧ gs.Pairwise (fun f g => f.ord.toNat ≤ g.ord.toNat)
    ∧ (∀ o : Byte, gs.filter (fun f => f.ord = o) = fs.filter (fun f => f.ord = o))
    ∧ lfnName fs = gs.flatMap (fun f => fragUtf8 f.cu)

/-- DECSLOT (44_directory.md R260, R270, R271): the slot's kind, attribute, ordinal and checksum in RES0, cluster and size of a short
entry in RES1 and RES2, the name in NAMEBUF; the scan and BLOCKBUF stay, no request is made. -/
def Obligations.Decslot : Prop :=
  ∀ (s : State) (t : List Byte), s.CanIssue → Prompt s.events → s.params.hasDirDecoder = true → s.status.bufvalid = true →
    s.arg0.toNat < s.bs / 32 → t = slotOf s.blockbuf s.arg0.toNat →
    (byteAt t 0 = 0x00 → exec .decslot s = .next { s.after .none with res0 := 0, res1 := 0, res2 := 0, nameLen := 0 })
    ∧ (byteAt t 0 = 0xE5 → exec .decslot s = .next { s.after .none with res0 := 1, res1 := 0, res2 := 0, nameLen := 0 })
    ∧ (byteAt t 0 ≠ 0x00 → byteAt t 0 ≠ 0xE5 → byteAt t 11 &&& 0x0F = 0x0F →
        exec .decslot s = .next { s.after .none with
          res0 := wordOfBytes 3 (byteAt t 11) (byteAt t 0) (byteAt t 13)
          res1 := 0
          res2 := 0
          namebuf := fragUtf8 (fragUnits t) ++ s.namebuf.drop (fragUtf8 (fragUnits t)).length
          nameLen := BitVec.ofNat 16 (fragUtf8 (fragUnits t)).length })
    ∧ (byteAt t 0 ≠ 0x00 → byteAt t 0 ≠ 0xE5 → byteAt t 11 &&& 0x0F ≠ 0x0F →
        exec .decslot s = .next { s.after .none with
          res0 := wordOfBytes 2 (byteAt t 11) 0 0
          res1 := wordOfBytes (byteAt t 26) (byteAt t 27) (byteAt t 20) (byteAt t 21)
          res2 := wordOfBytes (byteAt t 28) (byteAt t 29) (byteAt t 30) (byteAt t 31)
          namebuf := shortName t ++ s.namebuf.drop (shortName t).length
          nameLen := BitVec.ofNat 16 (shortName t).length })

/-! ## Directory scans -/

/-- DIRSTART starts a scan of ARG1 blocks from LBA ARG0 (44_directory.md R272) with no request; DIRNEXT without a scan returns END
again and again (R274, R275). -/
def Obligations.ScanStarts : Prop :=
  ∀ s : State, s.CanIssue → Prompt s.events → s.params.hasDirDecoder = true →
    (s.status.stage = .ready → exec .dirstart s = .next { s.after .none with
      dir := { lba := s.arg0, left := s.arg1, slot := 0, frags := [], loaded := false }
      status := { (s.after .none).status with dirActive := s.arg1 != 0 } })
    ∧ (s.status.dirActive = false →
      exec .dirnext s = .next { s.after .none with res0 := 0, res1 := 0, res2 := 0, res3 := 0, nameLen := 0 })

/-- DIRNEXT over the loaded block (44_directory.md R274 to R276): after `k` slots that are free or fragments, a short slot yields the
entry with the name of the fragments held, or its own name if there are none; an end marker ends the scan and returns END; a
fragment for which the store has no room ends the scan with NAME_TOO_LONG. -/
def Obligations.DirnextOverBlock : Prop :=
  ∀ (s : State) (k : Nat) (t : List Byte) (fs : List Frag), s.Inv → s.CanIssue → Prompt s.events → s.status.stage = .ready →
    s.status.dirActive = true → s.dir.loaded = true → s.Skips k → fs = s.dir.frags ++ s.heldOver k →
    fs.length ≤ s.params.maxFragments → s.dir.slot.toNat + k < s.bs / 32 → t = slotOf s.blockbuf (s.dir.slot.toNat + k) →
    (classify t = .short → exec .dirnext s = .next { s.after .none with
        res0 := wordOfBytes 1 (byteAt t 11) (if fs = [] then 0 else 1) 0
        res1 := wordOfBytes (byteAt t 26) (byteAt t 27) (byteAt t 20) (byteAt t 21)
        res2 := wordOfBytes (byteAt t 28) (byteAt t 29) (byteAt t 30) (byteAt t 31)
        res3 := s.dir.lba
        namebuf := (if fs = [] then shortName t else lfnName fs)
          ++ s.namebuf.drop (if fs = [] then shortName t else lfnName fs).length
        nameLen := BitVec.ofNat 16 (if fs = [] then shortName t else lfnName fs).length
        dir := { s.dir with slot := BitVec.ofNat 8 (s.dir.slot.toNat + k + 1), frags := [] } })
    ∧ (classify t = .endOfDir → exec .dirnext s = .next { s.after .none with
        res0 := 0, res1 := 0, res2 := 0, res3 := 0, nameLen := 0
        status := { (s.after .none).status with dirActive := false }
        dir := { s.dir with slot := BitVec.ofNat 8 (s.dir.slot.toNat + k + 1), frags := [], loaded := false } })
    ∧ (classify t = .longFrag → fs.length = s.params.maxFragments → exec .dirnext s = .next { s.after .nameTooLong with
        status := { (s.after .nameTooLong).status with dirActive := false }
        dir := { s.dir with slot := BitVec.ofNat 8 (s.dir.slot.toNat + k + 1), frags := [], loaded := false } })

/-- DIRNEXT across blocks (44_directory.md R274, R275): when the loaded block holds no more entry and it is the last, the scan ends
and END is returned; when it is not the last, DIRNEXT does what it does from the next block with the fragments held; when no
block is loaded it reads block DIR_LBA and does what it does from that block's first slot. -/
def Obligations.DirnextAcrossBlocks : Prop :=
  ∀ (s : State) (fs : List Frag), s.Inv → s.CanIssue → s.status.stage = .ready → s.status.dirActive = true →
    (∀ k : Nat, s.dir.loaded = true → Prompt s.events → s.Skips k → fs = s.dir.frags ++ s.heldOver k →
      fs.length ≤ s.params.maxFragments → s.dir.slot.toNat + k = s.bs / 32 →
      (s.dir.left = 1 → exec .dirnext s = .next { s.after .none with
        res0 := 0, res1 := 0, res2 := 0, res3 := 0, nameLen := 0
        status := { (s.after .none).status with dirActive := false }
        dir := { lba := s.dir.lba + 1, left := 0, slot := BitVec.ofNat 8 (s.bs / 32), frags := [], loaded := false } })
      ∧ (s.dir.left ≠ 1 → exec .dirnext s = exec .dirnext { s with
        dir := {
          lba := s.dir.lba + 1, left := s.dir.left - 1, slot := BitVec.ofNat 8 (s.bs / 32), frags := fs
          loaded := false } }))
    ∧ ∀ (b : BlockReply) (es : List Event), s.dir.loaded = false → b.Fits s.cfg.respBudget.toNat s.bs → Prompt es →
      s.events = b.inputs ++ es → ∃ sc, exec .dirnext s = exec .dirnext { s with
        dir := { s.dir with slot := 0, loaded := true }
        status := { s.status with bufvalid := true }
        blockbuf := b.payload ++ s.blockbuf.drop s.bs
        scratch := sc
        bus := s.bus ++ b.sent s.dir.lba s.bs
        events := es }
end

