-- ==== Sys2Proof/Laws/State.lean ====
section
/-! SUPPORT. The fields of a state after each named update, one lemma per field a later proof asks for. -/

namespace Sys2Proof.Machine

/-! ## Counters -/

/-- A counter that is below a bound of its width counts on without wrapping. -/
theorem toNat_add_one {w : Nat} {x : BitVec w} {n : Nat} (h : x.toNat < n) (hn : n < 2 ^ w) :
    (x + 1).toNat = x.toNat + 1 := by
  have h1 : (1#w).toNat = 1 := by
    rw [BitVec.toNat_ofNat]
    exact Nat.mod_eq_of_lt (by omega)
  show (x + 1#w).toNat = _
  rw [BitVec.toNat_add, h1, Nat.mod_eq_of_lt (by omega)]

/-- Counting one and then `n` is counting `n + 1`. -/
theorem add_one_add {w : Nat} (x : BitVec w) (n : Nat) : x + 1 + BitVec.ofNat w n = x + BitVec.ofNat w (n + 1) := by
  show x + 1#w + BitVec.ofNat w n = _
  rw [BitVec.add_assoc, Nat.add_comm n 1, BitVec.ofNat_add]

theorem add_zero_count {w : Nat} (x : BitVec w) : x + BitVec.ofNat w 0 = x := BitVec.add_zero x

theorem one_add_count (w n : Nat) : BitVec.ofNat w 1 + BitVec.ofNat w n = BitVec.ofNat w (n + 1) := by
  rw [Nat.add_comm, BitVec.ofNat_add]

/-! ## Places of the engine -/

@[simp] theorem Eng.moveTo_idle (l : Label) : Eng.idle.moveTo l = .idle := rfl
@[simp] theorem Eng.moveTo_running (op : Byte) (l l' : Label) : (Eng.running op l).moveTo l' = .running op l' := rfl
@[simp] theorem Eng.isRunning_idle : Eng.idle.isRunning = false := rfl
@[simp] theorem Eng.isRunning_running (op : Byte) (l : Label) : (Eng.running op l).isRunning = true := rfl

theorem State.internal_of_idle {s : State} (h : s.eng = .idle) : s.internal = false := by simp [State.internal, h]
theorem State.waiting_of_idle {s : State} (h : s.eng = .idle) : s.waiting = false := by simp [State.waiting, h]

theorem State.internal_of_running {s : State} {op : Byte} {l : Label} (h : s.eng = .running op l) :
    s.internal = l.isInternal := by simp [State.internal, h]

theorem State.waiting_of_running {s : State} {op : Byte} {l : Label} (h : s.eng = .running op l) :
    s.waiting = !l.isInternal := by simp [State.waiting, h]

/-! ## `State.complete` -/

section Complete
variable (s : State) (e : ErrCode)
@[simp] theorem State.complete_eng : (s.complete e).eng = .idle := rfl
@[simp] theorem State.complete_donePend : (s.complete e).donePend = true := rfl
@[simp] theorem State.complete_done : (s.complete e).status.done = true := rfl
@[simp] theorem State.complete_err : (s.complete e).status.err = (e != .none) := rfl
@[simp] theorem State.complete_errcode : (s.complete e).status.errcode = e := rfl
@[simp] theorem State.complete_opovr : (s.complete e).status.opovr = s.status.opovr := rfl
@[simp] theorem State.complete_stage : (s.complete e).status.stage = s.status.stage := rfl
@[simp] theorem State.complete_v2 : (s.complete e).status.v2 = s.status.v2 := rfl
@[simp] theorem State.complete_hc : (s.complete e).status.hc = s.status.hc := rfl
@[simp] theorem State.complete_voltWarn : (s.complete e).status.voltWarn = s.status.voltWarn := rfl
@[simp] theorem State.complete_spedUp : (s.complete e).status.spedUp = s.status.spedUp := rfl
@[simp] theorem State.complete_mounted : (s.complete e).status.mounted = s.status.mounted := rfl
@[simp] theorem State.complete_bufvalid : (s.complete e).status.bufvalid = s.status.bufvalid := rfl
@[simp] theorem State.complete_dirActive : (s.complete e).status.dirActive = s.status.dirActive := rfl
@[simp] theorem State.complete_errctx : (s.complete e).status.errctx = s.status.errctx := rfl
@[simp] theorem State.complete_params : (s.complete e).params = s.params := rfl
@[simp] theorem State.complete_irqEn : (s.complete e).irqEn = s.irqEn := rfl
@[simp] theorem State.complete_res0 : (s.complete e).res0 = s.res0 := rfl
@[simp] theorem State.complete_blockSize : (s.complete e).blockSize = s.blockSize := rfl
@[simp] theorem State.complete_cfg : (s.complete e).cfg = s.cfg := rfl
@[simp] theorem State.complete_part : (s.complete e).part = s.part := rfl
@[simp] theorem State.complete_vol : (s.complete e).vol = s.vol := rfl
@[simp] theorem State.complete_dir : (s.complete e).dir = s.dir := rfl
@[simp] theorem State.complete_nameLen : (s.complete e).nameLen = s.nameLen := rfl
@[simp] theorem State.complete_blockbuf : (s.complete e).blockbuf = s.blockbuf := rfl
@[simp] theorem State.complete_namebuf : (s.complete e).namebuf = s.namebuf := rfl
@[simp] theorem State.complete_scratch : (s.complete e).scratch = s.scratch := rfl
@[simp] theorem State.complete_softReset : (s.complete e).softReset = s.softReset := rfl
@[simp] theorem State.complete_inReset : (s.complete e).inReset = s.inReset := rfl
@[simp] theorem State.complete_dmem : (s.complete e).dmem = s.dmem := rfl
@[simp] theorem State.complete_events : (s.complete e).events = s.events := rfl
@[simp] theorem State.complete_bus : (s.complete e).bus = s.bus := rfl
end Complete

/-! ## `State.put` and `State.ask` -/

section Put
variable (s : State) (sc : Scratch) (t : Txn) (l : Label)
@[simp] theorem State.put_scratch : (s.put sc).scratch = sc := rfl
@[simp] theorem State.put_eng : (s.put sc).eng = s.eng := rfl
@[simp] theorem State.put_bus : (s.put sc).bus = s.bus := rfl
@[simp] theorem State.put_put (sc' : Scratch) : (s.put sc).put sc' = s.put sc' := rfl
@[simp] theorem State.ask_scratch : (s.ask sc t l).scratch = sc := rfl
@[simp] theorem State.ask_bus : (s.ask sc t l).bus = s.bus ++ [t] := rfl
@[simp] theorem State.ask_eng : (s.ask sc t l).eng = s.eng.moveTo l := rfl
@[simp] theorem State.put_params : (s.put sc).params = s.params := rfl
@[simp] theorem State.ask_params : (s.ask sc t l).params = s.params := rfl
@[simp] theorem State.put_status : (s.put sc).status = s.status := rfl
@[simp] theorem State.ask_status : (s.ask sc t l).status = s.status := rfl
@[simp] theorem State.put_irqEn : (s.put sc).irqEn = s.irqEn := rfl
@[simp] theorem State.ask_irqEn : (s.ask sc t l).irqEn = s.irqEn := rfl
@[simp] theorem State.put_donePend : (s.put sc).donePend = s.donePend := rfl
@[simp] theorem State.ask_donePend : (s.ask sc t l).donePend = s.donePend := rfl
@[simp] theorem State.put_arg0 : (s.put sc).arg0 = s.arg0 := rfl
@[simp] theorem State.ask_arg0 : (s.ask sc t l).arg0 = s.arg0 := rfl
@[simp] theorem State.put_arg1 : (s.put sc).arg1 = s.arg1 := rfl
@[simp] theorem State.ask_arg1 : (s.ask sc t l).arg1 = s.arg1 := rfl
@[simp] theorem State.put_arg2 : (s.put sc).arg2 = s.arg2 := rfl
@[simp] theorem State.ask_arg2 : (s.ask sc t l).arg2 = s.arg2 := rfl
@[simp] theorem State.put_res0 : (s.put sc).res0 = s.res0 := rfl
@[simp] theorem State.ask_res0 : (s.ask sc t l).res0 = s.res0 := rfl
@[simp] theorem State.put_res1 : (s.put sc).res1 = s.res1 := rfl
@[simp] theorem State.ask_res1 : (s.ask sc t l).res1 = s.res1 := rfl
@[simp] theorem State.put_res2 : (s.put sc).res2 = s.res2 := rfl
@[simp] theorem State.ask_res2 : (s.ask sc t l).res2 = s.res2 := rfl
@[simp] theorem State.put_res3 : (s.put sc).res3 = s.res3 := rfl
@[simp] theorem State.ask_res3 : (s.ask sc t l).res3 = s.res3 := rfl
@[simp] theorem State.put_blockSize : (s.put sc).blockSize = s.blockSize := rfl
@[simp] theorem State.ask_blockSize : (s.ask sc t l).blockSize = s.blockSize := rfl
@[simp] theorem State.put_errByte : (s.put sc).errByte = s.errByte := rfl
@[simp] theorem State.ask_errByte : (s.ask sc t l).errByte = s.errByte := rfl
@[simp] theorem State.put_errLba : (s.put sc).errLba = s.errLba := rfl
@[simp] theorem State.ask_errLba : (s.ask sc t l).errLba = s.errLba := rfl
@[simp] theorem State.put_cfg : (s.put sc).cfg = s.cfg := rfl
@[simp] theorem State.ask_cfg : (s.ask sc t l).cfg = s.cfg := rfl
@[simp] theorem State.put_part : (s.put sc).part = s.part := rfl
@[simp] theorem State.ask_part : (s.ask sc t l).part = s.part := rfl
@[simp] theorem State.put_vol : (s.put sc).vol = s.vol := rfl
@[simp] theorem State.ask_vol : (s.ask sc t l).vol = s.vol := rfl
@[simp] theorem State.put_dir : (s.put sc).dir = s.dir := rfl
@[simp] theorem State.ask_dir : (s.ask sc t l).dir = s.dir := rfl
@[simp] theorem State.put_nameLen : (s.put sc).nameLen = s.nameLen := rfl
@[simp] theorem State.ask_nameLen : (s.ask sc t l).nameLen = s.nameLen := rfl
@[simp] theorem State.put_blockbuf : (s.put sc).blockbuf = s.blockbuf := rfl
@[simp] theorem State.ask_blockbuf : (s.ask sc t l).blockbuf = s.blockbuf := rfl
@[simp] theorem State.put_namebuf : (s.put sc).namebuf = s.namebuf := rfl
@[simp] theorem State.ask_namebuf : (s.ask sc t l).namebuf = s.namebuf := rfl
@[simp] theorem State.put_a0 : (s.put sc).a0 = s.a0 := rfl
@[simp] theorem State.ask_a0 : (s.ask sc t l).a0 = s.a0 := rfl
@[simp] theorem State.put_a1 : (s.put sc).a1 = s.a1 := rfl
@[simp] theorem State.ask_a1 : (s.ask sc t l).a1 = s.a1 := rfl
@[simp] theorem State.put_a2 : (s.put sc).a2 = s.a2 := rfl
@[simp] theorem State.ask_a2 : (s.ask sc t l).a2 = s.a2 := rfl
@[simp] theorem State.put_softReset : (s.put sc).softReset = s.softReset := rfl
@[simp] theorem State.ask_softReset : (s.ask sc t l).softReset = s.softReset := rfl
@[simp] theorem State.put_inReset : (s.put sc).inReset = s.inReset := rfl
@[simp] theorem State.ask_inReset : (s.ask sc t l).inReset = s.inReset := rfl
@[simp] theorem State.put_dmem : (s.put sc).dmem = s.dmem := rfl
@[simp] theorem State.ask_dmem : (s.ask sc t l).dmem = s.dmem := rfl
@[simp] theorem State.put_events : (s.put sc).events = s.events := rfl
@[simp] theorem State.ask_events : (s.ask sc t l).events = s.events := rfl
@[simp] theorem State.put_reads : (s.put sc).reads = s.reads := rfl
@[simp] theorem State.ask_reads : (s.ask sc t l).reads = s.reads := rfl
@[simp] theorem State.put_draws : (s.put sc).draws = s.draws := rfl
@[simp] theorem State.ask_draws : (s.ask sc t l).draws = s.draws := rfl
end Put

/-! ## `State.build` -/

section Build
variable (s : State) (x : Exch) (idx : BitVec 6) (arg : Word)
@[simp] theorem State.build_eng : (s.build x idx arg).eng = s.eng.moveTo (.ready x) := rfl
@[simp] theorem State.build_frame : (s.build x idx arg).scratch.frame = frameWord idx arg := rfl
@[simp] theorem State.build_bus : (s.build x idx arg).bus = s.bus := rfl
@[simp] theorem State.build_params : (s.build x idx arg).params = s.params := rfl
@[simp] theorem State.build_status : (s.build x idx arg).status = s.status := rfl
@[simp] theorem State.build_blockSize : (s.build x idx arg).blockSize = s.blockSize := rfl
@[simp] theorem State.build_cfg : (s.build x idx arg).cfg = s.cfg := rfl
@[simp] theorem State.build_dir : (s.build x idx arg).dir = s.dir := rfl
@[simp] theorem State.build_softReset : (s.build x idx arg).softReset = s.softReset := rfl
@[simp] theorem State.build_inReset : (s.build x idx arg).inReset = s.inReset := rfl
@[simp] theorem State.build_dmem : (s.build x idx arg).dmem = s.dmem := rfl
end Build

/-! ## `State.issue` -/

section Issue
variable (s : State) (op : Byte)
@[simp] theorem State.issue_eng : (s.issue op).eng = .running op .start := rfl
@[simp] theorem State.issue_a0 : (s.issue op).a0 = s.arg0 := rfl
@[simp] theorem State.issue_a1 : (s.issue op).a1 = s.arg1 := rfl
@[simp] theorem State.issue_a2 : (s.issue op).a2 = s.arg2 := rfl
@[simp] theorem State.issue_params : (s.issue op).params = s.params := rfl
@[simp] theorem State.issue_stage : (s.issue op).status.stage = s.status.stage := rfl
@[simp] theorem State.issue_spedUp : (s.issue op).status.spedUp = s.status.spedUp := rfl
@[simp] theorem State.issue_mounted : (s.issue op).status.mounted = s.status.mounted := rfl
@[simp] theorem State.issue_bufvalid : (s.issue op).status.bufvalid = s.status.bufvalid := rfl
@[simp] theorem State.issue_dirActive : (s.issue op).status.dirActive = s.status.dirActive := rfl
@[simp] theorem State.issue_blockSize : (s.issue op).blockSize = s.blockSize := rfl
@[simp] theorem State.issue_cfg : (s.issue op).cfg = s.cfg := rfl
@[simp] theorem State.issue_softReset : (s.issue op).softReset = s.softReset := rfl
@[simp] theorem State.issue_events : (s.issue op).events = s.events := rfl
@[simp] theorem State.issue_bus : (s.issue op).bus = s.bus := rfl
end Issue

/-! ## `State.blockReset` -/

section BlockReset
variable (s : State)
@[simp] theorem State.blockReset_params : s.blockReset.params = s.params := rfl
@[simp] theorem State.blockReset_status : s.blockReset.status = Status.zero := rfl
@[simp] theorem State.blockReset_eng : s.blockReset.eng = .idle := rfl
@[simp] theorem State.blockReset_softReset : s.blockReset.softReset = false := rfl
@[simp] theorem State.blockReset_inReset : s.blockReset.inReset = false := rfl
@[simp] theorem State.blockReset_blockSize : s.blockReset.blockSize = 0 := rfl
@[simp] theorem State.blockReset_cfg : s.blockReset.cfg = Cfg.default s.params := rfl
@[simp] theorem State.blockReset_dmem : s.blockReset.dmem = s.dmem := rfl
@[simp] theorem State.blockReset_events : s.blockReset.events = s.events := rfl
@[simp] theorem State.blockReset_bus : s.blockReset.bus = s.bus := rfl
@[simp] theorem State.blockReset_reads : s.blockReset.reads = s.reads := rfl
end BlockReset

/-! ## `State.endScan`, `State.cancelScan`, `State.writeName`, `State.memWrite` -/

section Scan
variable (s : State)
@[simp] theorem State.endScan_dirActive : s.endScan.status.dirActive = false := rfl
@[simp] theorem State.endScan_frags : s.endScan.dir.frags = [] := rfl
@[simp] theorem State.endScan_loaded : s.endScan.dir.loaded = false := rfl
@[simp] theorem State.endScan_lba : s.endScan.dir.lba = s.dir.lba := rfl
@[simp] theorem State.endScan_left : s.endScan.dir.left = s.dir.left := rfl
@[simp] theorem State.endScan_slot : s.endScan.dir.slot = s.dir.slot := rfl

/-- What `cancelScan` can do, said once: the status loses DIR_ACTIVE and the scan its fragments and its loaded block, or nothing
changes. -/
theorem State.cancelScan_cases : s.cancelScan = s.endScan ∨ s.cancelScan = s := by
  unfold State.cancelScan
  split
  · exact .inl rfl
  · exact .inr rfl

theorem State.cancelScan_eq : s.cancelScan = { s with
    status := { s.status with dirActive := !s.params.hasDirDecoder && s.status.dirActive }
    dir := if s.params.hasDirDecoder && s.status.dirActive then { s.dir with frags := [], loaded := false } else s.dir } := by
  unfold State.cancelScan State.endScan
  cases hp : s.params.hasDirDecoder <;> cases hd : s.status.dirActive <;> simp
  all_goals rw [← hd]
end Scan

section Small
variable (s : State)
@[simp] theorem State.writeName_nameLen (n : List Byte) : (s.writeName n).nameLen = BitVec.ofNat 16 n.length := rfl
@[simp] theorem State.writeName_namebuf (n : List Byte) : (s.writeName n).namebuf = n ++ s.namebuf.drop n.length := rfl
@[simp] theorem State.writeName_dmem (n : List Byte) : (s.writeName n).dmem = s.dmem := rfl
@[simp] theorem State.memWrite_dmem (a : Word) (v : Byte) : (s.memWrite a v).dmem = s.dmem.write a.toNat v := rfl
@[simp] theorem State.memWrite_status (a : Word) (v : Byte) : (s.memWrite a v).status = s.status := rfl
@[simp] theorem State.memWrite_scratch (a : Word) (v : Byte) : (s.memWrite a v).scratch = s.scratch := rfl
end Small

end Sys2Proof.Machine
end

