-- ==== Sys2Proof/Laws/Engine.lean ====
section
/-! SUPPORT. What a run of the engine over a transport script gives, said once for each part of a script: the internal steps,
the frame, the response, the data frame. -/

namespace Sys2Proof.Machine

/-! ## Internal steps -/

theorem settle_waiting {s : State} (h : s.waiting = true) : settle s = s := by
  unfold State.waiting at h
  unfold settle internalBound
  split at h
  · rename_i e; simp [e, internalRun]
  · rename_i op l e
    cases l <;> simp_all [Label.isInternal, internalRun]

theorem settle_idle {s : State} (h : s.eng = .idle) : settle s = s := by
  simp [settle, internalBound, h, internalRun]

theorem internalRun_of_not_internal {s : State} (h : s.internal = false) (n : Nat) : internalRun n s = s := by
  cases n <;> simp [internalRun, h]

/-- An idle engine takes no input: all of them stay. -/
theorem drive_idle {s : State} (es : List Event) (h : s.eng = .idle) : drive es s = { s with events := es } := by
  have hw : s.waiting = false := by simp [State.waiting, h]
  have hi : s.internal = false := by simp [State.internal, h]
  rcases es with _ | ⟨_ | ⟨_ | n, a⟩ | ⟨_ | n, l⟩, es⟩ <;>
    simp [drive, settle_idle h, hw, hi, paceRun, paceLeft, internalRun_of_not_internal hi]

/-- A waiting engine takes the next answer. -/
theorem drive_answer {s : State} (r : Answer) (es : List Event) (h : s.waiting = true) :
    drive (.answer r :: es) s = drive es (engAnswer r s) := by
  simp [drive, settle_waiting h, h]

theorem prompt_rx_cons (b : Byte) (bs : List Byte) (es : List Event) : Prompt (rx (b :: bs) ++ es) := by
  simp [rx, Prompt]

theorem prompt_rx (bs : List Byte) {es : List Event} (h : Prompt es) : Prompt (rx bs ++ es) := by
  cases bs with
  | nil => simpa [rx] using h
  | cons b bs => exact prompt_rx_cons b bs es

/-- From a place with internal steps to make, a run over inputs that do not land first makes them first. -/
theorem drive_prompt {s : State} {es : List Event} (h : Prompt es) (hw : (settle s).internal = false) :
    drive es s = drive es (settle s) := by
  have hs : settle (settle s) = settle s := by
    rcases he : (settle s).eng with _ | ⟨op, l⟩
    · exact settle_idle he
    · have : (settle s).waiting = true := by
        simp [State.internal, he] at hw
        simp [State.waiting, he, hw]
      exact settle_waiting this
  rcases es with _ | ⟨_ | ⟨_ | n, a⟩ | ⟨_ | n, l⟩, es⟩ <;> simp_all [drive, paceRun, paceLeft, Prompt]

theorem settle_ready {s : State} {op : Byte} {x : Exch} (he : s.eng = .running op (.ready x)) (hs : s.softReset = false) :
    settle s = sendFirst x s := by
  simp [settle, internalBound, he, internalRun, State.internal, Label.isInternal, engInternal, hs]

/-- The internal steps of an issued op, when it is at a wait or over after its own step (`startOp`), or stands before a frame. -/
theorem settle_start {s : State} {op : Byte} (he : s.eng = .running op .start) (hs : s.softReset = false) :
    settle s = internalRun 1 (startOp op s) := by
  have h1 : engInternal s = startOp op s := by simp [engInternal, hs, he]
  have h0 : s.internal = true := by simp [State.internal, he, Label.isInternal]
  have h2 : internalBound s = 2 := by simp [internalBound, he]
  rw [settle, h2, internalRun, if_pos h0, h1]

theorem internalRun_ready {s : State} {op : Byte} {x : Exch} (he : s.eng = .running op (.ready x)) (hs : s.softReset = false) :
    internalRun 1 s = sendFirst x s := by
  simp [internalRun, State.internal, he, Label.isInternal, engInternal, hs]

/-! ## The state after a part of a script -/

/-- Counters and locals, requests and label changed, as a part of an exchange changes them. -/
def State.upd (s : State) (sc : Scratch) (ts : List Txn) (l : Label) : State :=
  { s with scratch := sc, bus := s.bus ++ ts, eng := s.eng.moveTo l }

section Upd
variable (s : State) (sc sc' : Scratch) (ts ts' : List Txn) (l l' : Label)
theorem State.ask_eq_upd (t : Txn) : s.ask sc t l = s.upd sc [t] l := rfl
@[simp] theorem State.upd_upd : (s.upd sc ts l).upd sc' ts' l' = s.upd sc' (ts ++ ts') l' := by
  cases h : s.eng <;> simp [State.upd, h]
@[simp] theorem State.upd_ask (t : Txn) : (s.upd sc ts l).ask sc' t l' = s.upd sc' (ts ++ [t]) l' := by
  rw [State.ask_eq_upd, State.upd_upd]
@[simp] theorem State.upd_put : (s.upd sc ts l).put sc' = s.upd sc' ts l := rfl
theorem State.put_eq_upd {op : Byte} (h : s.eng = .running op l) : s.put sc = s.upd sc [] l := by
  simp [State.upd, State.put, h]
@[simp] theorem State.upd_scratch : (s.upd sc ts l).scratch = sc := rfl
@[simp] theorem State.upd_bus : (s.upd sc ts l).bus = s.bus ++ ts := rfl
@[simp] theorem State.upd_eng : (s.upd sc ts l).eng = s.eng.moveTo l := rfl
@[simp] theorem State.upd_params : (s.upd sc ts l).params = s.params := rfl
@[simp] theorem State.upd_status : (s.upd sc ts l).status = s.status := rfl
@[simp] theorem State.upd_irqEn : (s.upd sc ts l).irqEn = s.irqEn := rfl
@[simp] theorem State.upd_donePend : (s.upd sc ts l).donePend = s.donePend := rfl
@[simp] theorem State.upd_arg0 : (s.upd sc ts l).arg0 = s.arg0 := rfl
@[simp] theorem State.upd_arg1 : (s.upd sc ts l).arg1 = s.arg1 := rfl
@[simp] theorem State.upd_arg2 : (s.upd sc ts l).arg2 = s.arg2 := rfl
@[simp] theorem State.upd_res0 : (s.upd sc ts l).res0 = s.res0 := rfl
@[simp] theorem State.upd_res1 : (s.upd sc ts l).res1 = s.res1 := rfl
@[simp] theorem State.upd_res2 : (s.upd sc ts l).res2 = s.res2 := rfl
@[simp] theorem State.upd_res3 : (s.upd sc ts l).res3 = s.res3 := rfl
@[simp] theorem State.upd_blockSize : (s.upd sc ts l).blockSize = s.blockSize := rfl
@[simp] theorem State.upd_errByte : (s.upd sc ts l).errByte = s.errByte := rfl
@[simp] theorem State.upd_errLba : (s.upd sc ts l).errLba = s.errLba := rfl
@[simp] theorem State.upd_cfg : (s.upd sc ts l).cfg = s.cfg := rfl
@[simp] theorem State.upd_part : (s.upd sc ts l).part = s.part := rfl
@[simp] theorem State.upd_vol : (s.upd sc ts l).vol = s.vol := rfl
@[simp] theorem State.upd_dir : (s.upd sc ts l).dir = s.dir := rfl
@[simp] theorem State.upd_nameLen : (s.upd sc ts l).nameLen = s.nameLen := rfl
@[simp] theorem State.upd_blockbuf : (s.upd sc ts l).blockbuf = s.blockbuf := rfl
@[simp] theorem State.upd_namebuf : (s.upd sc ts l).namebuf = s.namebuf := rfl
@[simp] theorem State.upd_a0 : (s.upd sc ts l).a0 = s.a0 := rfl
@[simp] theorem State.upd_a1 : (s.upd sc ts l).a1 = s.a1 := rfl
@[simp] theorem State.upd_a2 : (s.upd sc ts l).a2 = s.a2 := rfl
@[simp] theorem State.upd_softReset : (s.upd sc ts l).softReset = s.softReset := rfl
@[simp] theorem State.upd_inReset : (s.upd sc ts l).inReset = s.inReset := rfl
@[simp] theorem State.upd_dmem : (s.upd sc ts l).dmem = s.dmem := rfl
@[simp] theorem State.upd_events : (s.upd sc ts l).events = s.events := rfl
@[simp] theorem State.upd_reads : (s.upd sc ts l).reads = s.reads := rfl
@[simp] theorem State.upd_draws : (s.upd sc ts l).draws = s.draws := rfl
@[simp] theorem respCount_upd (x : Exch) : respCount x (s.upd sc ts l) = respCount x s := by cases x <;> rfl
@[simp] theorem respBudget_upd (x : Exch) : respBudget x (s.upd sc ts l) = respBudget x s := by cases x <;> rfl
end Upd

@[simp] theorem tx_nil : tx [] = [] := rfl
@[simp] theorem tx_cons (b : Byte) (bs : List Byte) : tx (b :: bs) = .xfer b :: tx bs := rfl
@[simp] theorem tx_append (as bs : List Byte) : tx (as ++ bs) = tx as ++ tx bs := by simp [tx]

/-! ## Answers in a row -/

/-- The engine takes answers in a row; `none` when it does not wait for one of them. -/
def feed : List Byte → State → Option State
  | [], s => some s
  | b :: bs, s => if s.waiting then feed bs (engAnswer (.ok b) s) else none

theorem feed_cons {s : State} (b : Byte) (bs : List Byte) (h : s.waiting = true) :
    feed (b :: bs) s = feed bs (engAnswer (.ok b) s) := by simp [feed, h]

theorem feed_append (as bs : List Byte) (s : State) : feed (as ++ bs) s = (feed as s).bind (feed bs) := by
  induction as generalizing s with
  | nil => rfl
  | cons a as ih =>
    simp only [List.cons_append, feed]
    split
    · exact ih _
    · rfl

theorem feed_trans {as bs : List Byte} {s t u : State} (h1 : feed as s = some t) (h2 : feed bs t = some u) :
    feed (as ++ bs) s = some u := by simp [feed_append, h1, h2]

/-- The engine's run over answers it takes. -/
theorem drive_feed {bs : List Byte} {s t : State} (es : List Event) (h : feed bs s = some t) :
    drive (rx bs ++ es) s = drive es t := by
  induction bs generalizing s with
  | nil => cases h; rfl
  | cons b bs ih =>
    simp only [feed] at h
    split at h
    · rename_i hw
      have e : rx (b :: bs) ++ es = .answer (.ok b) :: (rx bs ++ es) := rfl
      rw [e, drive_answer _ _ hw, ih h]
    · cases h

/-- One exchange over answers it takes. -/
theorem exchange_feed {bs : List Byte} {s t : State} (es : List Event) (h : feed bs s = some t) :
    exchange (rx bs ++ es) s = exchange es t := by
  induction bs generalizing s with
  | nil => cases h; rfl
  | cons b bs ih =>
    simp only [feed] at h
    split at h
    · rename_i hw
      have e : rx (b :: bs) ++ es = .answer (.ok b) :: (rx bs ++ es) := rfl
      rw [e, exchange, if_pos hw, ih h]
    · cases h

/-- An exchange that is over takes no input: all of them stay. -/
theorem exchange_over {s : State} (es : List Event) (h : s.waiting = false) : exchange es s = { s with events := es } := by
  rcases es with _ | ⟨_ | _ | _, es⟩ <;> simp [exchange, h]

/-! ## Exchanges -/

/-- The six answers during a command frame (40_command_engine.md R141): whatever they are, the frame goes out. -/
theorem feed_frame {s : State} {op : Byte} {x : Exch} (g : List Byte) (hg : g.length = 6)
    (he : s.eng = .running op (.frame x)) (hi : s.scratch.i = 0) (hs : s.softReset = false) :
    feed g s = some (frameSent x (s.upd { s.scratch with i := 5 }
      (tx [frameByte s.scratch.frame 1, frameByte s.scratch.frame 2, frameByte s.scratch.frame 3,
        frameByte s.scratch.frame 4, frameByte s.scratch.frame 5]) (.frame x))) := by
  match g, hg with
  | [b0, b1, b2, b3, b4, b5], _ =>
    simp [feed, State.waiting, he, Label.isInternal, engAnswer, hs, frameStep, hi, State.ask_eq_upd]

/-- A whole frame, from its first byte on. -/
theorem feed_sendFirst {s : State} {op : Byte} {x : Exch} (g : List Byte) (hg : g.length = 6)
    (he : s.eng = .running op (.ready x)) (hs : s.softReset = false) :
    feed g (sendFirst x s) = some (frameSent x (s.upd { s.scratch with i := 5 }
      (tx (frameBytes s.scratch.frame)) (.frame x))) := by
  rw [feed_frame (op := op) (x := x) g hg (by simp [sendFirst, he]) (by simp [sendFirst]) (by simp [sendFirst, hs])]
  simp [sendFirst, State.ask_eq_upd, frameBytes]

/-- Response bytes put into `resp` from index `i` on. -/
def fillResp : Vector Byte 5 → Nat → List Byte → Vector Byte 5
  | v, _, [] => v
  | v, i, b :: r => fillResp (v.setIfInBounds i b) (i + 1) r

theorem fillResp_getD (r : List Byte) (v : Vector Byte 5) (i j : Nat) (h : i + r.length ≤ 5) :
    (fillResp v i r).getD j 0 = if i ≤ j ∧ j < i + r.length then r.getD (j - i) 0 else v.getD j 0 := by
  induction r generalizing v i with
  | nil => simp [fillResp]
  | cons b r ih =>
    rw [fillResp, ih _ _ (by simp at h; omega)]
    simp only [List.length_cons] at h ⊢
    by_cases hj : j = i
    · subst hj
      have : ¬ (j + 1 ≤ j ∧ j < j + 1 + r.length) := by omega
      rw [if_neg this, if_pos ⟨Nat.le_refl _, by omega⟩]
      have h5 : j < 5 := by omega
      simp [Vector.getD, h5]
    · by_cases hc : i + 1 ≤ j ∧ j < i + 1 + r.length
      · rw [if_pos hc, if_pos ⟨by omega, by omega⟩]
        obtain ⟨d, hd⟩ : ∃ d, j - i = d + 1 := ⟨j - i - 1, by omega⟩
        have : j - (i + 1) = d := by omega
        rw [hd, this, List.getD_cons_succ]
      · rw [if_neg hc, if_neg (by omega)]
        by_cases h5 : j < 5
        · simp [Vector.getD, h5, Ne.symm hj]
        · simp [Vector.getD, h5]

/-- The response bytes after the first (40_command_engine.md R143). -/
theorem feed_rest {op : Byte} {x : Exch} : ∀ (r : List Byte) (s : State), r ≠ [] →
    s.eng = .running op (.rest x) → s.softReset = false → respCount x s < 2 ^ 16 →
    s.scratch.i.toNat + r.length = respCount x s →
    feed r s = some (exchGot x (s.upd
      { s.scratch with resp := fillResp s.scratch.resp s.scratch.i.toNat r, i := s.scratch.i + BitVec.ofNat 16 r.length }
      (tx (List.replicate (r.length - 1) 0xFF)) (.rest x)))
  | [], _, h, _, _, _, _ => absurd rfl h
  | [c], s, _, he, hs, hb, hc => by
    have hw : s.waiting = true := by simp [State.waiting, he, Label.isInternal]
    simp only [List.length_cons, List.length_nil] at hc
    rw [feed_cons _ _ hw]
    simp only [engAnswer, hs, he, restStep, Bool.false_eq_true, if_false]
    rw [if_neg (by omega), State.put_eq_upd s _ _ he]
    rfl
  | c :: d :: r, s, _, he, hs, hb, hc => by
    have hw : s.waiting = true := by simp [State.waiting, he, Label.isInternal]
    simp only [List.length_cons] at hc
    have hi1 : (s.scratch.i + 1).toNat = s.scratch.i.toNat + 1 := toNat_add_one (n := respCount x s) (by omega) hb
    rw [feed_cons _ _ hw]
    simp only [engAnswer, hs, he, restStep, Bool.false_eq_true, if_false]
    rw [if_pos (by omega), State.ask_eq_upd, feed_rest (op := op) (x := x) (d :: r) _ (by simp) (by simp [he]) (by simp [hs])
      (by simpa using hb)
      (by simp only [State.upd_scratch, List.length_cons, respCount_upd, hi1]; omega)]
    simp only [State.upd_upd, State.upd_scratch, add_one_add, hi1, fillResp]
    rfl

/-- `read_response` over `p` filler bytes and a response that is no filler (40_command_engine.md R143). -/
theorem feed_poll {op : Byte} {x : Exch} (b : Byte) (r : List Byte) (hb : b ≠ 0xFF) :
    ∀ (p : Nat) (s : State), s.eng = .running op (.poll x) → s.softReset = false →
    respBudget x s < 2 ^ 8 → respCount x s < 2 ^ 16 →
    s.scratch.poll.toNat + p ≤ respBudget x s → r.length + 1 = respCount x s →
    ∃ l, feed (List.replicate p 0xFF ++ b :: r) s = some (exchGot x (s.upd
      { s.scratch with
        poll := s.scratch.poll + BitVec.ofNat 8 p
        resp := fillResp s.scratch.resp 0 (b :: r)
        i := BitVec.ofNat 16 (r.length + 1) }
      (tx (List.replicate (p + r.length) 0xFF)) l))
  | 0, s, he, hs, hB, hC, hp, hr => by
    have hw : s.waiting = true := by simp [State.waiting, he, Label.isInternal]
    show ∃ l, feed (b :: r) s = _
    rw [feed_cons _ _ hw]
    simp only [engAnswer, hs, he, pollStep, Bool.false_eq_true, if_false, if_neg hb]
    cases r with
    | nil =>
      refine ⟨.poll x, ?_⟩
      rw [if_pos (by simp at hr; omega), State.put_eq_upd s _ _ he]
      simp only [add_zero_count]
      rfl
    | cons c r =>
      refine ⟨.rest x, ?_⟩
      rw [if_neg (by simp only [List.length_cons] at hr; omega), State.ask_eq_upd,
        feed_rest (op := op) (x := x) (c :: r) _ (by simp) (by simp [he]) (by simp [hs])
          (by simpa using hC) (by simp only [State.upd_scratch, respCount_upd]; simp at hr ⊢; omega)]
      have hi : 1 + BitVec.ofNat 16 (c :: r).length = BitVec.ofNat 16 ((c :: r).length + 1) := one_add_count 16 _
      have hn : 0 + (c :: r).length = (c :: r).length - 1 + 1 := by simp
      simp only [State.upd_upd, State.upd_scratch, hi, hn, fillResp, List.replicate_succ, add_zero_count]
      rfl
  | p + 1, s, he, hs, hB, hC, hp, hr => by
    have hw : s.waiting = true := by simp [State.waiting, he, Label.isInternal]
    show ∃ l, feed (0xFF :: (List.replicate p 0xFF ++ b :: r)) s = _
    rw [feed_cons _ _ hw]
    simp only [engAnswer, hs, he, pollStep, Bool.false_eq_true, if_false, if_true]
    have hp1 : (s.scratch.poll + 1).toNat = s.scratch.poll.toNat + 1 := toNat_add_one (n := respBudget x s) (by omega) hB
    rw [if_pos (by omega), State.ask_eq_upd]
    obtain ⟨l, h⟩ := feed_poll (op := op) (x := x) b r hb p (s.upd { s.scratch with poll := s.scratch.poll + 1 }
      [.xfer 0xFF] (.poll x)) (by simp [he]) (by simp [hs]) (by simpa using hB) (by simpa using hC)
      (by simp only [State.upd_scratch, respBudget_upd, hp1]; omega) (by simp only [respCount_upd]; exact hr)
    refine ⟨l, ?_⟩
    rw [h]
    have hn : p + 1 + r.length = (p + r.length) + 1 := by omega
    simp only [State.upd_upd, State.upd_scratch, add_one_add, hn, List.replicate_succ]
    rfl

/-- `read_response` over filler bytes alone, as many as are left of the budget (40_command_engine.md R143). -/
theorem feed_filler {op : Byte} {x : Exch} :
    ∀ (p : Nat) (s : State), s.eng = .running op (.poll x) → s.softReset = false →
    respBudget x s < 2 ^ 8 → s.scratch.poll.toNat + p = respBudget x s →
    feed (List.replicate (p + 1) 0xFF) s = some (exchNoResp x (s.upd
      { s.scratch with poll := s.scratch.poll + BitVec.ofNat 8 p } (tx (List.replicate p 0xFF)) (.poll x)))
  | 0, s, he, hs, hB, hp => by
    have hw : s.waiting = true := by simp [State.waiting, he, Label.isInternal]
    show feed [0xFF] s = _
    rw [feed_cons _ _ hw]
    simp only [engAnswer, hs, he, pollStep, Bool.false_eq_true, if_false, if_true]
    rw [if_neg (by omega)]
    have : s = s.upd s.scratch [] (.poll x) := by rw [← State.put_eq_upd s _ _ he]; rfl
    simp only [add_zero_count]
    exact congrArg (fun t => some (exchNoResp x t)) this
  | p + 1, s, he, hs, hB, hp => by
    have hw : s.waiting = true := by simp [State.waiting, he, Label.isInternal]
    show feed (0xFF :: List.replicate (p + 1) 0xFF) s = _
    rw [feed_cons _ _ hw]
    simp only [engAnswer, hs, he, pollStep, Bool.false_eq_true, if_false, if_true]
    have hp1 : (s.scratch.poll + 1).toNat = s.scratch.poll.toNat + 1 := toNat_add_one (n := respBudget x s) (by omega) hB
    rw [if_pos (by omega), State.ask_eq_upd, feed_filler (op := op) (x := x) p _ (by simp [he]) (by simp [hs])
      (by simpa using hB) (by simp only [State.upd_scratch, respBudget_upd, hp1]; omega)]
    simp only [State.upd_upd, State.upd_scratch, add_one_add, List.replicate_succ]
    rfl

/-- A whole exchange with its response, from the frame's first byte on: the frame, `p` filler bytes within the budget, the
response (40_command_engine.md R141, R143). -/
theorem feed_exchange {s : State} {op : Byte} {x : Exch} (g : List Byte) (p : Nat) (b : Byte) (r : List Byte)
    (hx : x ≠ .send) (hg : g.length = 6) (hb : b ≠ 0xFF) (he : s.eng = .running op (.ready x))
    (hs : s.softReset = false) (hB : respBudget x s < 2 ^ 8) (hC : respCount x s < 2 ^ 16) (hp : p < respBudget x s)
    (hr : r.length + 1 = respCount x s) :
    ∃ l, feed (g ++ (List.replicate p 0xFF ++ b :: r)) (sendFirst x s) = some (exchGot x (s.upd
      { s.scratch with
        poll := BitVec.ofNat 8 (p + 1)
        resp := fillResp s.scratch.resp 0 (b :: r)
        i := BitVec.ofNat 16 (r.length + 1) }
      (tx (frameBytes s.scratch.frame ++ List.replicate (p + r.length + 1) 0xFF)) l)) := by
  have h0 := feed_sendFirst g hg he hs
  have hf : ∀ t : State, frameSent x t = startPoll x t := by intro t; cases x <;> first | rfl | exact absurd rfl hx
  rw [hf, startPoll, State.upd_ask] at h0
  obtain ⟨l, h⟩ := feed_poll (op := op) (x := x) b r hb p (s.upd { s.scratch with i := 5, poll := 1 }
    (tx (frameBytes s.scratch.frame) ++ [.xfer 0xFF]) (.poll x)) (by simp [he]) (by simp [hs]) (by simpa using hB) (by simpa using hC)
    (by simp only [State.upd_scratch, respBudget_upd]; simp; omega) (by simp only [respCount_upd]; exact hr)
  refine ⟨l, ?_⟩
  rw [feed_trans h0 h]
  have hi : 1 + BitVec.ofNat 8 p = BitVec.ofNat 8 (p + 1) := one_add_count 8 p
  simp only [State.upd_upd, State.upd_scratch, hi, List.replicate_succ, tx_append, List.append_assoc]
  rfl

/-- A whole exchange without a response: the frame, then filler bytes for the whole budget. -/
theorem feed_exchange_none {s : State} {op : Byte} {x : Exch} (g : List Byte) (hx : x ≠ .send) (hg : g.length = 6)
    (he : s.eng = .running op (.ready x)) (hs : s.softReset = false) (hB : respBudget x s < 2 ^ 8)
    (hp : 0 < respBudget x s) : feed (g ++ List.replicate (respBudget x s) 0xFF) (sendFirst x s) = some (exchNoResp x (s.upd
      { s.scratch with poll := BitVec.ofNat 8 (respBudget x s), i := 5 }
      (tx (frameBytes s.scratch.frame ++ List.replicate (respBudget x s) 0xFF)) (.poll x))) := by
  obtain ⟨n, hn⟩ : ∃ n, respBudget x s = n + 1 := ⟨respBudget x s - 1, by omega⟩
  have h0 := feed_sendFirst g hg he hs
  have hf : ∀ t : State, frameSent x t = startPoll x t := by intro t; cases x <;> first | rfl | exact absurd rfl hx
  rw [hf, startPoll, State.upd_ask] at h0
  rw [hn, feed_trans h0 (feed_filler (op := op) (x := x) n _ (by simp [he]) (by simp [hs])
    (by simpa using hB) (by simp only [State.upd_scratch, respBudget_upd]; simp; omega))]
  have hi : 1 + BitVec.ofNat 8 n = BitVec.ofNat 8 (n + 1) := one_add_count 8 n
  simp only [State.upd_upd, State.upd_scratch, hi, List.replicate_succ, tx_append, List.append_assoc]
  rfl

/-! ## Data frames -/

/-- BLOCKBUF with bytes put in from index `k` on. -/
def putBytes (b : List Byte) (k : Nat) : List Byte → List Byte
  | [] => b
  | d :: ds => putBytes (b.set k d) (k + 1) ds

theorem putBytes_eq (b : List Byte) (k : Nat) (ds : List Byte) (h : k + ds.length ≤ b.length) :
    putBytes b k ds = b.take k ++ ds ++ b.drop (k + ds.length) := by
  induction ds generalizing b k with
  | nil => simp [putBytes]
  | cons d ds ih =>
    simp only [List.length_cons] at h
    rw [putBytes, ih _ _ (by simp; omega)]
    have hk : k < b.length := by omega
    have h1 : (b.set k d).take (k + 1) = b.take k ++ [d] := by
      rw [List.take_set, List.take_add_one, List.set_append_right _ _ (by simp)]
      simp [hk, Nat.min_eq_left (Nat.le_of_lt hk)]
    have h2 : (b.set k d).drop (k + 1 + ds.length) = b.drop (k + (ds.length + 1)) := by
      rw [List.drop_set_of_lt (by omega)]
      congr 1; omega
    simp [h1, h2]

/-- The state with another BLOCKBUF. -/
def State.buf (s : State) (b : List Byte) : State := { s with blockbuf := b }

theorem State.buf_upd (s : State) (b : List Byte) (sc : Scratch) (ts : List Txn) (l : Label) :
    (s.buf b).upd sc ts l = (s.upd sc ts l).buf b := rfl

section Buf
variable (s : State) (b : List Byte)
@[simp] theorem State.buf_blockbuf : (s.buf b).blockbuf = b := rfl
@[simp] theorem State.buf_params : (s.buf b).params = s.params := rfl
@[simp] theorem State.buf_status : (s.buf b).status = s.status := rfl
@[simp] theorem State.buf_irqEn : (s.buf b).irqEn = s.irqEn := rfl
@[simp] theorem State.buf_donePend : (s.buf b).donePend = s.donePend := rfl
@[simp] theorem State.buf_arg0 : (s.buf b).arg0 = s.arg0 := rfl
@[simp] theorem State.buf_arg1 : (s.buf b).arg1 = s.arg1 := rfl
@[simp] theorem State.buf_arg2 : (s.buf b).arg2 = s.arg2 := rfl
@[simp] theorem State.buf_res0 : (s.buf b).res0 = s.res0 := rfl
@[simp] theorem State.buf_res1 : (s.buf b).res1 = s.res1 := rfl
@[simp] theorem State.buf_res2 : (s.buf b).res2 = s.res2 := rfl
@[simp] theorem State.buf_res3 : (s.buf b).res3 = s.res3 := rfl
@[simp] theorem State.buf_blockSize : (s.buf b).blockSize = s.blockSize := rfl
@[simp] theorem State.buf_errByte : (s.buf b).errByte = s.errByte := rfl
@[simp] theorem State.buf_errLba : (s.buf b).errLba = s.errLba := rfl
@[simp] theorem State.buf_cfg : (s.buf b).cfg = s.cfg := rfl
@[simp] theorem State.buf_part : (s.buf b).part = s.part := rfl
@[simp] theorem State.buf_vol : (s.buf b).vol = s.vol := rfl
@[simp] theorem State.buf_dir : (s.buf b).dir = s.dir := rfl
@[simp] theorem State.buf_nameLen : (s.buf b).nameLen = s.nameLen := rfl
@[simp] theorem State.buf_namebuf : (s.buf b).namebuf = s.namebuf := rfl
@[simp] theorem State.buf_a0 : (s.buf b).a0 = s.a0 := rfl
@[simp] theorem State.buf_a1 : (s.buf b).a1 = s.a1 := rfl
@[simp] theorem State.buf_a2 : (s.buf b).a2 = s.a2 := rfl
@[simp] theorem State.buf_eng : (s.buf b).eng = s.eng := rfl
@[simp] theorem State.buf_scratch : (s.buf b).scratch = s.scratch := rfl
@[simp] theorem State.buf_bus : (s.buf b).bus = s.bus := rfl
@[simp] theorem State.buf_softReset : (s.buf b).softReset = s.softReset := rfl
@[simp] theorem State.buf_inReset : (s.buf b).inReset = s.inReset := rfl
@[simp] theorem State.buf_dmem : (s.buf b).dmem = s.dmem := rfl
@[simp] theorem State.buf_events : (s.buf b).events = s.events := rfl
@[simp] theorem State.buf_reads : (s.buf b).reads = s.reads := rfl
@[simp] theorem State.buf_draws : (s.buf b).draws = s.draws := rfl
end Buf

theorem State.buf_buf (s : State) (b b' : List Byte) : (s.buf b).buf b' = s.buf b' := rfl

/-- Payload bytes of a data frame (42_block_io.md R200, R203). -/
theorem feed_payload {op : Byte} {u : BlockUse} : ∀ (ds : List Byte) (s : State),
    s.eng = .running op (.data u) → s.softReset = false → s.bs ≤ 512 →
    1 ≤ s.scratch.i.toNat → s.scratch.i.toNat + ds.length ≤ s.bs + 1 →
    feed ds s = some ((s.upd { s.scratch with i := s.scratch.i + BitVec.ofNat 16 ds.length }
      (tx (List.replicate ds.length 0xFF)) (.data u)).buf (putBytes s.blockbuf (s.scratch.i.toNat - 1) ds))
  | [], s, he, hs, hL, h1, h2 => by
    have : s.upd s.scratch [] (.data u) = s := by rw [← State.put_eq_upd s _ _ he]; rfl
    show some s = some ((s.upd { s.scratch with i := s.scratch.i + BitVec.ofNat 16 0 } [] (.data u)).buf s.blockbuf)
    rw [add_zero_count, this]; rfl
  | d :: ds, s, he, hs, hL, h1, h2 => by
    have hw : s.waiting = true := by simp [State.waiting, he, Label.isInternal]
    simp only [List.length_cons] at h2
    have ht : takeDatum d s = s.buf (s.blockbuf.set (s.scratch.i.toNat - 1) d) := by
      simp only [takeDatum, State.buf]
      rw [if_neg (by intro h0; simp [h0] at h1), if_pos (by omega)]
    have hi1 : (s.scratch.i + 1).toNat = s.scratch.i.toNat + 1 := toNat_add_one (n := s.bs + 1) (by omega) (by omega)
    rw [feed_cons _ _ hw]
    simp only [engAnswer, hs, he, dataStep, Bool.false_eq_true, if_false]
    rw [if_pos (by omega), ht, State.ask_eq_upd, feed_payload (op := op) (u := u) ds _
      (by simp [he]) (by simp [hs]) (by exact hL) (by simp only [State.upd_scratch, State.buf_scratch, hi1]; omega)
      (by simp only [State.upd_scratch, State.buf_scratch, hi1, State.bs, State.upd_blockSize, State.buf_blockSize]
          simp only [State.bs] at h2; omega)]
    have hj : s.scratch.i.toNat + 1 - 1 = s.scratch.i.toNat - 1 + 1 := by omega
    simp only [State.buf_upd, State.buf_scratch, State.buf_blockbuf, State.upd_scratch, State.upd_upd, State.buf_buf,
      List.length_cons, hi1, add_one_add, putBytes, hj, List.replicate_succ]
    rfl

/-- A whole data frame with its token and checksum bytes (42_block_io.md R200, 30_encoding.md R114). -/
theorem feed_data {s : State} {op : Byte} {u : BlockUse} (tok c0 c1 : Byte) (ds : List Byte)
    (he : s.eng = .running op (.data u)) (hs : s.softReset = false) (hi : s.scratch.i = 0) (hd : ds.length = s.bs)
    (hL : s.bs ≤ 512) (hb : s.bs ≤ s.blockbuf.length) :
    feed (tok :: (ds ++ [c0, c1])) s = some (dataDone u ((s.upd
      { s.scratch with i := BitVec.ofNat 16 (s.bs + 2), tok := tok } (tx (List.replicate (s.bs + 2) 0xFF)) (.data u)).buf
        (ds ++ s.blockbuf.drop s.bs))) := by
  have hw : s.waiting = true := by simp [State.waiting, he, Label.isInternal]
  have h1 : engAnswer (.ok tok) s = s.upd { s.scratch with i := 1, tok := tok } [.xfer 0xFF] (.data u) := by
    simp only [engAnswer, hs, he, dataStep, Bool.false_eq_true, if_false]
    rw [if_pos (by simp [hi])]
    simp only [takeDatum, hi, if_true]
    rfl
  have hp := feed_payload (op := op) (u := u) ds (s.upd { s.scratch with i := 1, tok := tok } [.xfer 0xFF] (.data u))
    (by simp [he]) (by simp [hs]) (by exact hL) (by simp)
    (by simp only [State.upd_scratch, State.bs, State.upd_blockSize]; simp only [State.bs] at hd; simp; omega)
  rw [feed_cons _ _ hw, h1, feed_append, hp]
  have h11 : (1 : BitVec 16).toNat - 1 = 0 := by decide
  have hib : 1 + BitVec.ofNat 16 s.bs = BitVec.ofNat 16 (s.bs + 1) := one_add_count 16 _
  simp only [Option.bind_some, State.upd_upd, State.upd_scratch, h11, State.upd_blockbuf]
  rw [putBytes_eq _ _ _ (by omega)]
  simp only [List.take_zero, List.nil_append, Nat.zero_add, hd, hib]
  generalize hB : ds ++ s.blockbuf.drop s.bs = B
  have hbs : ∀ (t : State), t.blockSize = s.blockSize → t.bs = s.bs := by intro t h; simp [State.bs, h]
  rw [feed_cons _ _ (by simp [State.waiting, he, Label.isInternal])]
  have h2 : ∀ (t : State), t.eng = .running op (.data u) → t.softReset = false → t.scratch.i = BitVec.ofNat 16 (s.bs + 1) →
      t.bs = s.bs → engAnswer (.ok c0) t = t.ask { t.scratch with i := BitVec.ofNat 16 (s.bs + 2) } (.xfer 0xFF) (.data u) := by
    intro t a b c d
    have hn : t.scratch.i.toNat = s.bs + 1 := by rw [c, BitVec.toNat_ofNat, Nat.mod_eq_of_lt (by omega)]
    simp only [engAnswer, a, b, dataStep, Bool.false_eq_true, if_false]
    rw [if_pos (by omega)]
    simp only [takeDatum]
    rw [if_neg (by intro h0; simp [h0] at hn), if_neg (by omega), c]
    exact congrArg (fun i => t.ask { t.scratch with i := i } (.xfer 0xFF) (.data u)) (BitVec.ofNat_add (s.bs + 1) 1).symm
  have h3 : ∀ (t : State), t.eng = .running op (.data u) → t.softReset = false → t.scratch.i = BitVec.ofNat 16 (s.bs + 2) →
      t.bs = s.bs → engAnswer (.ok c1) t = dataDone u t := by
    intro t a b c d
    have hn : t.scratch.i.toNat = s.bs + 2 := by rw [c, BitVec.toNat_ofNat, Nat.mod_eq_of_lt (by omega)]
    simp only [engAnswer, a, b, dataStep, Bool.false_eq_true, if_false]
    rw [if_neg (by omega)]
    simp only [takeDatum]
    rw [if_neg (by intro h0; simp [h0] at hn), if_neg (by omega)]
  rw [h2]
  · rw [feed_cons]
    · rw [h3]
      · rw [State.ask_eq_upd, State.buf_upd, State.upd_upd]
        have hrep : [Txn.xfer 0xFF] ++ tx (List.replicate s.bs 0xFF) ++ [Txn.xfer 0xFF]
            = tx (List.replicate (s.bs + 2) 0xFF) := by
          rw [List.replicate_succ', List.replicate_succ]
          simp [tx]
        rw [hrep]
        rfl
      · simp [he]
      · simp [hs]
      · simp
      · exact hbs _ rfl
    · simp [State.waiting, he, Label.isInternal]
  · simp [he]
  · simp [hs]
  · simp
  · exact hbs _ rfl

/-- The counters and locals after a block read. -/
def blockScratch (sc : Scratch) (p bs : Nat) (tok : Byte) : Scratch :=
  { sc with poll := BitVec.ofNat 8 (p + 1), resp := fillResp sc.resp 0 [0x00], i := BitVec.ofNat 16 (bs + 2), tok := tok }

/-- BUFVALID set or cleared. -/
def State.validate (s : State) (v : Bool) : State :=
  { s with status := { s.status with bufvalid := v } }

/-- A whole block read with status 0x00, whatever its token and checksum bytes (42_block_io.md R200). -/
theorem feed_block {s : State} {op : Byte} {u : BlockUse} (g : List Byte) (p : Nat) (tok c0 c1 : Byte)
    (ds : List Byte) (hg : g.length = 6) (he : s.eng = .running op (.ready (.block u))) (hs : s.softReset = false)
    (hp : p < s.cfg.respBudget.toNat) (hd : ds.length = s.bs) (hL : s.bs ≤ 512)
    (hb : s.bs ≤ s.blockbuf.length) :
    feed ((g ++ (List.replicate p 0xFF ++ [0x00])) ++ (tok :: (ds ++ [c0, c1]))) (sendFirst (.block u) s)
      = some (dataDone u ((s.upd (blockScratch s.scratch p s.bs tok)
        (tx (frameBytes s.scratch.frame ++ List.replicate (p + 1 + s.bs + 3) 0xFF)) (.data u)).buf
          (ds ++ s.blockbuf.drop s.bs))) := by
  obtain ⟨l, h⟩ := feed_exchange (op := op) (x := .block u) (s := s) g p 0x00 []
    (by simp) hg (by decide) he hs (BitVec.isLt _) (by simp [respCount]) hp rfl
  have hst : ∀ t : State, t.scratch.resp = fillResp s.scratch.resp 0 [0x00] →
      exchGot (.block u) t = t.ask { t.scratch with i := 0 } (.xfer 0xFF) (.data u) := by
    intro t ht
    have h0 : t.scratch.resp[0] = 0x00 := by
      simp [ht, fillResp]
    simp only [exchGot, gotStatus, h0, if_true]
  rw [hst _ rfl, State.upd_ask] at h
  rw [feed_append, h, Option.bind_some, feed_data (op := op) (u := u) tok c0 c1 ds]
  · simp only [State.upd_upd, State.upd_scratch, State.upd_blockbuf]
    have hbs : ∀ (sc : Scratch) (ts : List Txn) (l : Label), (s.upd sc ts l).bs = s.bs := fun _ _ _ => rfl
    simp only [hbs]
    simp only [List.length_nil, Nat.add_zero]
    have hts : tx (frameBytes s.scratch.frame ++ List.replicate (p + 1) 0xFF) ++ [Txn.xfer 0xFF]
        ++ tx (List.replicate (s.bs + 2) 0xFF) = tx (frameBytes s.scratch.frame ++ List.replicate (p + 1 + s.bs + 3) 0xFF) := by
      have hn : p + 1 + s.bs + 3 = (p + 1) + (1 + (s.bs + 2)) := by omega
      rw [hn, List.replicate_add (m := p + 1), List.replicate_add (m := 1)]
      simp [tx]
    rw [hts]
    rfl
  · simp [he]
  · simp [hs]
  · simp
  · exact hd
  · exact hL
  · exact hb

/-- A block read that succeeds goes on with its caller (42_block_io.md R203). -/
theorem feed_block_ok {s : State} {op : Byte} {u : BlockUse} (g : List Byte) (p : Nat) (c0 c1 : Byte)
    (ds : List Byte) (hg : g.length = 6) (he : s.eng = .running op (.ready (.block u))) (hs : s.softReset = false)
    (hp : p < s.cfg.respBudget.toNat) (hd : ds.length = s.bs) (hL : s.bs ≤ 512)
    (hb : s.bs ≤ s.blockbuf.length) :
    feed ((g ++ (List.replicate p 0xFF ++ [0x00])) ++ (0xFE :: (ds ++ [c0, c1]))) (sendFirst (.block u) s)
      = some (afterBlock u (((s.upd (blockScratch s.scratch p s.bs 0xFE)
        (tx (frameBytes s.scratch.frame ++ List.replicate (p + 1 + s.bs + 3) 0xFF)) (.data u)).buf
          (ds ++ s.blockbuf.drop s.bs)).validate true)) := by
  rw [feed_block g p 0xFE c0 c1 ds hg he hs hp hd hL hb]
  simp only [dataDone, blockScratch, State.buf_scratch, State.upd_scratch, if_true]
  rfl

/-! ## Runs over a script -/

theorem rx_append (as bs : List Byte) : rx (as ++ bs) = rx as ++ rx bs := by simp [rx]

theorem rxExchange_eq (g : List Byte) (p : Nat) (r : List Byte) :
    rxExchange g p r = rx (g ++ (List.replicate p 0xFF ++ r)) := by simp [rxExchange, rx_append]

theorem rxBlock_eq (g : List Byte) (p : Nat) (ds : List Byte) (c0 c1 : Byte) :
    rxBlock g p ds c0 c1 = rx ((g ++ (List.replicate p 0xFF ++ [0x00])) ++ (0xFE :: (ds ++ [c0, c1]))) := by
  simp [rxBlock, rxExchange, rx]

/-- The engine's run from before a frame over answers it takes from the frame's first byte on. -/
theorem drive_ready {s t : State} {op : Byte} {x : Exch} {bs : List Byte} {es : List Event}
    (he : s.eng = .running op (.ready x)) (hs : s.softReset = false) (hne : bs ≠ [])
    (h : feed bs (sendFirst x s) = some t) : drive (rx bs ++ es) s = drive es t := by
  match bs, hne with
  | b :: bs, _ =>
    rw [drive_prompt (prompt_rx_cons b bs es) (by
      rw [settle_ready he hs]; simp [State.internal, sendFirst, he, Label.isInternal]), settle_ready he hs]
    exact drive_feed es h

/-- The engine's run of an op whose own step ends before a frame. -/
theorem drive_start_ready {s t : State} {op : Byte} {x : Exch} {bs : List Byte} {es : List Event}
    (he : s.eng = .running op .start) (hs : s.softReset = false) (hr : (startOp op s).eng = .running op (.ready x))
    (hs' : (startOp op s).softReset = false) (hne : bs ≠ [])
    (h : feed bs (sendFirst x (startOp op s)) = some t) : drive (rx bs ++ es) s = drive es t := by
  match bs, hne with
  | b :: bs, _ =>
    have hst : settle s = sendFirst x (startOp op s) := by
      rw [settle_start he hs, internalRun_ready hr hs']
    rw [drive_prompt (prompt_rx_cons b bs es) (by
      rw [hst]; simp [State.internal, sendFirst, hr, Label.isInternal]), hst]
    exact drive_feed es h

/-- The engine's run of an op whose own step ends at a wait. -/
theorem drive_start_waiting {s : State} {op : Byte} {es : List Event}
    (he : s.eng = .running op .start) (hs : s.softReset = false) (hp : Prompt es)
    (hr : (startOp op s).internal = false) : drive es s = drive es (startOp op s) := by
  have hst : settle s = startOp op s := by
    rw [settle_start he hs, internalRun_of_not_internal hr]
  rw [drive_prompt hp (by rw [hst]; exact hr), hst]

/-- The engine's run of an op whose own step ends it. -/
theorem drive_start_over {s : State} {op : Byte} {es : List Event}
    (he : s.eng = .running op .start) (hs : s.softReset = false) (hp : Prompt es) (hr : (startOp op s).eng = .idle) :
    drive es s = { startOp op s with events := es } := by
  rw [drive_start_waiting he hs hp (State.internal_of_idle hr), drive_idle es hr]

end Sys2Proof.Machine
end

