-- ==== Sys2Proof/Laws/Flags.lean ====
section
/-! SUPPORT. The response helpers of 40_command_engine.md R145 to R148 by the bits of the response bytes. -/

namespace Sys2Proof.Machine

/-- OCR bit 30 is bit 6 of its first byte. -/
theorem isHighCapacity_be32 (b1 b2 b3 b4 : Byte) : isHighCapacity (be32 b1 b2 b3 b4) = b1.getLsbD 6 := by
  unfold isHighCapacity be32
  rw [BitVec.getLsbD_append, BitVec.getLsbD_append, BitVec.getLsbD_append]
  simp

/-- OCR bits 23:15 are all 0 when its second byte and bit 7 of its third are. -/
theorem not_hasAcceptableVoltage_be32 (b1 b2 b3 b4 : Byte) :
    (!hasAcceptableVoltage (be32 b1 b2 b3 b4)) = (b2 == 0 && !b3.getLsbD 7) := by
  have h : (be32 b1 b2 b3 b4).extractLsb' 15 9 = (b2 ++ BitVec.ofBool (b3.getLsbD 7) : BitVec (8 + 1)) := by
    apply BitVec.eq_of_getLsbD_eq
    intro i hi
    unfold be32
    rw [BitVec.getLsbD_extractLsb', BitVec.getLsbD_append, BitVec.getLsbD_append, BitVec.getLsbD_append, BitVec.getLsbD_append]
    have h1 : ¬ 15 + i < 8 := by omega
    by_cases h0 : i = 0
    · subst h0; simp
    · have h2 : ¬ 15 + i - 8 < 8 := by omega
      have h4 : ¬ i < 1 := by omega
      have h5 : 15 + i - 8 - 8 = i - 1 := by omega
      have h6 : i - 1 < 8 := by omega
      simp only [h1, h2, h4, if_false, h5, h6, if_true, hi, decide_true, Bool.true_and]
  have h0 : ∀ b : Byte, ((b ++ BitVec.ofBool false : BitVec (8 + 1)) != 0) = (b != 0) := by decide
  have h1 : ∀ b : Byte, ((b ++ BitVec.ofBool true : BitVec (8 + 1)) != 0) = true := by decide
  unfold hasAcceptableVoltage
  rw [h]
  cases b3.getLsbD 7
  · rw [h0]; simp [bne]
  · rw [h1]; simp

end Sys2Proof.Machine
end

