-- ==== Sys2Proof/Laws/Memory.lean ====
section
/-! SUPPORT. Destination memory: a read after a write, and the canonical form. -/

namespace Sys2Proof.Machine

theorem Memory.read_write_same (m : Memory) (a : Nat) (v : Byte) : (Memory.write m a v).read a = some v := by
  induction m with
  | nil => simp [Memory.write, Memory.read]
  | cons c m ih =>
    unfold Memory.write
    split
    · simp [Memory.read]
    · split
      · simp [Memory.read]
      · rename_i h1 h2
        simp [Memory.read, ih, Ne.symm h2]

theorem Memory.read_write_other (m : Memory) {a b : Nat} (v : Byte) (h : b ≠ a) :
    (Memory.write m a v).read b = m.read b := by
  induction m with
  | nil => simp [Memory.write, Memory.read, Ne.symm h]
  | cons c m ih =>
    unfold Memory.write
    split
    · simp [Memory.read, Ne.symm h]
    · split
      · rename_i h1 h2
        simp [Memory.read, Ne.symm h, ← h2]
      · simp [Memory.read, ih]

/-- What a read after a write gives, said once. -/
theorem Memory.read_write (m : Memory) (a b : Nat) (v : Byte) :
    (Memory.write m a v).read b = if b = a then some v else m.read b := by
  split
  · rename_i h; subst h; exact m.read_write_same _ v
  · rename_i h; exact m.read_write_other v h

theorem Memory.wfFrom_write (m : Memory) (lo : Option Nat) {a : Nat} (v : Byte) (ha : a < 2 ^ 32)
    (hlo : ∀ l, lo = some l → l < a) (h : Memory.wfFrom lo m = true) : Memory.wfFrom lo (Memory.write m a v) = true := by
  induction m generalizing lo with
  | nil =>
    cases lo with
    | none => simpa [Memory.write, Memory.wfFrom] using ha
    | some l => simpa [Memory.write, Memory.wfFrom, hlo l rfl] using ha
  | cons c m ih =>
    unfold Memory.write
    simp only [Memory.wfFrom, Bool.and_eq_true, decide_eq_true_eq] at h
    split
    · rename_i h1
      cases lo with
      | none => simp_all [Memory.wfFrom]
      | some l => simp_all [Memory.wfFrom]
    · split
      · rename_i h1 h2
        subst h2
        simp only [Memory.wfFrom, Bool.and_eq_true, decide_eq_true_eq]
        exact h
      · rename_i h1 h2
        simp only [Memory.wfFrom, Bool.and_eq_true, decide_eq_true_eq]
        refine ⟨h.1, ih (some c.1) (fun l hl => ?_) h.2⟩
        cases hl
        omega

/-- Every DMEM write keeps the canonical form. -/
theorem Memory.wf_write {m : Memory} (a : Word) (v : Byte) (h : m.wf = true) : (m.write a.toNat v).wf = true :=
  Memory.wfFrom_write m none v a.isLt (by intro l hl; cases hl) h

theorem State.memWrite_wf {s : State} (a : Word) (v : Byte) (h : s.dmem.wf = true) : (s.memWrite a v).dmem.wf = true :=
  Memory.wf_write a v h

/-- The reset state's DMEM has the canonical form. -/
theorem State.reset_dmem_wf : State.reset.dmem.wf = true := rfl

end Sys2Proof.Machine
end

