-- ==== Sys2Proof/Laws/Invariant.lean ====
section
/-! SUPPORT. Every procedure of the engine keeps the invariant, said once for each. -/

namespace Sys2Proof.Machine

/-! ## States in the middle of an op -/

/-- What the invariant says apart from the engine's place, the completion status and the resets. -/
structure State.CoreInv (s : State) : Prop where
  legal : s.params.legal = true
  session : SessionInv s.params s.status s.blockSize
  volume : VolumeInv s.status.mounted s.vol
  cfg : CfgInv s.cfg
  buffers : BufferInv s.params s.blockbuf s.namebuf s.nameLen
  scan : ScanInv s.params s.status s.blockSize s.dir
  dmem : s.dmem.wf = true

/-- An op runs, no reset is in progress, and the completion status is clear. -/
structure State.Live (s : State) : Prop extends s.CoreInv where
  done : s.status.done = false
  err : s.status.err = false
  errcode : s.status.errcode = .none
  soft : s.softReset = false
  held : s.inReset = false

theorem State.Inv.core {s : State} (h : s.Inv) : s.CoreInv :=
  ⟨h.legal, h.session, h.volume, h.cfg, h.buffers, h.scan, h.dmem⟩

theorem State.Inv.not_held {s : State} (h : s.Inv) (he : s.eng ≠ .idle) : s.inReset = false := by
  cases hr : s.inReset with
  | false => rfl
  | true => exact absurd (congrArg State.eng (h.held hr)) he

theorem State.Inv.live {s : State} {op : Byte} {l : Label} (h : s.Inv) (he : s.eng = .running op l)
    (hs : s.softReset = false) : s.Live := by
  have hne : s.eng ≠ .idle := by simp [he]
  have hd : s.status.done = false := by
    cases hd : s.status.done with
    | false => rfl
    | true => exact absurd (h.completion.done hd) hne
  have herr : s.status.err = false := by
    cases herr : s.status.err with
    | false => rfl
    | true => simp [h.completion.errDone herr] at hd
  refine ⟨h.core, hd, herr, ?_, hs, h.not_held hne⟩
  have := h.completion.err
  rw [herr] at this
  simpa using this.symm

/-- A live state at a place of its op's procedure. -/
theorem State.Live.inv {s : State} {op : Byte} {l : Label} (h : s.Live) (he : s.eng = .running op l)
    (hp : l.Place op s) : s.Inv where
  legal := h.legal
  session := h.session
  volume := h.volume
  cfg := h.cfg
  buffers := h.buffers
  scan := h.scan
  completion := ⟨by simp [h.done], by simp [h.err, h.errcode], by simp [h.err]⟩
  engine := by simp only [State.EngineInv, he]; exact hp
  soft := by simp [h.soft]
  held := by simp [h.held]
  dmem := h.dmem

theorem SessionInv.complete {p : Params} {st : Status} {size : Word} (h : SessionInv p st size) (e : ErrCode) :
    SessionInv p { st with done := true, err := e != .none, errcode := e } size :=
  ⟨h.sizes, h.ready, h.stages, h.failed, h.hc, h.spedUp, h.mounted, h.bufvalid⟩

theorem ScanInv.complete {p : Params} {st : Status} {size : Word} {d : Dir} (h : ScanInv p st size d) (e : ErrCode) :
    ScanInv p { st with done := true, err := e != .none, errcode := e } size d :=
  ⟨h.active, h.inactive, h.loaded, h.slot, h.frags, h.units⟩

/-- Op completion keeps the invariant. -/
theorem State.Live.complete_inv {s : State} (h : s.Live) (e : ErrCode) : (s.complete e).Inv where
  legal := h.legal
  session := h.session.complete e
  volume := h.volume
  cfg := h.cfg
  buffers := h.buffers
  scan := h.scan.complete e
  completion := ⟨fun _ => rfl, rfl, fun _ => rfl⟩
  engine := trivial
  soft := fun hs => absurd (h.soft.symm.trans hs) (by simp)
  held := fun hs => absurd (h.held.symm.trans hs) (by simp)
  dmem := h.dmem

theorem State.Live.put {s : State} (h : s.Live) (sc : Scratch) : (s.put sc).Live := ⟨⟨h.legal, h.session, h.volume, h.cfg, h.buffers, h.scan, h.dmem⟩, h.done, h.err, h.errcode, h.soft, h.held⟩
theorem State.Live.ask {s : State} (h : s.Live) (sc : Scratch) (t : Txn) (l : Label) : (s.ask sc t l).Live := ⟨⟨h.legal, h.session, h.volume, h.cfg, h.buffers, h.scan, h.dmem⟩, h.done, h.err, h.errcode, h.soft, h.held⟩
theorem State.Live.build {s : State} (h : s.Live) (x : Exch) (idx : BitVec 6) (arg : Word) : (s.build x idx arg).Live := ⟨⟨h.legal, h.session, h.volume, h.cfg, h.buffers, h.scan, h.dmem⟩, h.done, h.err, h.errcode, h.soft, h.held⟩
theorem State.Live.goTo {s : State} (h : s.Live) (l : Label) : (s.goTo l).Live := ⟨⟨h.legal, h.session, h.volume, h.cfg, h.buffers, h.scan, h.dmem⟩, h.done, h.err, h.errcode, h.soft, h.held⟩

/-- A block held in reset, or after a soft reset: the invariant needs only legal parameters. -/
theorem State.fresh_core {p : Params} (h : p.legal = true) : (State.fresh p).CoreInv := by
  have hl := h
  simp only [Params.legal, Bool.and_eq_true, bne_iff_ne, ne_eq, decide_eq_true_eq, Bool.or_eq_true, beq_iff_eq] at h
  obtain ⟨⟨⟨⟨⟨⟨⟨⟨h1, h2⟩, h3⟩, h4⟩, h5⟩, h6⟩, h7⟩, h8⟩, h9⟩ := h
  refine ⟨?_, ?_, ?_, ?_, ?_, ?_, rfl⟩
  · exact hl
  · constructor <;> simp [State.fresh, Status.zero]
  · constructor <;> simp [State.fresh, Status.zero]
  · constructor <;> simp only [State.fresh, Cfg.default]
    · have : p.respBudget.toNat ≠ 0 := fun hc => h2 (BitVec.eq_of_toNat_eq (by simpa using hc))
      omega
    · have : p.resetRetries.toNat ≠ 0 := fun hc => h3 (BitVec.eq_of_toNat_eq (by simpa using hc))
      omega
    · have : p.initRetries.toNat ≠ 0 := fun hc => h4 (BitVec.eq_of_toNat_eq (by simpa using hc))
      omega
    · exact h5
  · constructor <;> simp [State.fresh]
  · constructor <;> simp [State.fresh, Status.zero]

theorem State.blockReset_inv {s : State} (h : s.params.legal = true) (hm : s.dmem.wf = true) : s.blockReset.Inv := by
  have hc := State.fresh_core h
  exact ⟨h, hc.session, hc.volume, hc.cfg, hc.buffers, hc.scan,
    ⟨fun _ => rfl, rfl, fun hd => by simp [State.blockReset, State.fresh, Status.zero] at hd⟩, trivial,
    fun hs => by simp [State.blockReset, State.fresh] at hs, fun hs => by simp [State.blockReset, State.fresh] at hs, hm⟩

theorem Eng.moveTo_of_running {e : Eng} {op : Byte} {l : Label} (he : e = .running op l) (l' : Label) :
    e.moveTo l' = .running op l' := by rw [he]; rfl

/-! ## Bring-up -/

theorem SessionInv.size_zero {p : Params} {st : Status} {size : Word} (h : SessionInv p st size) (h1 : st.stage ≠ .ready)
    (h2 : st.stage ≠ .failed) : size = 0 := by
  by_contra hc
  rcases h.stages hc with h' | h'
  · exact h1 h'
  · exact h2 h'

/-- Before Ready the bring-up may write STATE, V2 and VOLT_WARN. -/
theorem SessionInv.setStage {p : Params} {st : Status} {size : Word} (h : SessionInv p st size) (hz : size = 0)
    (g : Stage) (v2 vw : Bool) (hg : g ≠ .ready) :
    SessionInv p { st with stage := g, v2 := v2, voltWarn := vw } size := by
  subst hz
  have hne : ¬ (0 : Word) = 512 := by decide
  refine ⟨.inl rfl, fun hr => absurd hr hg, fun hn => absurd rfl hn, fun _ hn => absurd rfl hn, ?_, h.spedUp, h.mounted,
    h.bufvalid⟩
  intro hh
  exact absurd (h.hc hh).2 hne

theorem State.Live.setStage {s : State} (h : s.Live) (hz : s.blockSize = 0) (g : Stage) (v2 vw : Bool) (hg : g ≠ .ready) :
    State.Live { s with status := { s.status with stage := g, v2 := v2, voltWarn := vw } } :=
  ⟨⟨h.legal, h.session.setStage hz g v2 vw hg, h.volume, h.cfg, h.buffers,
    ⟨h.scan.active, h.scan.inactive, h.scan.loaded, h.scan.slot, h.scan.frags, h.scan.units⟩, h.dmem⟩,
    h.done, h.err, h.errcode, h.soft, h.held⟩

theorem bringupFail_inv {s : State} (h : s.Live) (hz : s.blockSize = 0) (e : ErrCode) : (bringupFail e s).Inv :=
  (h.setStage hz .failed s.status.v2 s.status.voltWarn (by decide)).complete_inv e

theorem State.Live.blockSize_zero {s : State} (h : s.Live) (h1 : s.status.stage ≠ .ready) (h2 : s.status.stage ≠ .failed) :
    s.blockSize = 0 := h.session.size_zero h1 h2

theorem resetAttempt_inv {s : State} {op : Byte} {l : Label} (h : s.Live) (he : s.eng = .running op l) (ho : op = 0x01)
    (hst : s.status.stage = .warmedUp) (n : Byte) (h1 : 1 ≤ n.toNat) (h2 : n.toNat ≤ s.cfg.resetRetries.toNat) :
    (resetAttempt n s).Inv :=
  ((h.put _).build .reset 0 0).inv (op := op) (l := .ready .reset) (Eng.moveTo_of_running he _) ⟨⟨ho, hst, h1, h2⟩, by simp, rfl⟩

theorem afterWarmup_inv {s : State} {op : Byte} {l : Label} (h : s.Live) (he : s.eng = .running op l) (ho : op = 0x01)
    (hst : s.status.stage = .unpowered) : (afterWarmup s).Inv := by
  have hz := h.blockSize_zero (by simp [hst]) (by simp [hst])
  exact resetAttempt_inv (h.setStage hz .warmedUp s.status.v2 s.status.voltWarn (by decide)) (op := op) (l := l) he ho rfl 1
    (Nat.le_refl _) h.cfg.resetRetries

theorem nextReset_inv {s : State} {op : Byte} {l : Label} (h : s.Live) (he : s.eng = .running op l)
    (hp : Exch.Place .reset op s) : (nextReset s).Inv := by
  obtain ⟨ho, hst, h1, h2⟩ := hp
  unfold nextReset
  split
  · rename_i hlt
    have ha : (s.scratch.attempt + 1).toNat = s.scratch.attempt.toNat + 1 := toNat_add_one hlt (BitVec.isLt _)
    exact resetAttempt_inv h he ho hst _ (by omega) (by omega)
  · exact bringupFail_inv h (h.blockSize_zero (by simp [hst]) (by simp [hst])) _

theorem gotReset_inv {s : State} {op : Byte} {l : Label} (h : s.Live) (he : s.eng = .running op l)
    (hp : Exch.Place .reset op s) : (gotReset s).Inv := by
  obtain ⟨ho, hst, h1, h2⟩ := hp
  unfold gotReset
  split
  · have hz := h.blockSize_zero (by simp [hst]) (by simp [hst])
    exact ((h.setStage hz .reset s.status.v2 s.status.voltWarn (by decide)).build .iface 8 _).inv (op := op)
      (l := .ready .iface) (Eng.moveTo_of_running he _) ⟨⟨ho, rfl⟩, by simp, rfl⟩
  · exact nextReset_inv h he ⟨ho, hst, h1, h2⟩

theorem initAttempt_inv {s : State} {op : Byte} {l : Label} (h : s.Live) (he : s.eng = .running op l) (ho : op = 0x01)
    (hst : s.status.stage = .versionChecked) (n : Byte) (h1 : 1 ≤ n.toNat) (h2 : n.toNat ≤ s.cfg.initRetries.toNat) :
    (initAttempt n s).Inv :=
  ((h.put _).build .marker 55 0).inv (op := op) (l := .ready .marker) (Eng.moveTo_of_running he _) ⟨⟨ho, hst, h1, h2⟩, by simp, rfl⟩

theorem nextInit_inv {s : State} {op : Byte} {l : Label} (h : s.Live) (he : s.eng = .running op l)
    (hp : Exch.Place .marker op s) : (nextInit s).Inv := by
  obtain ⟨ho, hst, h1, h2⟩ := hp
  unfold nextInit
  split
  · rename_i hlt
    have ha : (s.scratch.attempt + 1).toNat = s.scratch.attempt.toNat + 1 := toNat_add_one hlt (BitVec.isLt _)
    exact initAttempt_inv h he ho hst _ (by omega) (by omega)
  · exact bringupFail_inv h (h.blockSize_zero (by simp [hst]) (by simp [hst])) _

theorem gotIface_inv {s : State} {op : Byte} {l : Label} (h : s.Live) (he : s.eng = .running op l)
    (hp : Exch.Place .iface op s) : (gotIface s).Inv := by
  obtain ⟨ho, hst⟩ := hp
  have hz := h.blockSize_zero (by simp [hst]) (by simp [hst])
  have hl := h.setStage hz .versionChecked (ifaceMatches s.params s.scratch.resp) s.status.voltWarn (by decide)
  simp only [gotIface]
  split
  · exact initAttempt_inv hl (op := op) (l := l) he ho rfl 1 (Nat.le_refl _) h.cfg.initRetries
  · rename_i hv
    exact (hl.build .ocr 58 0).inv (op := op) (l := .ready .ocr) (Eng.moveTo_of_running he _) ⟨⟨ho, by simp [hv]⟩, by simp, rfl⟩

theorem gotMarker_inv {s : State} {op : Byte} {l : Label} (h : s.Live) (he : s.eng = .running op l)
    (hp : Exch.Place .marker op s) : (gotMarker s).Inv := by
  unfold gotMarker
  split
  · exact (h.build .activate 41 _).inv (op := op) (l := .ready .activate) (Eng.moveTo_of_running he _) ⟨hp, by simp, rfl⟩
  · exact nextInit_inv h he hp

theorem enterReady_inv {s : State} (h : s.Live) (hz : s.blockSize = 0) (hc : Bool)
    (hv : hc = true → s.status.v2 = true) : (enterReady hc s).Inv := by
  have hb : s.status.bufvalid = false := by
    cases hb : s.status.bufvalid with
    | false => rfl
    | true => exact absurd hz (h.session.bufvalid hb)
  have hd : s.status.dirActive = false := by
    cases hd : s.status.dirActive with
    | false => rfl
    | true => exact absurd hz (h.scan.active hd).2.1
  have hm : s.status.mounted = false := by
    cases hm : s.status.mounted with
    | false => rfl
    | true => exact absurd ((h.session.mounted hm).symm.trans hz) (by decide)
  have hsz : ∀ n : Nat, n = 256 ∨ n = 512 → BitVec.ofNat 32 n ≠ (0 : Word) := by
    intro n hn; rcases hn with rfl | rfl <;> decide
  have hl := h.legal
  simp only [Params.legal, Bool.and_eq_true, Bool.or_eq_true, beq_iff_eq] at hl
  have hstd := hl.1.1.1.1.1.1.1.1
  have hn : BitVec.ofNat 32 (if hc then Config.hcBlockSize else s.params.stdBlockSize) ≠ (0 : Word) := by
    apply hsz; split
    · right; rfl
    · exact hstd
  refine State.Live.complete_inv (s := { s with
    status := { s.status with hc := hc, stage := .ready }
    blockSize := BitVec.ofNat 32 (if hc then Config.hcBlockSize else s.params.stdBlockSize) })
    ⟨⟨h.legal, ⟨?_, fun _ => hn, fun _ => .inl rfl, fun hc => absurd hc (by simp), ?_, fun _ => hn, ?_, fun _ => hn⟩,
      h.volume, h.cfg, h.buffers,
      ⟨fun ha => absurd (hd.symm.trans ha) (by simp), h.scan.inactive, h.scan.loaded, ?_, h.scan.frags, h.scan.units⟩,
      h.dmem⟩, h.done, h.err, h.errcode, h.soft, h.held⟩ .none
  · cases hc
    · right; right; rfl
    · right; left; rfl
  · intro hh
    simp only at hh
    subst hh
    exact ⟨hv rfl, rfl⟩
  · intro hh; exact absurd (hm.symm.trans hh) (by simp)
  · have := h.scan.slot
    rw [hz] at this
    simp at this
    simp [this]

theorem gotActivate_inv {s : State} {op : Byte} {l : Label} (h : s.Live) (he : s.eng = .running op l)
    (hp : Exch.Place .activate op s) : (gotActivate s).Inv := by
  have hp' : Exch.Place .marker op s := hp
  obtain ⟨ho, hst, h1, h2⟩ := hp
  have hz := h.blockSize_zero (by simp [hst]) (by simp [hst])
  have hl := h.setStage hz .voltageNegotiated s.status.v2 s.status.voltWarn (by decide)
  unfold gotActivate
  split
  · exact nextInit_inv h he hp'
  · split
    · rename_i hv
      exact (hl.build .ocr 58 0).inv (op := op) (l := .ready .ocr) (Eng.moveTo_of_running he _)
        ⟨⟨ho, by show _ = if s.status.v2 = true then _ else _; rw [if_pos hv]; rfl⟩, by simp, rfl⟩
    · exact enterReady_inv hl hz false (by simp)

theorem gotOcr_inv {s : State} {op : Byte} {l : Label} (h : s.Live) (he : s.eng = .running op l)
    (hp : Exch.Place .ocr op s) : (gotOcr s).Inv := by
  obtain ⟨ho, hst⟩ := hp
  have hst1 : s.status.stage ≠ .ready := by rw [hst]; split <;> simp
  have hst2 : s.status.stage ≠ .failed := by rw [hst]; split <;> simp
  have hz := h.blockSize_zero hst1 hst2
  unfold gotOcr
  split
  · rename_i hv
    exact enterReady_inv h hz _ (fun _ => hv)
  · rename_i hv
    split
    · have hsv : s.status.stage = .versionChecked := by simpa [hv] using hst
      have hl := h.setStage hz s.status.stage s.status.v2 (!hasAcceptableVoltage (extractOcr s.scratch.resp)) hst1
      exact initAttempt_inv hl (op := op) (l := l) he ho hsv 1 (Nat.le_refl _) h.cfg.initRetries
    · exact bringupFail_inv h hz _

theorem startBringup_inv {s : State} {op : Byte} {l : Label} (h : s.Live) (he : s.eng = .running op l) (ho : op = 0x01)
    (hst : s.status.stage = .unpowered) : (startBringup s).Inv :=
  (h.ask _ _ .warmup).inv (op := op) (l := .warmup) (Eng.moveTo_of_running he _) ⟨ho, hst⟩

theorem startSpeedup_inv {s : State} {op : Byte} {l : Label} (h : s.Live) (he : s.eng = .running op l) (ho : op = 0x02)
    (hst : s.status.stage = .ready) (hsp : s.status.spedUp = false) : (startSpeedup s).Inv :=
  (h.ask _ _ .reconf).inv (op := op) (l := .reconf) (Eng.moveTo_of_running he _) ⟨ho, hst, hsp⟩

theorem finishSpeedup_inv {s : State} (h : s.Live) (hst : s.status.stage = .ready) (hsp : s.status.spedUp = false)
    (ok : Bool) : (finishSpeedup ok s).Inv := by
  have hn := h.session.ready hst
  have hsc := h.scan
  unfold finishSpeedup
  split
  · exact State.Live.complete_inv (s := { s with status := { s.status with spedUp := true } })
      ⟨⟨h.legal, ⟨h.session.sizes, h.session.ready, h.session.stages,
      fun hf => absurd (hst.symm.trans hf) (by simp), h.session.hc, fun _ => hn, h.session.mounted, h.session.bufvalid⟩,
      h.volume, h.cfg, h.buffers, ⟨hsc.active, hsc.inactive, hsc.loaded, hsc.slot, hsc.frags, hsc.units⟩, h.dmem⟩,
      h.done, h.err, h.errcode, h.soft, h.held⟩ _
  · exact State.Live.complete_inv (s := s.setStage .failed) ⟨⟨h.legal, ⟨h.session.sizes, fun hr => absurd (show Stage.failed = .ready from hr) (by simp),
      fun _ => .inr rfl, fun _ _ => hsp, h.session.hc, h.session.spedUp, h.session.mounted, h.session.bufvalid⟩,
      h.volume, h.cfg, h.buffers, ⟨hsc.active, hsc.inactive, hsc.loaded, hsc.slot, hsc.frags, hsc.units⟩, h.dmem⟩,
      h.done, h.err, h.errcode, h.soft, h.held⟩ _

/-! ## The directory scan's end -/

theorem ScanInv.ended {p : Params} {st : Status} {size : Word} {d : Dir} (h : ScanInv p st size d) (a b : Word) :
    ScanInv p { st with dirActive := false } size { lba := a, left := b, slot := d.slot, frags := [], loaded := false } :=
  ⟨fun ha => absurd (show false = true from ha) (by simp), fun _ => ⟨rfl, rfl⟩,
    fun hl => absurd (show false = true from hl) (by simp), h.slot, Nat.zero_le _, fun _ hf => absurd hf (by simp)⟩

theorem SessionInv.endScan {p : Params} {st : Status} {size : Word} (h : SessionInv p st size) :
    SessionInv p { st with dirActive := false } size :=
  ⟨h.sizes, h.ready, h.stages, h.failed, h.hc, h.spedUp, h.mounted, h.bufvalid⟩

theorem State.Live.endScan {s : State} (h : s.Live) : s.endScan.Live :=
  ⟨⟨h.legal, h.session.endScan, h.volume, h.cfg, h.buffers, h.scan.ended _ _, h.dmem⟩,
    h.done, h.err, h.errcode, h.soft, h.held⟩

theorem State.Live.cancelScan {s : State} (h : s.Live) : s.cancelScan.Live := by
  rcases s.cancelScan_cases with e | e <;> rw [e]
  · exact h.endScan
  · exact h

theorem State.CoreInv.cancelScan_inactive {s : State} (h : s.CoreInv) :
    s.cancelScan.status.dirActive = false ∧ s.cancelScan.dir.loaded = false := by
  unfold State.cancelScan
  split
  · exact ⟨rfl, rfl⟩
  · rename_i hc
    have : s.status.dirActive = false := by
      cases ha : s.status.dirActive with
      | false => rfl
      | true => simp [ha, (h.scan.active ha).1] at hc
    exact ⟨this, (h.scan.inactive this).2⟩

theorem State.cancelScan_eng (s : State) : s.cancelScan.eng = s.eng := by
  rcases s.cancelScan_cases with e | e <;> simp [e, State.endScan]
theorem State.cancelScan_stage (s : State) : s.cancelScan.status.stage = s.status.stage := by
  rcases s.cancelScan_cases with e | e <;> simp [e, State.endScan]
theorem State.cancelScan_mounted (s : State) : s.cancelScan.status.mounted = s.status.mounted := by
  rcases s.cancelScan_cases with e | e <;> simp [e, State.endScan]
theorem State.cancelScan_blockSize (s : State) : s.cancelScan.blockSize = s.blockSize := by
  rcases s.cancelScan_cases with e | e <;> simp [e, State.endScan]
theorem State.cancelScan_args (s : State) : s.cancelScan.a0 = s.a0 ∧ s.cancelScan.a1 = s.a1 ∧ s.cancelScan.a2 = s.a2 := by
  rcases s.cancelScan_cases with e | e <;> simp [e, State.endScan]

/-! ## Block reads -/

theorem BlockUse.Place.loaded {u : BlockUse} {op : Byte} {s : State} (h : s.CoreInv) (hp : u.Place op s) :
    s.dir.loaded = false := by
  cases u
  case dirnext => exact hp.2.2.2
  case readblk => exact (h.scan.inactive hp.2.2).2
  all_goals exact (h.scan.inactive hp.2.2.1).2

theorem SessionInv.invalid {p : Params} {st : Status} {size : Word} (h : SessionInv p st size) (c : Bool) :
    SessionInv p { st with errctx := c, bufvalid := false } size :=
  ⟨h.sizes, h.ready, h.stages, h.failed, h.hc, h.spedUp, h.mounted,
    fun hb => absurd (show false = true from hb) (by simp)⟩

theorem ScanInv.invalid {p : Params} {st : Status} {size : Word} {d : Dir} (h : ScanInv p st size d)
    (hl : d.loaded = false) (c : Bool) : ScanInv p { st with errctx := c, bufvalid := false } size d :=
  ⟨h.active, h.inactive, fun hl' => absurd (hl.symm.trans hl') (by simp), h.slot, h.frags, h.units⟩

theorem readBlock_inv {s : State} {op : Byte} {l : Label} {u : BlockUse} (h : s.Live) (he : s.eng = .running op l)
    (hp : u.Place op s) (lba : Word) (hc : u.Aims (s.put { s.scratch with lba := lba })) : (readBlock u lba s).Inv := by
  have hl := hp.loaded h.toCoreInv
  have hL : (readBlock u lba s).Live :=
    ⟨⟨h.legal, h.session.invalid s.status.errctx, h.volume, h.cfg, h.buffers, h.scan.invalid hl s.status.errctx, h.dmem⟩,
      h.done, h.err, h.errcode, h.soft, h.held⟩
  refine hL.inv (op := op) (l := .ready (.block u)) (Eng.moveTo_of_running he _) ⟨⟨?_, rfl, ?_⟩, by simp, rfl⟩
  · cases u <;> exact hp
  · cases u <;> exact hc

theorem blockFail_inv {s : State} {op : Byte} {u : BlockUse} (h : s.Live) (hp : u.Place op s) (e : ErrCode) :
    (blockFail u e s).Inv := by
  have hl := hp.loaded h.toCoreInv
  have hL : State.Live { s with errLba := s.scratch.lba, status := { s.status with errctx := true, bufvalid := false } } :=
    ⟨⟨h.legal, h.session.invalid true, h.volume, h.cfg, h.buffers, h.scan.invalid hl true, h.dmem⟩,
      h.done, h.err, h.errcode, h.soft, h.held⟩
  have hres : ∀ {t : State}, t.Live → ∀ r : Word, State.Live { t with res0 := r } := fun ht r =>
    ⟨⟨ht.legal, ht.session, ht.volume, ht.cfg, ht.buffers, ht.scan, ht.dmem⟩, ht.done, ht.err, ht.errcode, ht.soft, ht.held⟩
  cases u
  case readbytes => exact (hres hL _).complete_inv e
  case dirnext => exact hL.endScan.complete_inv e
  all_goals exact hL.complete_inv e

theorem gotStatus_inv {s : State} {op : Byte} {l : Label} {u : BlockUse} (h : s.Live) (he : s.eng = .running op l)
    (hp : Exch.Place (.block u) op s) : (gotStatus u s).Inv := by
  obtain ⟨hp, hv, hc⟩ := hp
  unfold gotStatus
  split
  · refine (h.ask _ _ _).inv (op := op) (l := .data u) (Eng.moveTo_of_running he _) ⟨?_, hv, ?_, Nat.zero_le _⟩
    · cases u <;> exact hp
    · cases u <;> exact hc
  · refine blockFail_inv (s := { s with errByte := s.scratch.resp[0] }) (op := op)
      ⟨⟨h.legal, h.session, h.volume, h.cfg, h.buffers, h.scan, h.dmem⟩, h.done, h.err, h.errcode, h.soft, h.held⟩ ?_ _
    cases u <;> exact hp

/-- A received payload byte keeps what the rest of the op relies on. -/
theorem takeDatum_keeps (d : Byte) {s : State} {op : Byte} {l : Label} {u : BlockUse} (h : s.Live)
    (he : s.eng = .running op l) (hp : u.Place op s) (hv : s.status.bufvalid = false) (hc : u.Aims s) :
    (takeDatum d s).Live ∧ (takeDatum d s).eng = .running op l ∧ u.Place op (takeDatum d s)
      ∧ (takeDatum d s).status.bufvalid = false ∧ u.Aims (takeDatum d s) ∧ (takeDatum d s).bs = s.bs := by
  unfold takeDatum
  split
  · refine ⟨h.put _, he, ?_, hv, ?_, rfl⟩
    · cases u <;> exact hp
    · cases u <;> exact hc
  · split
    · refine ⟨⟨⟨h.legal, h.session, h.volume, h.cfg, ⟨?_, h.buffers.namebuf, h.buffers.nameLen⟩, h.scan, h.dmem⟩,
        h.done, h.err, h.errcode, h.soft, h.held⟩, he, ?_, hv, ?_, rfl⟩
      · simpa using h.buffers.blockbuf
      · cases u <;> exact hp
      · cases u <;> exact hc
    · exact ⟨h, he, hp, hv, hc, rfl⟩

/-! ## READBYTES -/

theorem State.CoreInv.bs_pos {s : State} (h : s.CoreInv) (hr : s.status.stage = .ready) : 0 < s.bs := by
  have := h.session.ready hr
  simp only [State.bs]
  have h0 : s.blockSize.toNat ≠ 0 := fun hc => this (BitVec.eq_of_toNat_eq (by simpa using hc))
  omega

theorem readOff_lt {s : State} (h : 0 < s.bs) : readOff s < s.bs := Nat.mod_lt _ h

/-- Every block of a READBYTES has a byte to copy (42_block_io.md R207). -/
theorem readLo_lt_readHi {s : State} (hb : 0 < s.bs) (ha : s.a1 ≠ 0) {k : Nat} (hk : k < readCount s) :
    readLo s k < readHi s k := by
  have h1 : 1 ≤ s.a1.toNat := by
    have : s.a1.toNat ≠ 0 := fun hc => ha (BitVec.eq_of_toNat_eq (by simpa using hc))
    omega
  have ho := readOff_lt hb
  unfold readLo readHi
  by_cases hk0 : k = 0
  · subst hk0
    rw [if_pos rfl]
    split
    · rename_i hc
      have hle : readOff s + s.a1.toNat ≤ s.bs := by
        by_contra hcon
        have : 2 ≤ readCount s := by
          unfold readCount
          rw [Nat.le_div_iff_mul_le hb]; omega
        omega
      rw [Nat.mod_eq_of_lt (by omega)]; omega
    · exact ho
  · rw [if_neg hk0]
    split <;> omega

theorem readHi_le {s : State} (hb : 0 < s.bs) (k : Nat) : readHi s k ≤ s.bs := by
  unfold readHi
  split
  · exact Nat.mod_lt _ hb
  · exact Nat.le_refl _

/-- A READBYTES reads no more blocks than a 32-bit block index counts. -/
theorem readCount_le {s : State} (hb : 0 < s.bs) : readCount s ≤ 2 ^ 32 := by
  have ho := readOff_lt hb
  have ha := s.a1.isLt
  exact Nat.div_le_of_le_mul (by omega)

theorem startCopy_inv {s : State} {op : Byte} {l : Label} (h : s.Live) (he : s.eng = .running op l)
    (hp : BlockUse.Place .readbytes op s) (hv : s.status.bufvalid = true) (hc : BlockUse.Aims .readbytes s) :
    (startCopy s).Inv := by
  have hlt := readLo_lt_readHi (h.bs_pos hp.1) hp.2.2.2.1 hp.2.2.2.2.2
  refine ((h.put _).goTo .copy).inv (op := op) (l := .copy) (Eng.moveTo_of_running he _)
    ⟨hp, hv, Nat.le_refl _, hlt, ?_, hc.2.2⟩
  show s.scratch.written = _ + (readLo s s.scratch.k.toNat - readLo s s.scratch.k.toNat)
  rw [Nat.sub_self]; exact hc.2.1

theorem readChunk_inv {s : State} {op : Byte} {l : Label} (h : s.Live) (he : s.eng = .running op l) (k : Word)
    (ho : op = 0x06) (hst : s.status.stage = .ready) (hd : s.status.dirActive = false) (ha1 : s.a1 ≠ 0)
    (hargs : readbytesArgsOk s = true) (hk : k.toNat < readCount s) (hw : s.scratch.written = k.toNat * s.bs - readOff s)
    (hdst : s.scratch.dst = s.a0 + BitVec.ofNat 32 s.scratch.written) : (readChunk k s).Inv :=
  readBlock_inv (u := .readbytes) (h.put { s.scratch with k := k }) (op := op) (l := l) he
    ⟨hst, ho, hd, ha1, hargs, hk⟩ _ ⟨rfl, hw, hdst⟩

theorem startReadbytes_inv {s : State} {op : Byte} {l : Label} (h : s.Live) (he : s.eng = .running op l) (ho : op = 0x06)
    (hst : s.status.stage = .ready) : (startReadbytes s).Inv := by
  have hin := h.cancelScan_inactive
  obtain ⟨e0, e1, e2⟩ := s.cancelScan_args
  unfold startReadbytes
  split
  · rename_i ha
    have hbs : s.cancelScan.bs = s.bs := by simp [State.bs, s.cancelScan_blockSize]
    simp only
    have hL := h.cancelScan.put { s.scratch with written := 0, dst := s.a0 }
    split
    · exact State.Live.complete_inv (s := { s.cancelScan.put { s.scratch with written := 0, dst := s.a0 } with res0 := 0 })
        ⟨⟨hL.legal, hL.session, hL.volume, hL.cfg, hL.buffers, hL.scan, hL.dmem⟩, hL.done, hL.err, hL.errcode, hL.soft, hL.held⟩ _
    · rename_i h1
      have hst' : s.cancelScan.status.stage = .ready := by rw [s.cancelScan_stage, hst]
      have hb := h.cancelScan.bs_pos hst'
      refine readChunk_inv hL (op := op) (l := l) (by rw [← he]; exact s.cancelScan_eng) 0 ho hst' hin.1 h1 ?_ ?_ ?_ ?_
      · show readbytesArgsOk s.cancelScan = true
        unfold readbytesArgsOk at ha ⊢; rw [e0, e1, e2]; exact ha
      · show 0 < readCount s.cancelScan
        have h1 : s.cancelScan.a1 ≠ 0 := h1
        have : s.cancelScan.a1.toNat ≠ 0 := fun hc => h1 (BitVec.eq_of_toNat_eq (by simpa using hc))
        unfold readCount
        exact Nat.div_pos (by omega) hb
      · show 0 = 0 * s.cancelScan.bs - _
        simp
      · show s.a0 = s.cancelScan.a0 + BitVec.ofNat 32 0
        simp [e0]
  · exact h.complete_inv _

theorem copyStep_inv {s : State} {op : Byte} (h : s.Live) (he : s.eng = .running op .copy)
    (hp : Label.Place .copy op s) : (copyStep s).Inv := by
  obtain ⟨hpl, hv, hlo, hhi, hw, hd⟩ := hp
  obtain ⟨hst, ho, hda, ha1, hargs, hk⟩ := id hpl
  have hL : (copyByte s).Live :=
    ⟨⟨h.legal, h.session, h.volume, h.cfg, h.buffers, h.scan, State.memWrite_wf _ _ h.dmem⟩,
      h.done, h.err, h.errcode, h.soft, h.held⟩
  have hdst : (copyByte s).scratch.dst = (copyByte s).a0 + BitVec.ofNat 32 (copyByte s).scratch.written := by
    show s.scratch.dst + 1 = s.a0 + BitVec.ofNat 32 (s.scratch.written + 1)
    rw [hd, BitVec.ofNat_add, BitVec.add_assoc]; rfl
  have hb := h.bs_pos hst
  unfold copyStep
  split
  · rename_i hj
    refine hL.inv (op := op) (l := .copy) he ⟨hpl, hv, ?_, hj, ?_, hdst⟩
    · show readLo s s.scratch.k.toNat ≤ s.scratch.j + 1
      omega
    · show s.scratch.written + 1 = s.scratch.k.toNat * s.bs - readOff s + (s.scratch.j + 1 - readLo s s.scratch.k.toNat)
      omega
  · rename_i hj
    unfold afterCopy
    split
    · rename_i hk'
      have hk' : s.scratch.k.toNat + 1 < readCount s := hk'
      have hn := readCount_le hb
      have hk1 : (s.scratch.k + 1).toNat = s.scratch.k.toNat + 1 := toNat_add_one (n := 2 ^ 32 - 1) (by omega) (by decide)
      refine readChunk_inv hL (op := op) (l := .copy) he (s.scratch.k + 1) ho hst hda ha1 hargs (by rw [hk1]; exact hk') ?_ hdst
      show s.scratch.written + 1 = (s.scratch.k + 1).toNat * s.bs - readOff s
      rw [hk1]
      have hhi' : readHi s s.scratch.k.toNat = s.bs := by unfold readHi; rw [if_neg (by omega)]
      have hoff := readOff_lt hb
      rw [hhi'] at hj hhi
      unfold readLo at hw hlo
      rw [Nat.add_mul]
      by_cases hk0 : s.scratch.k.toNat = 0
      · rw [hk0] at hw ⊢
        rw [if_pos rfl] at hw
        rw [hk0, if_pos rfl] at hlo
        omega
      · rw [if_neg hk0] at hw
        have : s.bs ≤ s.scratch.k.toNat * s.bs := Nat.le_mul_of_pos_left _ (by omega)
        omega
    · exact State.Live.complete_inv (s := { copyByte s with res0 := BitVec.ofNat 32 (copyByte s).scratch.written })
        ⟨⟨hL.legal, hL.session, hL.volume, hL.cfg, hL.buffers, hL.scan, hL.dmem⟩, hL.done, hL.err, hL.errcode, hL.soft, hL.held⟩ _

/-! ## READBLK, PARTITION, MOUNT -/

theorem startReadblk_inv {s : State} {op : Byte} {l : Label} (h : s.Live) (he : s.eng = .running op l) (ho : op = 0x05)
    (hst : s.status.stage = .ready) : (startReadblk s).Inv :=
  readBlock_inv (u := .readblk) h.cancelScan (op := op) (l := l) (s.cancelScan_eng.trans he)
    ⟨s.cancelScan_stage.trans hst, ho, h.cancelScan_inactive.1⟩ _ s.cancelScan_args.1.symm

theorem checkPartition_ok {s : State} (h : checkPartition s = .none) : partitionArgsOk s = true ∧ s.bs = 512 := by
  unfold checkPartition at h
  split at h
  · cases h
  · split at h
    · cases h
    · rename_i h1 h2
      exact ⟨by simpa using h1, by simpa using h2⟩

theorem cancelScan_partition {s : State} (h : partitionArgsOk s = true ∧ s.bs = 512) :
    partitionArgsOk s.cancelScan = true ∧ s.cancelScan.bs = 512 := by
  unfold partitionArgsOk State.bs at h ⊢
  rw [s.cancelScan_args.1, s.cancelScan_blockSize]; exact h

theorem startPartition_inv {s : State} {op : Byte} {l : Label} (h : s.Live) (he : s.eng = .running op l) (ho : op = 0x07)
    (hst : s.status.stage = .ready) : (startPartition s).Inv := by
  unfold startPartition
  split
  · rename_i hc
    have hc := cancelScan_partition (checkPartition_ok hc)
    exact readBlock_inv (u := .partition) h.cancelScan (op := op) (l := l) (s.cancelScan_eng.trans he)
      ⟨s.cancelScan_stage.trans hst, ho, h.cancelScan_inactive.1, hc.1, hc.2⟩ _ rfl
  · exact h.complete_inv _

theorem State.Live.unmount {s : State} (h : s.Live) : State.Live { s with status := { s.status with mounted := false } } :=
  ⟨⟨h.legal, ⟨h.session.sizes, h.session.ready, h.session.stages, h.session.failed, h.session.hc, h.session.spedUp,
    fun hm => absurd (show false = true from hm) (by simp), h.session.bufvalid⟩,
    ⟨fun hm => absurd (show false = true from hm) (by simp), fun hm => absurd (show false = true from hm) (by simp)⟩,
    h.cfg, h.buffers, ⟨h.scan.active, h.scan.inactive, h.scan.loaded, h.scan.slot, h.scan.frags, h.scan.units⟩, h.dmem⟩,
    h.done, h.err, h.errcode, h.soft, h.held⟩

theorem startMount_inv {s : State} {op : Byte} {l : Label} (h : s.Live) (he : s.eng = .running op l) (ho : op = 0x08)
    (hst : s.status.stage = .ready) : (startMount s).Inv := by
  unfold startMount
  split
  · rename_i hc
    have hc := cancelScan_partition (checkPartition_ok hc)
    exact readBlock_inv (u := .mountMbr) h.cancelScan.unmount (op := op) (l := l) (s.cancelScan_eng.trans he)
      ⟨s.cancelScan_stage.trans hst, ho, h.cancelScan_inactive.1, hc.1, hc.2, rfl⟩ _ rfl
  · exact h.complete_inv _

theorem State.Live.decodePartition {s : State} (h : s.Live) : (decodePartition s).Live :=
  ⟨⟨h.legal, h.session, h.volume, h.cfg, h.buffers, h.scan, h.dmem⟩, h.done, h.err, h.errcode, h.soft, h.held⟩

theorem finishPartition_inv {s : State} (h : s.Live) : (finishPartition s).Inv :=
  State.Live.complete_inv (s := { decodePartition s with res0 := (decodePartition s).part.lba })
    ⟨⟨h.legal, h.session, h.volume, h.cfg, h.buffers, h.scan, h.dmem⟩, h.done, h.err, h.errcode, h.soft, h.held⟩ _

theorem mountPartition_inv {s : State} {op : Byte} {l : Label} (h : s.Live) (he : s.eng = .running op l)
    (hp : BlockUse.Place .mountMbr op s) : (mountPartition s).Inv :=
  readBlock_inv (u := .mountBoot) h.decodePartition (op := op) (l := l) he hp _ rfl

theorem finishMount_inv {s : State} {op : Byte} (h : s.Live) (hp : BlockUse.Place .mountBoot op s) :
    (finishMount s).Inv := by
  obtain ⟨hst, ho, hda, hargs, hbs, hm⟩ := hp
  have hsz : s.blockSize = 512 := BitVec.eq_of_toNat_eq hbs
  have hnm : ∀ {P : Prop}, s.status.mounted = true → P := fun hm' => absurd (hm.symm.trans hm') (by simp)
  simp only [finishMount]
  split
  · rename_i hsig
    refine State.Live.complete_inv ?_ _
    exact ⟨⟨h.legal, ⟨h.session.sizes, h.session.ready, h.session.stages, h.session.failed,
      h.session.hc, h.session.spedUp, fun _ => hsz, h.session.bufvalid⟩, ⟨fun _ => hsig, fun _ => rfl⟩, h.cfg, h.buffers,
      ⟨h.scan.active, h.scan.inactive, h.scan.loaded, h.scan.slot, h.scan.frags, h.scan.units⟩, h.dmem⟩,
      h.done, h.err, h.errcode, h.soft, h.held⟩
  · exact State.Live.complete_inv (s := decodeBpb s) ⟨⟨h.legal, h.session, ⟨fun hm' => hnm hm', fun hm' => hnm hm'⟩, h.cfg,
      h.buffers, h.scan, h.dmem⟩, h.done, h.err, h.errcode, h.soft, h.held⟩ _

theorem startClus2lba_inv {s : State} (h : s.Live) : (startClus2lba s).Inv := by
  unfold startClus2lba
  split
  · exact h.complete_inv _
  · exact State.Live.complete_inv (s := { s with res0 := clusterLba s.vol s.a0 })
      ⟨⟨h.legal, h.session, h.volume, h.cfg, h.buffers, h.scan, h.dmem⟩, h.done, h.err, h.errcode, h.soft, h.held⟩ _

end Sys2Proof.Machine
end

