-- ==== Sys2Proof/Laws/InvariantStep.lean ====
section
/-! SUPPORT. The directory ops, the engine's steps and runs, the instructions and the host's accesses keep the invariant, said
once for each. -/

namespace Sys2Proof.Machine

/-! ## Names -/

theorem utf8_length (u : BitVec 16) : (utf8 u).length ≤ 3 := by
  unfold utf8; split
  · simp
  · split <;> simp

theorem flatMap_utf8_length (c : List (BitVec 16)) : (c.flatMap utf8).length ≤ 3 * c.length := by
  induction c with
  | nil => simp
  | cons u c ih =>
    have := utf8_length u
    simp only [List.flatMap_cons, List.length_append, List.length_cons]; omega

theorem chunkUtf8_length (c : List (BitVec 16)) : (chunkUtf8 c).length ≤ 3 * c.length := by
  have h1 := flatMap_utf8_length (c.takeWhile (fun u => u != 0x0000 && u != 0xFFFF))
  have h2 := (List.takeWhile_sublist (l := c) (fun u => u != 0x0000 && u != 0xFFFF)).length_le
  unfold chunkUtf8; omega

/-- A fragment's name takes at most 39 bytes (44_directory.md R268). -/
theorem fragUtf8_length (cu : List (BitVec 16)) : (fragUtf8 cu).length ≤ 39 := by
  have h1 := chunkUtf8_length (cu.take 5)
  have h2 := chunkUtf8_length ((cu.drop 5).take 6)
  have h3 := chunkUtf8_length ((cu.drop 11).take 2)
  simp only [fragUtf8, List.length_append]
  simp only [List.length_take] at h1 h2 h3
  omega

theorem insertFrag_length (f : Frag) (fs : List Frag) : (insertFrag f fs).length = fs.length + 1 := by
  induction fs with
  | nil => rfl
  | cons g fs ih => unfold insertFrag; split <;> simp [ih]

theorem sortFrags_length (fs : List Frag) : (sortFrags fs).length = fs.length := by
  induction fs with
  | nil => rfl
  | cons f fs ih => simp [sortFrags, insertFrag_length, ih]

theorem flatMap_fragUtf8_length (fs : List Frag) : (fs.flatMap (fun f => fragUtf8 f.cu)).length ≤ 39 * fs.length := by
  induction fs with
  | nil => simp
  | cons f fs ih =>
    have := fragUtf8_length f.cu
    simp only [List.flatMap_cons, List.length_append, List.length_cons]; omega

/-- A long name takes at most 39 bytes for each fragment held (44_directory.md R268). -/
theorem lfnName_length (fs : List Frag) : (lfnName fs).length ≤ 39 * fs.length := by
  have := flatMap_fragUtf8_length (sortFrags fs)
  rw [sortFrags_length] at this; exact this

theorem trimRight_length (f : List Byte) : (trimRight f).length ≤ f.length := by
  have := (List.dropWhile_sublist (l := f.reverse) (· == 0x20)).length_le
  simpa [trimRight] using this

/-- A short name takes at most 11 bytes (44_directory.md R262). -/
theorem shortName_length (t : List Byte) : (shortName t).length ≤ 11 := by
  have h1 := trimRight_length (t.take 8)
  have h2 := trimRight_length ((t.drop 8).take 3)
  simp only [shortName, List.length_append]
  simp only [List.length_take] at h1 h2
  omega

theorem fragUnits_length (t : List Byte) : (fragUnits t).length = 13 := by simp [fragUnits]

/-- A name that NAMEBUF holds keeps the buffers' sizes (44_directory.md R268). -/
theorem BufferInv.writeName {p : Params} {b nb : List Byte} {k : BitVec 16} (h : BufferInv p b nb k) {n : List Byte}
    (hn : n.length ≤ p.namebufBytes) (h16 : n.length < 2 ^ 16) :
    BufferInv p b (n ++ nb.drop n.length) (BitVec.ofNat 16 n.length) := by
  refine ⟨h.blockbuf, ?_, ?_⟩
  · have := h.namebuf; simp; omega
  · simp only [BitVec.toNat_ofNat]
    rw [Nat.mod_eq_of_lt h16]; exact hn

theorem Params.legal_names {p : Params} (h : p.legal = true) :
    1 ≤ p.maxFragments ∧ p.maxFragments ≤ 63 ∧ 39 * p.maxFragments ≤ p.namebufBytes := by
  simp only [Params.legal, Bool.and_eq_true, decide_eq_true_eq] at h
  exact ⟨h.1.1.1.2, h.1.1.2, h.1.2⟩

/-! ## Directory ops -/

theorem startDecslot_inv {s : State} (h : s.Live) : (startDecslot s).Inv := by
  obtain ⟨h1, h2, h3⟩ := Params.legal_names h.legal
  unfold startDecslot
  split
  · simp only
    have hn : (decslotName (slotOf s.blockbuf s.a0.toNat)).length ≤ 39 := by
      unfold decslotName
      split
      · simp
      · simp
      · have := shortName_length (slotOf s.blockbuf s.a0.toNat); omega
      · exact fragUtf8_length _
    refine State.Live.complete_inv ?_ _
    exact ⟨⟨h.legal, h.session, h.volume, h.cfg, h.buffers.writeName (by omega) (by omega), h.scan, h.dmem⟩, h.done, h.err, h.errcode,
      h.soft, h.held⟩
  · exact h.complete_inv _

theorem startDirstart_inv {s : State} (h : s.Live) (hd : s.params.hasDirDecoder = true) (hst : s.status.stage = .ready) :
    (startDirstart s).Inv := by
  refine State.Live.complete_inv ?_ _
  refine ⟨⟨h.legal, ⟨h.session.sizes, h.session.ready, h.session.stages, h.session.failed,
      h.session.hc, h.session.spedUp, h.session.mounted, h.session.bufvalid⟩, h.volume, h.cfg, h.buffers,
      ⟨fun ha => ⟨hd, h.session.ready hst, by simpa using ha⟩, fun _ => ⟨rfl, rfl⟩,
        fun hl => absurd (show false = true from hl) (by simp), Nat.zero_le _, Nat.zero_le _,
        fun _ hf => absurd hf (by simp)⟩, h.dmem⟩,
      h.done, h.err, h.errcode, h.soft, h.held⟩

theorem dirEnd_inv {s : State} (h : s.Live) : (dirEnd s).Inv := by
  refine State.Live.complete_inv ?_ _
  exact ⟨⟨h.legal, h.session, h.volume, h.cfg, ⟨h.buffers.blockbuf, h.buffers.namebuf, Nat.zero_le _⟩, h.scan, h.dmem⟩,
    h.done, h.err, h.errcode, h.soft, h.held⟩

theorem dirYield_inv {s : State} (h : s.Live) (t : List Byte) : (dirYield t s).Inv := by
  obtain ⟨h1, h2, h3⟩ := Params.legal_names h.legal
  have hf := h.scan.frags
  have hn : (entryName s.dir.frags t).length ≤ 39 * s.params.maxFragments := by
    unfold entryName; split
    · have := shortName_length t; omega
    · have := lfnName_length s.dir.frags; omega
  refine State.Live.complete_inv ?_ _
  exact ⟨⟨h.legal, h.session, h.volume, h.cfg, h.buffers.writeName (by omega) (by omega),
    ⟨h.scan.active, fun hi => ⟨rfl, (h.scan.inactive hi).2⟩, h.scan.loaded, h.scan.slot, Nat.zero_le _,
      fun _ hf => absurd hf (by simp)⟩, h.dmem⟩,
    h.done, h.err, h.errcode, h.soft, h.held⟩

/-- What the scan of a loaded block asks for. -/
structure State.Scanning (op : Byte) (s : State) : Prop where
  eng : ∃ l, s.eng = .running op l
  op : op = 0x0C
  ready : s.status.stage = .ready
  active : s.status.dirActive = true
  valid : s.status.bufvalid = true

theorem dirBlockDone_inv {s : State} {op : Byte} (h : s.Live) (hs : s.Scanning op) : (dirBlockDone s).Inv := by
  simp only [dirBlockDone]
  split
  · refine dirEnd_inv (State.Live.mk ⟨h.legal, h.session.endScan, h.volume, h.cfg, h.buffers, ?_, h.dmem⟩ h.done h.err h.errcode
      h.soft h.held)
    exact h.scan.ended _ _
  · rename_i hl
    obtain ⟨l, he⟩ := hs.eng
    refine readBlock_inv (u := .dirnext) (op := op) (l := l) ?_ ?_ ?_ _ rfl
    case refine_2 => exact he
    case refine_3 => exact ⟨hs.ready, hs.op, hs.active, rfl⟩
    refine ⟨⟨h.legal, h.session, h.volume, h.cfg, h.buffers, ?_, h.dmem⟩, h.done, h.err, h.errcode, h.soft, h.held⟩
    exact ⟨fun ha => ⟨(h.scan.active ha).1, (h.scan.active ha).2.1, hl⟩, fun hi => absurd (hs.active.symm.trans hi) (by simp),
      fun hl => absurd (show false = true from hl) (by simp), h.scan.slot, h.scan.frags, h.scan.units⟩

theorem dirScan_inv {op : Byte} : ∀ (n : Nat) {s : State}, s.Live → s.Scanning op → s.dir.slot.toNat + n ≤ s.slots →
    (dirScan n s).Inv
  | 0, s, h, hs, _ => dirBlockDone_inv h hs
  | n + 1, s, h, hs, hn => by
    have h16 : s.slots ≤ 16 := by
      have hl := h.legal
      simp only [Params.legal, Bool.and_eq_true, Bool.or_eq_true, beq_iff_eq] at hl
      have hstd := hl.1.1.1.1.1.1.1.1
      unfold State.slots State.bs
      rcases h.session.sizes with hz | hz | hz
      · simp [hz]
      · simp [hz]
      · rw [hz]; rcases hstd with hz | hz <;> simp [hz]
    have hslot : (s.dir.slot + 1).toNat = s.dir.slot.toNat + 1 := by
      rw [BitVec.toNat_add]; simp; omega
    have hL : State.Live { s with dir := { s.dir with slot := s.dir.slot + 1 } } :=
      ⟨⟨h.legal, h.session, h.volume, h.cfg, h.buffers, ⟨h.scan.active, h.scan.inactive, h.scan.loaded,
        by show (s.dir.slot + 1).toNat ≤ s.slots; omega, h.scan.frags, h.scan.units⟩, h.dmem⟩,
        h.done, h.err, h.errcode, h.soft, h.held⟩
    simp only [dirScan]
    split
    · exact dirEnd_inv hL.endScan
    · refine dirScan_inv n hL ⟨hs.eng, hs.op, hs.ready, hs.active, hs.valid⟩ ?_
      show (s.dir.slot + 1).toNat + n ≤ s.slots; omega
    · split
      · exact hL.endScan.complete_inv _
      · rename_i hlt
        refine dirScan_inv n (State.Live.mk ⟨h.legal, h.session, h.volume, h.cfg, h.buffers, ⟨h.scan.active,
          fun hi => absurd (hs.active.symm.trans hi) (by simp), h.scan.loaded, hL.scan.slot, ?_, ?_⟩, h.dmem⟩
          h.done h.err h.errcode h.soft h.held) ⟨hs.eng, hs.op, hs.ready, hs.active, hs.valid⟩ ?_
        · simp only [List.length_append, List.length_cons, List.length_nil]; omega
        · intro f hf
          rcases List.mem_append.mp hf with hf | hf
          · exact h.scan.units f hf
          · rw [List.mem_singleton] at hf; subst hf; exact fragUnits_length _
        · show (s.dir.slot + 1).toNat + n ≤ s.slots; omega
    · exact dirYield_inv hL _

theorem dirScanBlock_inv {s : State} {op : Byte} (h : s.Live) (hs : s.Scanning op) : (dirScanBlock s).Inv := by
  have := h.scan.slot
  refine dirScan_inv _ h hs ?_
  show s.dir.slot.toNat + (s.bs / 32 - s.dir.slot.toNat) ≤ s.bs / 32
  have : s.dir.slot.toNat ≤ s.bs / 32 := this
  omega

theorem startDirnext_inv {s : State} {op : Byte} {l : Label} (h : s.Live) (he : s.eng = .running op l) (ho : op = 0x0C)
    (hr : s.status.dirActive = true → s.status.stage = .ready) : (startDirnext s).Inv := by
  unfold startDirnext
  split
  · exact dirEnd_inv h
  · rename_i ha
    have ha : s.status.dirActive = true := by simpa using ha
    split
    · rename_i hl
      exact dirScanBlock_inv h ⟨⟨l, he⟩, ho, hr ha, ha, h.scan.loaded hl⟩
    · rename_i hl
      exact readBlock_inv (u := .dirnext) h (op := op) (l := l) he ⟨hr ha, ho, ha, by simpa using hl⟩ _ rfl

theorem dirBlockRead_inv {s : State} {op : Byte} {l : Label} (h : s.Live) (he : s.eng = .running op l)
    (hp : BlockUse.Place .dirnext op s) (hv : s.status.bufvalid = true) : (dirBlockRead s).Inv := by
  refine dirScanBlock_inv (op := op) (State.Live.mk ⟨h.legal, h.session, h.volume, h.cfg, h.buffers, ⟨h.scan.active,
    fun hi => absurd (hp.2.2.1.symm.trans hi) (by simp), fun _ => hv, Nat.zero_le _, h.scan.frags, h.scan.units⟩, h.dmem⟩
    h.done h.err h.errcode h.soft h.held) ⟨⟨l, he⟩, hp.2.1, hp.1, hp.2.2.1, hv⟩

/-! ## The engine -/

theorem startSendcmd_inv {s : State} {op : Byte} {l : Label} (h : s.Live) (he : s.eng = .running op l) (ho : op = 0x03) :
    (startSendcmd s).Inv := by
  unfold startSendcmd
  split
  · rename_i ha
    exact (h.build .send _ _).inv (op := op) (l := .ready .send) (Eng.moveTo_of_running he _) ⟨⟨ho, ha⟩, by simp, rfl⟩
  · exact h.complete_inv _

theorem respBudget_pos {s : State} (h : s.CoreInv) (x : Exch) : 1 ≤ respBudget x s := by
  have hc := h.cfg.respBudget
  cases x
  case resp =>
    simp only [respBudget]; split
    · exact hc
    · rename_i h1
      have : s.a1.toNat ≠ 0 := fun hc => h1 (BitVec.eq_of_toNat_eq (by simpa using hc))
      omega
  all_goals exact hc

/-- No response is polled for more often than an 8-bit counter counts (30_encoding.md R107). -/
theorem respBudget_lt {s : State} {x : Exch} {op : Byte} (hp : x.Place op s) : respBudget x s < 2 ^ 8 := by
  cases x
  case resp =>
    have ha := hp.2
    simp only [readrespArgsOk, Bool.and_eq_true, decide_eq_true_eq] at ha
    simp only [respBudget]; split
    · exact BitVec.isLt _
    · omega
  all_goals exact BitVec.isLt s.cfg.respBudget

/-- No response has more than five bytes (30_encoding.md R107). -/
theorem respCount_le {s : State} {x : Exch} {op : Byte} (hp : x.Place op s) : respCount x s ≤ 5 := by
  cases x
  case resp =>
    have ha := hp.2
    simp only [readrespArgsOk, Bool.and_eq_true, decide_eq_true_eq] at ha
    exact ha.1.2
  all_goals simp [respCount]

/-- A block is at most 512 bytes (10_state.md R39). -/
theorem State.CoreInv.bs_le {s : State} (h : s.CoreInv) : s.bs ≤ 512 := by
  have hl := h.legal
  simp only [Params.legal, Bool.and_eq_true, Bool.or_eq_true, beq_iff_eq] at hl
  rcases h.session.sizes with e | e | e
  · simp [State.bs, e]
  · simp [State.bs, e]
  · rcases hl.1.1.1.1.1.1.1.1 with e' | e' <;> simp [State.bs, e, e']

theorem Exch.Place.congr {x : Exch} {op : Byte} {s : State} (hp : x.Place op s) (sc : Scratch) (b : List Txn) (e : Eng)
    (h1 : sc.attempt = s.scratch.attempt) (h2 : sc.k = s.scratch.k) (h3 : sc.written = s.scratch.written)
    (h4 : sc.dst = s.scratch.dst) (h5 : sc.lba = s.scratch.lba) : x.Place op { s with scratch := sc, bus := b, eng := e } := by
  cases x
  case reset => simpa only [Exch.Place, h1] using hp
  case marker => simpa only [Exch.Place, h1] using hp
  case activate => simpa only [Exch.Place, h1] using hp
  case block u =>
    obtain ⟨hp, hv, hc⟩ := hp
    refine ⟨?_, hv, ?_⟩
    · cases u
      case readbytes =>
        obtain ⟨a, b, c, d, e, f⟩ := hp
        exact ⟨a, b, c, d, e, by show sc.k.toNat < _; rw [h2]; exact f⟩
      all_goals exact hp
    · cases u
      case readbytes =>
        obtain ⟨a, b, c⟩ := hc
        exact ⟨by show sc.lba = _ + sc.k; rw [h5, h2]; exact a,
          by show sc.written = sc.k.toNat * _ - _; rw [h2, h3]; exact b,
          by show sc.dst = _ + BitVec.ofNat 32 sc.written; rw [h3, h4]; exact c⟩
      all_goals exact h5.trans hc
  all_goals exact hp

theorem startPoll_inv {s : State} {op : Byte} {l : Label} {x : Exch} (h : s.Live) (he : s.eng = .running op l)
    (hp : x.Place op s) (hx : x ≠ .send) : (startPoll x s).Inv :=
  (h.ask _ _ _).inv (op := op) (l := .poll x) (Eng.moveTo_of_running he _)
    ⟨hp.congr _ _ _ rfl rfl rfl rfl rfl, hx, Nat.le_refl _, respBudget_pos h.toCoreInv x⟩

theorem startReadresp_inv {s : State} {op : Byte} {l : Label} (h : s.Live) (he : s.eng = .running op l) (ho : op = 0x04) :
    (startReadresp s).Inv := by
  unfold startReadresp
  split
  · rename_i ha
    exact startPoll_inv h he ⟨ho, ha⟩ (by simp)
  · exact h.complete_inv _

theorem finishReadresp_inv {s : State} (h : s.Live) : (finishReadresp s).Inv := by
  refine State.Live.complete_inv ?_ _
  exact ⟨⟨h.legal, h.session, h.volume, h.cfg, h.buffers, h.scan, h.dmem⟩, h.done, h.err, h.errcode, h.soft, h.held⟩

theorem startOp_inv {s : State} {op : Byte} {l : Label} (h : s.Live) (he : s.eng = .running op l) : (startOp op s).Inv := by
  unfold startOp
  split
  case isFalse => exact h.complete_inv _
  case isTrue hlegal =>
  have hop : ∀ n : Nat, n < 256 → op.toNat = n → op = BitVec.ofNat 8 n := by
    intro n hn h; exact BitVec.eq_of_toNat_eq (by simp; omega)
  have hready : s.isReady = true → s.status.stage = .ready := by intro hr; simpa [State.isReady] using hr
  unfold opLegal at hlegal
  unfold opBody
  split at hlegal
  case h_1 e =>
    try rw [e]
    exact startBringup_inv h he (hop _ (by decide) e) (by simpa using hlegal)
  case h_2 e =>
    try rw [e]
    simp only [Bool.and_eq_true, Bool.not_eq_true'] at hlegal
    exact startSpeedup_inv h he (hop _ (by decide) e) (hready hlegal.1) hlegal.2
  case h_3 e =>
    try rw [e]
    exact startSendcmd_inv h he (hop _ (by decide) e)
  case h_4 e =>
    try rw [e]
    exact startReadresp_inv h he (hop _ (by decide) e)
  case h_5 e =>
    try rw [e]
    exact startReadblk_inv h he (hop _ (by decide) e) (hready hlegal)
  case h_6 e =>
    try rw [e]
    exact startReadbytes_inv h he (hop _ (by decide) e) (hready hlegal)
  case h_7 e =>
    try rw [e]
    exact startPartition_inv h he (hop _ (by decide) e) (hready hlegal)
  case h_8 e =>
    try rw [e]
    exact startMount_inv h he (hop _ (by decide) e) (hready hlegal)
  case h_9 e =>
    try rw [e]
    exact startClus2lba_inv h
  case h_10 e =>
    try rw [e]
    exact startDecslot_inv h
  case h_11 e =>
    try rw [e]
    simp only [Bool.and_eq_true] at hlegal
    exact startDirstart_inv h hlegal.1 (hready hlegal.2)
  case h_12 e =>
    try rw [e]
    simp only [Bool.and_eq_true, Bool.or_eq_true, Bool.not_eq_true'] at hlegal
    refine startDirnext_inv h he (hop _ (by decide) e) (fun ha => ?_)
    rcases hlegal.2 with hi | hr
    · exact absurd (hi.symm.trans ha) (by simp)
    · exact hready hr
  case h_13 => cases hlegal

theorem exchErr_inv {s : State} {op : Byte} {x : Exch} (h : s.Live) (hp : x.Place op s) : (exchErr x s).Inv := by
  cases x
  case send => exact h.complete_inv _
  case resp => exact h.complete_inv _
  case block u => exact blockFail_inv h hp.1 _
  case ocr =>
    refine bringupFail_inv h (h.blockSize_zero ?_ ?_) _ <;> (rw [hp.2]; split <;> simp)
  all_goals exact bringupFail_inv h (h.blockSize_zero (by simp [hp.2]) (by simp [hp.2])) _

theorem exchNoResp_inv {s : State} {op : Byte} {l : Label} {x : Exch} (h : s.Live) (he : s.eng = .running op l)
    (hp : x.Place op s) : (exchNoResp x s).Inv := by
  cases x
  case send => exact h.complete_inv _
  case resp => exact h.complete_inv _
  case reset => exact nextReset_inv h he hp
  case marker => exact nextInit_inv h he hp
  case activate => exact nextInit_inv h he hp
  case block u => exact blockFail_inv h hp.1 _
  case ocr =>
    refine bringupFail_inv h (h.blockSize_zero ?_ ?_) _ <;> (rw [hp.2]; split <;> simp)
  case iface => exact bringupFail_inv h (h.blockSize_zero (by simp [hp.2]) (by simp [hp.2])) _

theorem exchGot_inv {s : State} {op : Byte} {l : Label} {x : Exch} (h : s.Live) (he : s.eng = .running op l)
    (hp : x.Place op s) : (exchGot x s).Inv := by
  cases x
  case send => exact h.complete_inv _
  case resp => exact finishReadresp_inv h
  case reset => exact gotReset_inv h he hp
  case iface => exact gotIface_inv h he hp
  case marker => exact gotMarker_inv h he hp
  case activate => exact gotActivate_inv h he hp
  case ocr => exact gotOcr_inv h he hp
  case block u => exact gotStatus_inv h he hp

theorem afterBlock_inv {s : State} {op : Byte} {l : Label} {u : BlockUse} (h : s.Live) (he : s.eng = .running op l)
    (hp : u.Place op s) (hv : s.status.bufvalid = true) (hc : u.Aims s) : (afterBlock u s).Inv := by
  cases u
  case readblk => exact h.complete_inv _
  case readbytes => exact startCopy_inv h he hp hv hc
  case partition => exact finishPartition_inv h
  case mountMbr => exact mountPartition_inv h he hp
  case mountBoot => exact finishMount_inv h hp
  case dirnext => exact dirBlockRead_inv h he hp hv

theorem dataDone_inv {s : State} {op : Byte} {l : Label} {u : BlockUse} (h : s.Live) (he : s.eng = .running op l)
    (hp : u.Place op s) (hc : u.Aims s) : (dataDone u s).Inv := by
  have hn := h.session.ready hp.1
  unfold dataDone
  split
  · refine afterBlock_inv (op := op) (l := l) ?_ he ?_ rfl ?_
    · exact ⟨⟨h.legal, ⟨h.session.sizes, h.session.ready, h.session.stages, h.session.failed, h.session.hc, h.session.spedUp,
        h.session.mounted, fun _ => hn⟩, h.volume, h.cfg, h.buffers, ⟨h.scan.active, h.scan.inactive, fun _ => rfl,
        h.scan.slot, h.scan.frags, h.scan.units⟩, h.dmem⟩, h.done, h.err, h.errcode, h.soft, h.held⟩
    · cases u <;> exact hp
    · cases u <;> exact hc
  · refine blockFail_inv (op := op) ?_ ?_ _
    · exact ⟨⟨h.legal, h.session, h.volume, h.cfg, h.buffers, h.scan, h.dmem⟩, h.done, h.err, h.errcode, h.soft, h.held⟩
    · cases u <;> exact hp

theorem frameStep_inv {s : State} {op : Byte} {x : Exch} (h : s.Live) (he : s.eng = .running op (.frame x))
    (hp : Label.Place (.frame x) op s) : (frameStep x s).Inv := by
  obtain ⟨hp, hx, hi⟩ := hp
  unfold frameStep
  split
  · rename_i hlt
    have hi1 : (s.scratch.i + 1).toNat = s.scratch.i.toNat + 1 := toNat_add_one hlt (by decide)
    exact (h.ask _ _ _).inv (op := op) (l := .frame x) (Eng.moveTo_of_running he _)
      ⟨hp.congr _ _ _ rfl rfl rfl rfl rfl, hx, (Nat.le_of_eq hi1).trans hlt⟩
  · unfold frameSent
    split
    · exact h.complete_inv _
    all_goals exact startPoll_inv h he hp (by simp)

theorem pollStep_inv {s : State} {op : Byte} {x : Exch} (h : s.Live) (he : s.eng = .running op (.poll x))
    (hp : Label.Place (.poll x) op s) (b : Byte) : (pollStep x b s).Inv := by
  obtain ⟨hp, hx, h1, h2⟩ := hp
  unfold pollStep
  split
  · split
    · rename_i hlt
      have hp1 : (s.scratch.poll + 1).toNat = s.scratch.poll.toNat + 1 := toNat_add_one hlt (respBudget_lt hp)
      refine (h.ask _ _ _).inv (op := op) (l := .poll x) (Eng.moveTo_of_running he _)
        ⟨hp.congr _ _ _ rfl rfl rfl rfl rfl, hx, (Nat.le_add_left 1 _).trans (Nat.le_of_eq hp1.symm), ?_⟩
      have : respBudget x (s.ask { s.scratch with poll := s.scratch.poll + 1 } (.xfer 0xFF) (.poll x)) = respBudget x s := by
        cases x <;> rfl
      rw [this]; exact (Nat.le_of_eq hp1).trans hlt
    · exact exchNoResp_inv h he hp
  · simp only
    have hp' : x.Place op (s.put { s.scratch with resp := s.scratch.resp.setIfInBounds 0 b, i := 1 }) :=
      hp.congr _ _ _ rfl rfl rfl rfl rfl
    split
    · exact exchGot_inv (h.put _) (op := op) (l := .poll x) he hp'
    · rename_i hc
      refine (h.ask _ _ _).inv (op := op) (l := .rest x) (Eng.moveTo_of_running he _)
        ⟨hp.congr _ _ _ rfl rfl rfl rfl rfl, hx, Nat.le_refl _, ?_⟩
      have : respCount x (s.ask { s.scratch with resp := s.scratch.resp.setIfInBounds 0 b, i := 1 } (.xfer 0xFF) (.rest x))
          = respCount x s := by cases x <;> rfl
      rw [this]; show 1 < respCount x s; omega

theorem restStep_inv {s : State} {op : Byte} {x : Exch} (h : s.Live) (he : s.eng = .running op (.rest x))
    (hp : Label.Place (.rest x) op s) (c : Byte) : (restStep x c s).Inv := by
  obtain ⟨hp, hx, h1, h2⟩ := hp
  unfold restStep
  simp only
  split
  · rename_i hlt
    have hc := respCount_le hp
    have hi1 : (s.scratch.i + 1).toNat = s.scratch.i.toNat + 1 := toNat_add_one h2 (by omega)
    refine (h.ask _ _ _).inv (op := op) (l := .rest x) (Eng.moveTo_of_running he _)
      ⟨hp.congr _ _ _ rfl rfl rfl rfl rfl, hx, (Nat.le_add_left 1 _).trans (Nat.le_of_eq hi1.symm), ?_⟩
    have : respCount x (s.ask { s.scratch with resp := s.scratch.resp.setIfInBounds s.scratch.i.toNat c, i := s.scratch.i + 1 } (.xfer 0xFF)
        (.rest x)) = respCount x s := by cases x <;> rfl
    rw [this]; exact (Nat.lt_of_le_of_lt (Nat.le_of_eq hi1) hlt)
  · exact exchGot_inv (h.put _) (op := op) (l := .rest x) he (hp.congr _ _ _ rfl rfl rfl rfl rfl)

theorem dataStep_inv {s : State} {op : Byte} {u : BlockUse} (h : s.Live) (he : s.eng = .running op (.data u))
    (hp : Label.Place (.data u) op s) (d : Byte) : (dataStep u d s).Inv := by
  obtain ⟨hp, hv, hc, hi⟩ := hp
  obtain ⟨kL, ke, kp, kv, kc, kb⟩ := takeDatum_keeps d h he hp hv hc
  unfold dataStep
  simp only
  split
  · rename_i hlt
    refine (kL.ask _ _ _).inv (op := op) (l := .data u) (Eng.moveTo_of_running ke _) ⟨?_, kv, ?_, ?_⟩
    · cases u <;> exact kp
    · cases u <;> exact kc
    · have hle := h.bs_le
      have hi1 : (s.scratch.i + 1).toNat = s.scratch.i.toNat + 1 := toNat_add_one hlt (by omega)
      show (s.scratch.i + 1).toNat ≤ (takeDatum d s).bs + 2
      rw [kb, hi1]; exact hlt
  · exact dataDone_inv kL ke kp kc

theorem engAnswer_inv {s : State} (h : s.Inv) (r : Answer) : (engAnswer r s).Inv := by
  unfold engAnswer
  split
  · exact State.blockReset_inv h.legal h.dmem
  · rename_i hs
    have hs : s.softReset = false := by simpa using hs
    have hE := h.engine
    split
    all_goals (first | (rename_i he; simp only [State.EngineInv, he] at hE))
    · exact afterWarmup_inv (h.live he hs) he hE.1 hE.2
    · split <;> exact finishSpeedup_inv (h.live he hs) hE.2.1 hE.2.2 _
    · split
      · exact frameStep_inv (h.live he hs) he hE
      · exact exchErr_inv (h.live he hs) hE.1
    · split
      · exact pollStep_inv (h.live he hs) he hE _
      · exact exchErr_inv (h.live he hs) hE.1
    · split
      · exact restStep_inv (h.live he hs) he hE _
      · exact exchErr_inv (h.live he hs) hE.1
    · split
      · exact dataStep_inv (h.live he hs) he hE _
      · exact blockFail_inv (h.live he hs) hE.1 _
    all_goals exact h

theorem sendFirst_inv {s : State} {op : Byte} {x : Exch} (h : s.Live) (he : s.eng = .running op (.ready x))
    (hp : x.Place op s) (hx : x ≠ .resp) : (sendFirst x s).Inv :=
  (h.ask _ _ _).inv (op := op) (l := .frame x) (Eng.moveTo_of_running he _)
    ⟨hp.congr _ _ _ rfl rfl rfl rfl rfl, hx, Nat.zero_le _⟩

theorem engInternal_inv {s : State} (h : s.Inv) : (engInternal s).Inv := by
  unfold engInternal
  split
  · exact State.blockReset_inv h.legal h.dmem
  · rename_i hs
    have hs : s.softReset = false := by simpa using hs
    have hE := h.engine
    split
    all_goals (first | (rename_i he; simp only [State.EngineInv, he] at hE))
    · exact startOp_inv (h.live he hs) he
    · exact sendFirst_inv (h.live he hs) he hE.1 hE.2.1
    · exact copyStep_inv (h.live he hs) he hE
    all_goals exact h

theorem internalRun_inv : ∀ (n : Nat) {s : State}, s.Inv → (internalRun n s).Inv
  | 0, _, h => h
  | n + 1, s, h => by
    unfold internalRun
    split
    · exact internalRun_inv n (engInternal_inv h)
    · exact h

/-- A block held in reset has no op. -/
theorem State.Inv.held_idle {s : State} (h : s.Inv) (hr : s.inReset = true) : s.eng = .idle := by
  by_contra hc
  exact absurd (h.not_held hc) (by simp [hr])

/-- The inputs and what host reads returned are no part of the invariant, apart from a block held in reset. -/
theorem State.Inv.withEvents {s : State} (h : s.Inv) (es : List Event) : State.Inv { s with events := es } :=
  ⟨h.legal, h.session, h.volume, h.cfg, h.buffers, h.scan, h.completion, h.engine, h.soft, by
    intro hr
    show ({ { s with inReset := false } with events := es } : State) = { s.blockReset with events := es }
    rw [h.held hr], h.dmem⟩

theorem drive_inv : ∀ (es : List Event) {s : State}, s.Inv → (drive es s).Inv
  | [], _, h => (internalRun_inv _ h).withEvents _
  | .answer r :: es, s, h => by
    unfold drive
    split
    · exact drive_inv es (engAnswer_inv (internalRun_inv _ h) r)
    · exact (internalRun_inv _ h).withEvents _
  | .host p a :: es, s, h => by
    unfold drive paceRun
    split <;> exact (internalRun_inv _ h).withEvents _
  | .hard p l :: es, s, h => by
    unfold drive paceRun
    split <;> exact (internalRun_inv _ h).withEvents _

theorem exchange_inv : ∀ (es : List Event) {s : State}, s.Inv → (exchange es s).Inv
  | [], _, h => h.withEvents _
  | .answer r :: es, s, h => by
    unfold exchange
    split
    · exact exchange_inv es (engAnswer_inv h r)
    · exact h.withEvents _
  | .host p a :: es, s, h => h.withEvents _
  | .hard p l :: es, s, h => h.withEvents _

/-! ## Host accesses and instructions -/

/-- What the engine's place is about. -/
def State.view (s : State) : State :=
  { State.fresh s.params with
    status := { s.status with opovr := false }
    scratch := s.scratch
    cfg := s.cfg
    a0 := s.a0
    a1 := s.a1
    a2 := s.a2
    blockSize := s.blockSize
    dir := s.dir
    part := s.part }

theorem BlockUse.place_view (u : BlockUse) (op : Byte) (s : State) : u.Place op s = u.Place op s.view := by
  cases u <;> rfl

theorem BlockUse.aims_view (u : BlockUse) (s : State) : u.Aims s = u.Aims s.view := by cases u <;> rfl

theorem Exch.place_view (x : Exch) (op : Byte) (s : State) : x.Place op s = x.Place op s.view := by
  cases x
  case block u => cases u <;> rfl
  all_goals rfl

theorem Label.place_view (l : Label) (op : Byte) (s : State) : l.Place op s = l.Place op s.view := by
  cases l
  case ready x => simp only [Label.Place]; rw [x.place_view]; cases x <;> rfl
  case frame x => simp only [Label.Place]; rw [x.place_view]; rfl
  case poll x => simp only [Label.Place]; rw [x.place_view]; cases x <;> rfl
  case rest x => simp only [Label.Place]; rw [x.place_view]; cases x <;> rfl
  case data u => simp only [Label.Place]; rw [u.place_view, u.aims_view]; rfl
  all_goals rfl

/-- The engine's place is the same in two states that agree on what it is about. -/
theorem State.EngineInv.of_view {s t : State} (h : s.EngineInv) (he : t.eng = s.eng) (hv : t.view = s.view) :
    t.EngineInv := by
  unfold State.EngineInv at h ⊢
  rw [he]
  split
  · trivial
  · rename_i op l e
    rw [e] at h
    rw [l.place_view, hv, ← l.place_view]; exact h

theorem launch_inv {s t : State} {op : Byte} (h : s.Inv) (hl : launch op s = .next t) : t.Inv := by
  unfold launch at hl
  split at hl
  · cases hl; exact h
  · rename_i hr
    have hr : s.inReset = false := by simpa using hr
    split at hl
    · cases hl
      exact ⟨h.legal, ⟨h.session.sizes, h.session.ready, h.session.stages, h.session.failed, h.session.hc, h.session.spedUp,
        h.session.mounted, h.session.bufvalid⟩, h.volume, h.cfg, h.buffers,
        ⟨h.scan.active, h.scan.inactive, h.scan.loaded, h.scan.slot, h.scan.frags, h.scan.units⟩,
        ⟨h.completion.done, h.completion.err, h.completion.errDone⟩,
        h.engine.of_view rfl rfl,
        h.soft, fun hh => absurd (hr.symm.trans hh) (by simp), h.dmem⟩
    · rename_i hb
      cases hl
      have hb : s.eng.isRunning = false ∧ s.softReset = false := by simpa [State.busy] using hb
      apply drive_inv
      refine State.Live.inv (op := op) (l := .start) ?_ rfl trivial
      exact ⟨⟨h.legal, ⟨h.session.sizes, h.session.ready, h.session.stages, h.session.failed, h.session.hc, h.session.spedUp,
        h.session.mounted, h.session.bufvalid⟩, h.volume, h.cfg, h.buffers,
        ⟨h.scan.active, h.scan.inactive, h.scan.loaded, h.scan.slot, h.scan.frags, h.scan.units⟩, h.dmem⟩, rfl, rfl, rfl, hb.2, hr⟩

theorem sendWire_inv {s t : State} {p : Exch → Bool} {idx : BitVec 6} {arg : Word} (h : s.Inv)
    (hl : sendWire p idx arg s = .next t) : t.Inv := by
  unfold sendWire at hl
  split at hl
  · rename_i op x he
    split at hl
    · split at hl
      · cases hl; exact State.blockReset_inv h.legal h.dmem
      · rename_i hs
        cases hl
        have hs : s.softReset = false := by simpa using hs
        have hE := h.engine
        simp only [State.EngineInv, he] at hE
        exact exchange_inv _ (sendFirst_inv ((h.live he hs).put _) he (hE.1.congr _ _ _ rfl rfl rfl rfl rfl) hE.2.1)
    · cases hl
  all_goals cases hl

theorem exec_inv {s t : State} {i : Instr} (h : s.Inv) (he : exec i s = .next t) : t.Inv := by
  cases i
  case cmd0 => exact sendWire_inv h he
  case cmd8 => exact sendWire_inv h he
  case cmd17 => exact sendWire_inv h he
  case cmd55 => exact sendWire_inv h he
  case acmd41 => exact sendWire_inv h he
  case cmd58 => exact sendWire_inv h he
  all_goals exact launch_inv h he

/-- A host read changes nothing but the count of free values used (20_memory.md R76). -/
theorem State.readReg_snd (s : State) (off : Nat) :
    ∃ n, (s.readReg off).2 = { s with draws := n } := by
  have h1 : ∀ v, ∃ n, (s.readRes v).2 = { s with draws := n } := by
    intro v; unfold State.readRes; split
    · exact ⟨_, rfl⟩
    · exact ⟨s.draws, rfl⟩
  unfold State.readReg
  split
  all_goals first
    | exact h1 _
    | exact ⟨s.draws, rfl⟩
    | skip
  split
  · exact ⟨_, rfl⟩
  · split
    · exact ⟨_, rfl⟩
    · exact ⟨s.draws, rfl⟩

theorem cfgStored_ge (v : Word) (lo : Byte) : lo.toNat ≤ (cfgStored v lo).toNat := by
  unfold cfgStored; split <;> omega

theorem State.writeCfg_inv {s : State} (h : s.Inv) (hr : s.inReset = false) (f : Cfg → Cfg) (hf : CfgInv (f s.cfg)) :
    (s.writeCfg f).Inv := by
  unfold State.writeCfg
  split
  · exact h
  · rename_i hb
    have hb : s.eng.isRunning = false ∧ s.softReset = false := by simpa [State.busy] using hb
    have he : s.eng = .idle := by
      cases he : s.eng with
      | idle => rfl
      | running op l => simp [he] at hb
    exact ⟨h.legal, h.session, h.volume, hf, h.buffers, h.scan, h.completion, by simp [State.EngineInv, he], h.soft,
      fun hh => absurd (hr.symm.trans hh) (by simp), h.dmem⟩

theorem State.writeReg_inv {s : State} (h : s.Inv) (hr : s.inReset = false) (off : Nat) (v : Word) :
    (s.writeReg off v).Inv := by
  have hd : ∀ {P : Prop}, s.inReset = true → P := fun hh => absurd (hr.symm.trans hh) (by simp)
  unfold State.writeReg
  split
  · unfold State.writeCtrl
    split
    · split
      · rename_i hb
        refine ⟨h.legal, h.session, h.volume, h.cfg, h.buffers, h.scan, h.completion, h.engine.of_view rfl rfl, ?_,
          fun hh => hd hh, h.dmem⟩
        intro _ he
        have he : s.eng = .idle := he
        simp only [State.busy, he, Eng.isRunning_idle, Bool.false_or] at hb
        exact h.soft hb he
      · exact State.blockReset_inv h.legal h.dmem
    · exact ⟨h.legal, h.session, h.volume, h.cfg, h.buffers, h.scan, h.completion, h.engine.of_view rfl rfl, h.soft,
        fun hh => hd hh, h.dmem⟩
  · split
    · exact ⟨h.legal, h.session, h.volume, h.cfg, h.buffers, h.scan, h.completion, h.engine.of_view rfl rfl, h.soft,
        fun hh => hd hh, h.dmem⟩
    · exact h
  · exact ⟨h.legal, h.session, h.volume, h.cfg, h.buffers, h.scan, h.completion, h.engine.of_view rfl rfl, h.soft,
        fun hh => hd hh, h.dmem⟩
  · exact ⟨h.legal, h.session, h.volume, h.cfg, h.buffers, h.scan, h.completion, h.engine.of_view rfl rfl, h.soft,
        fun hh => hd hh, h.dmem⟩
  · exact ⟨h.legal, h.session, h.volume, h.cfg, h.buffers, h.scan, h.completion, h.engine.of_view rfl rfl, h.soft,
        fun hh => hd hh, h.dmem⟩
  · exact State.writeCfg_inv h hr _ ⟨cfgStored_ge v 1, h.cfg.resetRetries, h.cfg.initRetries, h.cfg.warmupBytes⟩
  · exact State.writeCfg_inv h hr _ ⟨h.cfg.respBudget, cfgStored_ge v 1, h.cfg.initRetries, h.cfg.warmupBytes⟩
  · exact State.writeCfg_inv h hr _ ⟨h.cfg.respBudget, h.cfg.resetRetries, cfgStored_ge v 1, h.cfg.warmupBytes⟩
  · exact State.writeCfg_inv h hr _ ⟨h.cfg.respBudget, h.cfg.resetRetries, h.cfg.initRetries, cfgStored_ge v 10⟩
  · exact h

theorem hostAccess_inv {s t : State} {a : HostAccess} (h : s.Inv) (hr : s.inReset = false)
    (he : hostAccess a s = .next t) : t.Inv := by
  have hd : ∀ {P : Prop}, s.inReset = true → P := fun hh => absurd (hr.symm.trans hh) (by simp)
  unfold hostAccess at he
  split at he
  · cases he
  · split at he
    · cases he
    · split at he
      · obtain ⟨n, hn⟩ := s.readReg_snd (a.addr - s.params.base)
        simp only [hn] at he
        cases he
        exact ⟨h.legal, h.session, h.volume, h.cfg, h.buffers, h.scan, h.completion, h.engine.of_view rfl rfl, h.soft,
          fun hh => hd hh, h.dmem⟩
      · split at he
        · unfold writeOp at he
          split at he
          · exact exec_inv h he
          · exact launch_inv h he
        · cases he; exact State.writeReg_inv h hr _ _

end Sys2Proof.Machine
end

