-- ==== Sys2Proof/Laws/PerInstr.lean ====
section
/-! SUPPORT. One lemma per instruction: the length and the leading bits of its encoding. -/

namespace Sys2Proof.Laws.FormatLength

/-- A host op is four bytes, the first its OPCODE, and has no command index; a wire command is six bytes, of which the first has
the start bits 01 and the last is the checksum of its index, and has no OPCODE (30_encoding.md R100, R110, R111). -/
def Statement (i : Instr) : Prop :=
  match opcodeOf i, commandOf i with
  | some op, none => (encode i).length = 4 ∧ (encode i).head? = some op
  | none, some (idx, _) => (encode i).length = 6 ∧ ((encode i).getD 0 0).extractLsb' 6 2 = 1#2
      ∧ ((encode i).getD 0 0).extractLsb' 0 6 = idx ∧ (encode i).getLast? = some (checksum idx)
  | _, _ => False

theorem bringup : Statement .bringup := by simp only [Statement, opcodeOf, commandOf]; decide

theorem speedup : Statement .speedup := by simp only [Statement, opcodeOf, commandOf]; decide

theorem sendcmd : Statement .sendcmd := by simp only [Statement, opcodeOf, commandOf]; decide

theorem readresp : Statement .readresp := by simp only [Statement, opcodeOf, commandOf]; decide

theorem readblk : Statement .readblk := by simp only [Statement, opcodeOf, commandOf]; decide

theorem readbytes : Statement .readbytes := by simp only [Statement, opcodeOf, commandOf]; decide

theorem partition : Statement .partition := by simp only [Statement, opcodeOf, commandOf]; decide

theorem mount : Statement .mount := by simp only [Statement, opcodeOf, commandOf]; decide

theorem clus2lba : Statement .clus2lba := by simp only [Statement, opcodeOf, commandOf]; decide

theorem decslot : Statement .decslot := by simp only [Statement, opcodeOf, commandOf]; decide

theorem dirstart : Statement .dirstart := by simp only [Statement, opcodeOf, commandOf]; decide

theorem dirnext : Statement .dirnext := by simp only [Statement, opcodeOf, commandOf]; decide

theorem cmd0 : Statement .cmd0 := by simp only [Statement, opcodeOf, commandOf]; decide

theorem cmd8 : Statement .cmd8 := by simp only [Statement, opcodeOf, commandOf]; decide

theorem cmd55 : Statement .cmd55 := by simp only [Statement, opcodeOf, commandOf]; decide

theorem acmd41 : Statement .acmd41 := by simp only [Statement, opcodeOf, commandOf]; decide

theorem cmd58 : Statement .cmd58 := by simp only [Statement, opcodeOf, commandOf]; decide

theorem cmd17 (arg : Word) : Statement (.cmd17 arg) := by
  have h0 : frameByte (frameWord 17 arg) 0 = 0x51 := by
    ext i hi
    simp only [frameByte, frameWord, BitVec.getElem_extractLsb', BitVec.getLsbD_append]
    rcases (by omega : i = 0 ∨ i = 1 ∨ i = 2 ∨ i = 3 ∨ i = 4 ∨ i = 5 ∨ i = 6 ∨ i = 7) with h | h | h | h | h | h | h | h <;>
      subst h <;> simp
  have h5 : frameByte (frameWord 17 arg) 5 = 0xFF := by
    ext i hi
    simp only [frameByte, frameWord, BitVec.getElem_extractLsb', BitVec.getLsbD_append]
    rcases (by omega : i = 0 ∨ i = 1 ∨ i = 2 ∨ i = 3 ∨ i = 4 ∨ i = 5 ∨ i = 6 ∨ i = 7) with h | h | h | h | h | h | h | h <;>
      subst h <;> simp [checksum]
  simp only [Statement, encode, opcodeOf, commandOf, frameBytes, h0, h5]
  exact ⟨rfl, by simp, by simp, rfl⟩

end Sys2Proof.Laws.FormatLength
end

