-- ==== Sys2Proof/Laws/Step.lean ====
section
/-! SUPPORT. What a step does, said once for each kind of it; what a host access can do. -/

namespace Sys2Proof.Machine

/-! ## The kinds of step -/

theorem landsNow_host_zero (a : HostAccess) (es : List Event) : landsNow (.host (some 0) a :: es) = true := rfl

theorem landsNow_hard_zero (l : Bool) (es : List Event) : landsNow (.hard (some 0) l :: es) = true := rfl

/-- A block that is not held in reset and has no internal step to make first takes an input. -/
theorem step_input {s : State} (hr : s.inReset = false) (h : s.internal = false ∨ landsNow s.events = true) :
    step s = inputStep s := by
  have : (s.internal && !landsNow s.events) = false := by rcases h with h | h <;> simp [h]
  unfold step schedule
  rw [hr, this]
  rfl

/-- A block that is not held in reset and has an internal step to make makes it when no input lands before. -/
theorem step_internal {s : State} (hr : s.inReset = false) (hi : s.internal = true) (h : landsNow s.events = false) :
    step s = advance s := by
  unfold step schedule
  rw [hr, hi, h]
  rfl

/-- A block held in reset. -/
theorem step_held {s : State} (hr : s.inReset = true) : step s = heldStep s := by
  unfold step schedule
  rw [hr]
  rfl

/-- A host access lands. -/
theorem step_host {s : State} {p : Option Nat} {a : HostAccess} {es : List Event} (hr : s.inReset = false)
    (hp : s.internal = false ∨ p = some 0) (he : s.events = .host p a :: es) :
    step s = hostAccess a { s with events := es } := by
  rw [step_input hr (by rcases hp with h | h; exact .inl h; exact .inr (by rw [he, h, landsNow_host_zero]))]
  simp only [inputStep, he]

/-- The reset input is asserted. -/
theorem step_assert {s : State} {p : Option Nat} {es : List Event} (hr : s.inReset = false)
    (hp : s.internal = false ∨ p = some 0) (he : s.events = .hard p true :: es) :
    step s = .next { s.blockReset with inReset := true, events := es } := by
  rw [step_input hr (by rcases hp with h | h; exact .inl h; exact .inr (by rw [he, h, landsNow_hard_zero]))]
  simp only [inputStep, he]

/-- A waiting engine takes the transport's answer and runs on. -/
theorem step_answer {s : State} {r : Answer} {es : List Event} (hr : s.inReset = false) (hw : s.waiting = true)
    (he : s.events = .answer r :: es) : step s = .next (drive (.answer r :: es) s) := by
  have hi : s.internal = false := by
    unfold State.waiting at hw; unfold State.internal; split at hw <;> simp_all
  rw [step_input hr (.inl hi)]
  simp only [inputStep, he, hw, if_true]

/-! ## Host accesses -/

/-- A host access of the modelled shape inside the block. -/
theorem hostAccess_ok {s : State} {off : Nat} {d : HostDir} (hb : s.params.base % 4 = 0) (ho : off % 4 = 0)
    (hs : off < 2048) :
    hostAccess { bits := 32, addr := s.params.base + off, dir := d } s =
      match d with
      | .rd => .next { (s.readReg off).2 with reads := (s.readReg off).2.reads ++ [{ off := off, val := (s.readReg off).1 }] }
      | .wr v => if off = 0 then writeOp v s else .next (s.writeReg off v) := by
  have h1 : HostAccess.shapeOk { bits := 32, addr := s.params.base + off, dir := d } = true := by
    simp [HostAccess.shapeOk]; omega
  have h2 : HostAccess.inSpace { bits := 32, addr := s.params.base + off, dir := d } s.params = true := by
    simp [HostAccess.inSpace, Config.spaceBytes]; omega
  have h3 : s.params.base + off - s.params.base = off := by omega
  unfold hostAccess
  cases d <;> simp [h1, h2, h3]

/-! ## Host reads -/

/-- A host read changes nothing of the block but the count of free values used (20_memory.md R76). -/
theorem readReg_state (s : State) (off : Nat) : (s.readReg off).2 = { s with draws := (s.readReg off).2.draws } := by
  unfold State.readReg
  split
  all_goals first
    | rfl
    | (unfold State.readRes; split <;> rfl)
    | (split; · rfl
       · split <;> rfl)

/-- A read beyond the listed registers (10_state.md R46, 20_memory.md R71). -/
theorem readReg_beyond (s : State) {off : Nat} (h : 0x094 ≤ off) :
    s.readReg off =
      if 0x200 ≤ off ∧ off < 0x400 then s.readWindow s.blockbufView (off - 0x200)
      else if 0x400 ≤ off ∧ off < 0x800 then s.readWindow s.namebufView (off - 0x400)
      else (0, s) := by
  unfold State.readReg
  split
  all_goals first
    | (exfalso; omega)
    | rfl

/-- Byte `j` of a window word (20_memory.md R74). -/
theorem wordOfBytes_byte (b0 b1 b2 b3 : Byte) :
    (wordOfBytes b0 b1 b2 b3).extractLsb' 0 8 = b0 ∧ (wordOfBytes b0 b1 b2 b3).extractLsb' 8 8 = b1
    ∧ (wordOfBytes b0 b1 b2 b3).extractLsb' 16 8 = b2 ∧ (wordOfBytes b0 b1 b2 b3).extractLsb' 24 8 = b3 := by
  refine ⟨?_, ?_, ?_, ?_⟩ <;>
    (ext i hi
     simp only [wordOfBytes, BitVec.getElem_extractLsb', BitVec.getLsbD_append]
     repeat' split
     all_goals first
       | omega
       | skip
     all_goals (rw [BitVec.getLsbD_eq_getElem (by omega)]; congr 1; try omega))

/-! ## Op issue -/

/-- A write of OP with BUSY = 1 only sets OPOVR (10_state.md R30). -/
theorem launch_busy {s : State} (op : Byte) (hr : s.inReset = false) (hb : s.busy = true) :
    launch op s = .next { s with status := { s.status with opovr := true } } := by
  unfold launch
  rw [hr, hb]
  rfl

/-- A write of OP with BUSY = 0 issues the op and the engine runs it over the inputs (10_state.md R50). -/
theorem launch_issue {s : State} (op : Byte) (he : s.eng = .idle) (hs : s.softReset = false) (hr : s.inReset = false) :
    launch op s = .next (drive s.events (s.issue op)) := by
  have hb : s.busy = false := by simp [State.busy, he, Eng.isRunning, hs]
  unfold launch
  rw [hr, hb]
  rfl

/-- An op whose own step ends it, issued over inputs that do not land before it. -/
theorem launch_over {s : State} (op : Byte) (h : s.CanIssue) (hp : Prompt s.events)
    (ho : (startOp op (s.issue op)).eng = .idle) :
    launch op s = .next { startOp op (s.issue op) with events := s.events } := by
  rw [launch_issue op h.1 h.2.1 h.2.2]
  exact congrArg Host.Outcome.next (drive_start_over rfl h.2.1 hp ho)

/-- An op whose own step ends before a frame, issued over answers it takes from the frame's first byte on. -/
theorem launch_ready {s t : State} (op : Byte) {x : Exch} {bs : List Byte} {es : List Event} (h : s.CanIssue)
    (hr : (startOp op (s.issue op)).eng = .running op (.ready x)) (hs : (startOp op (s.issue op)).softReset = false)
    (hne : bs ≠ []) (he : s.events = rx bs ++ es)
    (hf : feed bs (sendFirst x (startOp op (s.issue op))) = some t) : launch op s = .next (drive es t) := by
  rw [launch_issue op h.1 h.2.1 h.2.2, he]
  exact congrArg Host.Outcome.next (drive_start_ready rfl h.2.1 hr hs hne hf)

end Sys2Proof.Machine
end

