-- ==== Sys2Proof/Tests/Slice0.lean ====
section
/-! SUPPORT. Our own tests: ill-formed terms refused, words written out from the spec's encodings, vectors of
95_test_vectors.md, and for every statement with hypotheses a state that meets them. -/

namespace Sys2Proof.Machine

/-- Arguments and inputs put into a state. -/
def State.call (s : State) (v0 v1 v2 : Word) (es : List Event) : State :=
  { s with arg0 := v0, arg1 := v1, arg2 := v2, events := es }

end Sys2Proof.Machine

namespace Sys2Proof.Tests

open Sys2Proof.Machine

set_option maxRecDepth 100000

/-! ## Ill-formed terms -/

theorem test_wf_cmd17_low_bits : (Instr.cmd17 0x00000201).wellFormed = false := by decide
theorem test_wf_cmd17_bit_8 : (Instr.cmd17 0x00000100).wellFormed = false := by decide
theorem test_wf_cmd17 : (Instr.cmd17 0xFFFFFE00).wellFormed = true := by decide
theorem test_access_width : HostAccess.shapeOk { bits := 16, addr := 4, dir := .rd } = false := by decide
theorem test_access_alignment : HostAccess.shapeOk { bits := 32, addr := 6, dir := .rd } = false := by decide
theorem test_access_below : HostAccess.inSpace { bits := 32, addr := 2044, dir := .rd } { Params.standard with base := 2048 } = false := by
  decide
theorem test_access_beyond : HostAccess.inSpace { bits := 32, addr := 2048, dir := .rd } Params.standard = false := by decide
theorem test_params : Params.standard.legal = true := by decide
theorem test_params_std_block_size : { Params.standard with stdBlockSize := 128 }.legal = false := by decide
theorem test_params_resp_budget : { Params.standard with respBudget := 0 }.legal = false := by decide
theorem test_params_reset_retries : { Params.standard with resetRetries := 0 }.legal = false := by decide
theorem test_params_init_retries : { Params.standard with initRetries := 0 }.legal = false := by decide
theorem test_params_warmup : { Params.standard with warmupBytes := 9 }.legal = false := by decide
theorem test_params_fragments_low : { Params.standard with maxFragments := 0 }.legal = false := by decide
theorem test_params_fragments_high : { Params.standard with maxFragments := 64, namebufBytes := 4096 }.legal = false := by decide
theorem test_params_namebuf : { Params.standard with namebufBytes := 779 }.legal = false := by decide
theorem test_params_base : { Params.standard with base := 1024 }.legal = false := by decide

/-! ## Words written out from the encodings (30_encoding.md R102, R112) -/

theorem test_decode_bringup : decodeTableWord 8 0x01 = some .bringup := by decide
theorem test_decode_speedup : decodeTableWord 8 0x02 = some .speedup := by decide
theorem test_decode_sendcmd : decodeTableWord 8 0x03 = some .sendcmd := by decide
theorem test_decode_readresp : decodeTableWord 8 0x04 = some .readresp := by decide
theorem test_decode_readblk : decodeTableWord 8 0x05 = some .readblk := by decide
theorem test_decode_readbytes : decodeTableWord 8 0x06 = some .readbytes := by decide
theorem test_decode_partition : decodeTableWord 8 0x07 = some .partition := by decide
theorem test_decode_mount : decodeTableWord 8 0x08 = some .mount := by decide
theorem test_decode_clus2lba : decodeTableWord 8 0x09 = some .clus2lba := by decide
theorem test_decode_decslot : decodeTableWord 8 0x0A = some .decslot := by decide
theorem test_decode_dirstart : decodeTableWord 8 0x0B = some .dirstart := by decide
theorem test_decode_dirnext : decodeTableWord 8 0x0C = some .dirnext := by decide
/-- T-E3: bits 31:8 of the OP word are ignored. -/
theorem test_decode_ignored_bits : decode [0x05, 0x01, 0x00, 0xFF] = .ok .readblk := by decide
theorem test_decode_cmd0 : decodeTableWord 48 0x400000000095 = some .cmd0 := by decide
theorem test_decode_cmd8 : decodeTableWord 48 0x48000001AA87 = some .cmd8 := by decide
/-- T-B12a. -/
theorem test_decode_cmd17 : decodeTableWord 48 0x51579BDE00FF = some (.cmd17 0x579BDE00) := by decide
theorem test_decode_cmd55 : decodeTableWord 48 0x7700000000FF = some .cmd55 := by decide
theorem test_decode_acmd41 : decodeTableWord 48 0x6940000000FF = some .acmd41 := by decide
theorem test_decode_cmd58 : decodeTableWord 48 0x7A00000000FF = some .cmd58 := by decide
theorem test_reject_op_zero : decode [0x00, 0x00, 0x00, 0x00] = .error (.reservedOpcode 0x00) := by decide
theorem test_reject_op_0D : decode [0x0D, 0x00, 0x00, 0x00] = .error (.reservedOpcode 0x0D) := by decide
theorem test_reject_start_bits : decode [0xC0, 0x00, 0x00, 0x00, 0x00, 0x95] = .error (.badStart 3) := by decide
theorem test_reject_checksum : decode [0x48, 0x00, 0x00, 0x01, 0xAA, 0xFF] = .error (.badChecksum 0xFF) := by decide
theorem test_reject_command : decode [0x48, 0x00, 0x00, 0x00, 0x00, 0x87] = .error (.unlistedCommand 8 0) := by decide
theorem test_reject_length : decode [0x01, 0x00, 0x00] = .error (.badLength 3) := by decide

/-! ## States to test on -/

/-- What a next state holds. -/
def after {α : Type} (o : Host.Outcome State Fault Refusal) (f : State → α) : Option α :=
  match o with
  | .next t => some (f t)
  | .fault _ => none
  | .refused _ => none

/-- A volume as T-F3 leaves it. -/
def vol : Vol where
  bps := 512
  spc := 8
  rsvd := 32
  nfats := 2
  spf := 1000
  rootClus := 2
  bootSig := 0xAA55
  fatLba := 2080
  dataLba := 4080

/-- No scan. -/
def noScan : Dir where
  lba := 0
  left := 0
  slot := 0
  frags := []
  loaded := false

/-- A state after a high-capacity bring-up: the block size, MOUNTED, BUFVALID, DIR_ACTIVE and the scan as given. -/
def rdy (size : Word) (m bv da : Bool) (d : Dir) (buf : List Byte) : State :=
  { State.reset with
    status := { Status.zero with stage := .ready, v2 := size == 512, hc := size == 512, mounted := m, bufvalid := bv, dirActive := da }
    blockSize := size
    vol := vol
    dir := d
    blockbuf := buf }

def zeros : List Byte := List.replicate 512 0

/-- Ready512 of 95_test_vectors.md. -/
def ready512 : State := rdy 512 false false false noScan zeros

/-- Ready with the standard block size. -/
def ready256 : State := rdy 256 false false false noScan zeros

/-- An engine before a wire command of BRINGUP. -/
def at_ (s : State) (x : Exch) (es : List Event) : State :=
  { s with eng := .running 0x01 (.ready x), events := es }

/-- The answers of an exchange with no filler. -/
def rep (r : List Byte) : Reply where
  ignored := [0, 0, 0, 0, 0, 0]
  fillers := 0
  bytes := r

/-- The answers of a block read with no filler. -/
def blk (payload : List Byte) : BlockReply where
  ignored := [0, 0, 0, 0, 0, 0]
  fillers := 0
  payload := payload
  ck0 := 0x12
  ck1 := 0x34

/-- A block whose byte `i` is `k + i`. -/
def ramp (n k : Nat) : List Byte :=
  (List.range n).map (fun i => BitVec.ofNat 8 (k + i))

/-! ## Vectors of 95_test_vectors.md -/

/-- P1. -/
def p1 : List Event :=
  .answer (.ok 0) :: ((rxExchange [0, 0, 0, 0, 0, 0] 1 [0x01] ++ (rep [0x01, 0x00, 0x00, 0x01, 0xAA]).inputs
    ++ (rep [0x01]).inputs ++ (rep [0x01]).inputs ++ (rep [0x01]).inputs ++ (rep [0x00]).inputs)
    ++ (rep [0x00, 0xC0, 0xFF, 0x80, 0x00]).inputs)

theorem test_bringup_p1 : after (exec .bringup (State.reset.call 0 0 0 p1))
    (fun t => (t.statusWord, t.blockSize, t.donePend, t.bus.length)) = some (0x00003502, 512, true, 59) := by decide

/-- P2. -/
def p2 : List Event :=
  .answer (.ok 0) :: ((rep [0x01]).inputs ++ (rep [0x05, 0xFF, 0xFF, 0xFF, 0xFF]).inputs
    ++ (rep [0x01, 0x00, 0x00, 0x00, 0x00]).inputs ++ (rep [0x01]).inputs ++ (rep [0x00]).inputs)

theorem test_bringup_p2 : after (exec .bringup (State.reset.call 0 0 0 p2))
    (fun t => (t.statusWord, t.blockSize, t.bus.length)) = some (0x00004502, 256, 44) := by decide

/-- T-U14, first and third rows. -/
theorem test_speedup_ok : after (exec .speedup (ready512.call 0x01312D00 0 0 [.answer (.ok 0)]))
    (fun t => (t.status.spedUp, t.status.stage, t.bus)) = some (true, .ready, [.reconf 0x01312D00]) := by decide
theorem test_speedup_fails : after (exec .speedup (ready512.call 7 0 0 [.answer .err]))
    (fun t => (t.status.errcode, t.status.stage, t.blockSize)) = some (.speedupFailed, .failed, 512) := by decide

/-- T-C3. -/
theorem test_sendcmd_tx : after (exec .sendcmd (ready512.call 17 0x200 0 (rx [0, 0, 0, 0, 0, 0])))
    (fun t => (t.statusWord, t.bus)) = some (0x00003502, tx [0x51, 0x00, 0x00, 0x02, 0x00, 0xFF]) := by decide
/-- T-C10. -/
theorem test_sendcmd_error : after (exec .sendcmd (ready512.call 0 0 0 (rx [0, 0] ++ rxErr)))
    (fun t => (t.status.errcode, t.bus)) = some (.transportError, tx [0x40, 0x00, 0x00]) := by decide

/-- T-C5. -/
theorem test_readresp_r7 : after (exec .readresp (State.reset.call 5 0 0 (rx [0xFF, 0xFF, 0xFF, 0x01, 0x02, 0x03, 0x04, 0x05])))
    (fun t => (t.res0, t.res1, t.res2, t.bus.length)) = some (0x04030201, 0x05, 4, 8) := by decide
/-- T-C7. -/
theorem test_readresp_filler_is_data : after (exec .readresp (State.reset.call 2 1 0 (rx [0x00, 0xFF])))
    (fun t => (t.res0, t.res1, t.res2)) = some (0x0000FF00, 0, 1) := by decide

/-- T-B1. -/
theorem test_readblk : after (exec .readblk (ready512.call 1 0 0 (blk (ramp 512 1)).inputs))
    (fun t => (t.statusWord, t.bus.length, t.bus.take 6)) = some (0x00023502, 522, tx [0x51, 0x00, 0x00, 0x02, 0x00, 0xFF]) := by
  decide
/-- T-B2. -/
theorem test_readblk_rejected : after (exec .readblk (ready512.call 7 0 0 (rep [0x01]).inputs))
    (fun t => (t.status.errcode, t.errByte, t.errLba, t.status.errctx, t.bus.length)) = some (.readRejected, 1, 7, true, 7) := by
  decide

/-- T-B9a. -/
theorem test_readbytes_stitched : after (exec .readbytes (ready256.call 0x6000 2 0xFF
    ((blk (ramp 256 0)).inputs ++ (blk (ramp 256 1)).inputs)))
    (fun t => (t.res0, t.dmem)) = some (2, [(0x6000, 0xFF), (0x6001, 0x01)]) := by decide
/-- T-B9. -/
theorem test_readbytes_nothing : after (exec .readbytes (ready512.call 0x5000 0 0x1234 []))
    (fun t => (t.res0, t.bus, t.status.done)) = some (0, [], true) := by decide

/-- T-L6's record at the given offset of an MBR. -/
def mbr (o : Nat) : List Byte :=
  List.replicate o 0 ++ [0x80, 0x00, 0x00, 0x00, 0x0C, 0x00, 0x00, 0x00, 0x00, 0x08, 0x00, 0x00, 0x00, 0x40, 0x06, 0x00]
    ++ List.replicate (510 - (o + 16)) 0 ++ [0x55, 0xAA]

/-- The boot sector of P4 with the given signature bytes. -/
def boot (s0 s1 : Byte) : List Byte :=
  List.replicate 11 0 ++ [0x00, 0x02, 0x08, 0x20, 0x00, 0x02] ++ List.replicate 19 0 ++ [0xE8, 0x03, 0x00, 0x00]
    ++ List.replicate 4 0 ++ [0x02, 0x00, 0x00, 0x00] ++ List.replicate 462 0 ++ [s0, s1]

/-- A block read of an op at its last byte, the payload received: the last answer ends it. -/
def lastByte (op : Byte) (u : BlockUse) (payload : List Byte) (n : Word) : State :=
  { ready512 with
    eng := .running op (.data u)
    a0 := n
    scratch := { Scratch.zero with i := 514, tok := 0xFE }
    blockbuf := payload
    part := { lba := 2048, ptype := 0x0C, count := 0x0000000C }
    events := [.answer (.ok 0)] }

/-- T-F1: PART_COUNT is taken from offset 4. -/
theorem test_partition : after (step (lastByte 0x07 .partition (mbr 462) 2)) (fun t => (t.res0, t.part, t.status.bufvalid))
    = some (2048, { lba := 2048, ptype := 0x0C, count := 0x0000000C }, true) := by decide

/-- T-F3, T-F4. -/
theorem test_mount : after (step (lastByte 0x08 .mountBoot (boot 0x55 0xAA) 1)) (fun t => (t.res0, t.res1, t.vol, t.status.mounted))
    = some (2080, 4080, vol, true) := by decide
theorem test_mount_bad_signature : after (step (lastByte 0x08 .mountBoot (boot 0x55 0xAB) 1))
    (fun t => (t.status.errcode, t.vol.bootSig, t.vol.spf, t.status.mounted)) = some (.badSignature, 0xAB55, 1000, false) := by
  decide

/-- T-F5, T-F6. -/
theorem test_clus2lba : after (exec .clus2lba ((rdy 512 true false false noScan zeros).call 5 0 0 [])) (·.res0) = some 4104 := by
  decide
theorem test_clus2lba_wraps : after (exec .clus2lba ((rdy 512 true false false noScan zeros).call 0xFFFFFFFF 0 0 []))
    (·.res0) = some 4056 := by decide

/-- T-D1: the two fragments and the short entry, then a free slot. -/
def slotFrag1 : List Byte :=
  [0x01, 0x48, 0x00, 0x65, 0x00, 0x6C, 0x00, 0x6C, 0x00, 0x6F, 0x00, 0x0F, 0x00, 0xCF, 0x20, 0x00,
   0x00, 0x00, 0xFF, 0xFF, 0xFF, 0xFF, 0xFF, 0xFF, 0xFF, 0xFF, 0x00, 0x00, 0xFF, 0xFF, 0xFF, 0xFF]
def slotFrag2 : List Byte :=
  [0x02, 0x57, 0x00, 0x6F, 0x00, 0x72, 0x00, 0x6C, 0x00, 0x64, 0x00, 0x0F, 0x00, 0xCF, 0x2E, 0x00,
   0x74, 0x00, 0x78, 0x00, 0x00, 0x00, 0xFF, 0xFF, 0xFF, 0xFF, 0x00, 0x00, 0xFF, 0xFF, 0xFF, 0xFF]
def slotShort : List Byte :=
  [0x57, 0x4F, 0x52, 0x4C, 0x44, 0x7E, 0x31, 0x20, 0x54, 0x58, 0x54, 0x20, 0x00, 0x00, 0x00, 0x00,
   0x00, 0x00, 0x00, 0x00, 0x00, 0x00, 0x00, 0x00, 0x00, 0x00, 0x03, 0x00, 0x04, 0x00, 0x00, 0x00]
def slotFree : List Byte := 0xE5 :: List.replicate 31 0
def slotEnd : List Byte := List.replicate 32 0

/-- A directory block. -/
def dirBlock : List Byte :=
  slotFrag2 ++ slotFree ++ slotFrag1 ++ slotShort ++ slotEnd ++ List.replicate 352 0

/-- A block buffer full of free slots. -/
def freeBlock : List Byte :=
  (List.replicate 16 slotFree).flatten

/-- T-D2. -/
theorem test_decslot_frag : after (exec .decslot ((rdy 512 false true false noScan dirBlock).call 2 0 0 []))
    (fun t => (t.res0, t.res1, t.res2, t.nameLen, t.namebuf.take 6))
      = some (0xCF010F03, 0, 0, 6, [0x48, 0x65, 0x6C, 0x6C, 0x6F, 0x20]) := by decide
theorem test_decslot_short : after (exec .decslot ((rdy 512 false true false noScan dirBlock).call 3 0 0 []))
    (fun t => (t.res0, t.res1, t.res2, t.nameLen)) = some (0x00002002, 3, 4, 10) := by decide

/-- T-D12 and its opposite. -/
theorem test_dirstart_empty : after (exec .dirstart (ready512.call 100 0 0 [])) (fun t => (t.status.dirActive, t.dir.lba))
    = some (false, 100) := by decide
theorem test_dirstart : after (exec .dirstart (ready512.call 4080 8 0 [])) (fun t => (t.status.dirActive, t.dir.left))
    = some (true, 8) := by decide

/-- A scan of the given block. -/
def scanning (left : Word) (slot : Byte) (fs : List Frag) (loaded : Bool) (buf : List Byte) : State :=
  rdy 512 false true true { lba := 4080, left := left, slot := slot, frags := fs, loaded := loaded } buf

/-- T-D1, T-D8, T-D11: the fragments in the order of their ordinals, a free slot between them. -/
theorem test_dirnext_long_name : after (exec .dirnext ((scanning 8 0 [] true dirBlock).call 0 0 0 []))
    (fun t => (t.res0, t.res1, t.res2, t.res3, t.namebuf.take 14))
      = some (0x00012001, 3, 4, 4080,
        [0x48, 0x65, 0x6C, 0x6C, 0x6F, 0x20, 0x57, 0x6F, 0x72, 0x6C, 0x64, 0x2E, 0x74, 0x78]) := by decide
/-- T-D10. -/
theorem test_dirnext_end : after (exec .dirnext ((scanning 8 4 [] true dirBlock).call 0 0 0 []))
    (fun t => (t.res0, t.status.dirActive, t.nameLen)) = some (0, false, 0) := by decide

/-- T-U3b: 0x05 is idle, 0x00 is not. -/
theorem test_cmd0 : after (exec .cmd0 (at_ State.reset .reset (rep [0x05]).inputs)) (fun t => (t.eng, t.status.stage))
    = some (.running 0x01 (.ready .iface), .reset) := by decide
theorem test_cmd0_not_idle : after (exec .cmd0 (at_ State.reset .reset (rep [0x00]).inputs)) (fun t => (t.eng, t.scratch.attempt))
    = some (.running 0x01 (.ready .reset), 1) := by decide
/-- T-U6a, T-U4. -/
theorem test_cmd8_nibble : after (exec .cmd8 (at_ State.reset .iface (rep [0x01, 0x00, 0x00, 0xF1, 0xAA]).inputs))
    (fun t => (t.status.v2, t.eng)) = some (true, .running 0x01 (.ready .marker)) := by decide
theorem test_cmd8_pattern : after (exec .cmd8 (at_ State.reset .iface (rep [0x01, 0x00, 0x00, 0x01, 0xAB]).inputs))
    (fun t => (t.status.v2, t.eng)) = some (false, .running 0x01 (.ready .ocr)) := by decide
/-- T-U9: a marker that is not idle. -/
theorem test_cmd55_not_idle : after (exec .cmd55 (at_ State.reset .marker (rep [0x00]).inputs)) (·.eng)
    = some (.running 0x01 (.ready .marker)) := by decide
/-- T-U10: the legacy branch is ready. -/
theorem test_acmd41 : after (exec .acmd41 (at_ State.reset .activate (rep [0x00]).inputs)) (fun t => (t.status.stage, t.blockSize))
    = some (.ready, 256) := by decide
/-- T-U7. -/
theorem test_cmd58_rejected : after (exec .cmd58 (at_ State.reset .ocr (rep [0x00, 0x00, 0xFF, 0x80, 0x00]).inputs))
    (fun t => (t.status.errcode, t.status.stage, t.status.voltWarn)) = some (.voltageRejected, .failed, false) := by decide
/-- T-B2a. -/
theorem test_cmd17_rejected : after (exec (.cmd17 0xE00) { ready512 with
      eng := .running 0x05 (.ready (.block .readblk)), events := (rep [0x05]).inputs })
    (fun t => (t.status.errcode, t.errByte)) = some (.readRejected, 5) := by decide

/-- T-R2 and T-E4 by steps of the machine. -/
theorem test_step_cfg : after (step { State.reset with events := [wr Params.standard 0x04C 3] }) (·.cfg.warmupBytes) = some 10 := by
  decide
theorem test_step_illegal : after (step (State.reset.withFetchWord 8 0x05)) (·.statusWord) = some 0x0B000006 := by decide
/-- T-R4: the answer that comes after the reset was asked for is ignored. -/
theorem test_step_soft_reset : after (step { ready512 with
      eng := .running 0x05 (.data .readblk), softReset := true, events := [.answer (.ok 0xFE)] })
    (fun t => (t.statusWord, t.blockSize, t.bus)) = some (0, 0, []) := by decide

/-! ## Witnesses: states that meet the hypotheses of the statements -/

theorem no {p : Prop} (h : false = true) : p := by cases h

/-- Nothing but the block size, the buffer and the scan can break the invariant of these states. -/
theorem inv_rdy {size : Word} {m bv da : Bool} {d : Dir} {buf : List Byte} (hs : size = 256 ∨ size = 512)
    (hm : m = true → size = 512) (hb : buf.length = 512)
    (hd : ScanInv Params.standard (rdy size m bv da d buf).status size d) (v0 v1 v2 : Word) (es : List Event) :
    ((rdy size m bv da d buf).call v0 v1 v2 es).Inv where
  legal := show Params.standard.legal = true by decide
  session :=
    { sizes := by rcases hs with rfl | rfl; exact .inr (.inr rfl); exact .inr (.inl rfl)
      ready := fun _ => show size ≠ 0 by rcases hs with rfl | rfl <;> decide
      stages := fun _ => .inl rfl
      failed := fun _ _ => rfl
      hc := fun h => ⟨h, eq_of_beq h⟩
      spedUp := no
      mounted := hm
      bufvalid := fun _ => show size ≠ 0 by rcases hs with rfl | rfl <;> decide }
  volume := ⟨fun _ => rfl, fun _ => show vol.dataLba = vol.fatLba + vol.nfats.setWidth 32 * vol.spf by decide⟩
  cfg := show CfgInv State.reset.cfg from ⟨by decide, by decide, by decide, by decide⟩
  buffers := ⟨hb, show State.reset.namebuf.length = 1024 by decide, Nat.zero_le _⟩
  scan := hd
  completion := ⟨no, rfl, no⟩
  engine := trivial
  soft := no
  held := no
  dmem := rfl

theorem scan_none {st : Status} {size : Word} (h : st.dirActive = false) : ScanInv Params.standard st size noScan where
  active h' := by rw [h] at h'; cases h'
  inactive _ := ⟨rfl, rfl⟩
  loaded := no
  slot := Nat.zero_le _
  frags := Nat.zero_le _
  units := nofun

theorem inv_ready512 (v0 v1 v2 : Word) (es : List Event) : (ready512.call v0 v1 v2 es).Inv :=
  inv_rdy (.inr rfl) (fun _ => rfl) (by decide) (scan_none rfl) v0 v1 v2 es

theorem inv_ready256 (v0 v1 v2 : Word) (es : List Event) : (ready256.call v0 v1 v2 es).Inv :=
  inv_rdy (.inl rfl) (fun h => by cases h) (by decide) (scan_none rfl) v0 v1 v2 es

theorem fits_rep {b n : Nat} {r : List Byte} (hb : 0 < b) (hn : r.length = n) (h0 : r.getD 0 0 ≠ 0xFF) : (rep r).Fits b n :=
  ⟨rfl, hb, hn, h0⟩

theorem fits_blk {b n : Nat} {p : List Byte} (hb : 0 < b) (hn : p.length = n) : (blk p).Fits b n := ⟨rfl, hb, hn⟩

theorem witness_DecodeEncode : (Instr.cmd17 0xFFFFFE00).wellFormed = true ∧ Instr.dirnext.wellFormed = true := by decide
theorem witness_EncodeDecode : decode [0x0C, 0xFF, 0xFF, 0xFF] = .ok .dirnext
    ∧ decode [0x51, 0xFF, 0xFF, 0xFE, 0x00, 0xFF] = .ok (.cmd17 0xFFFFFE00) := by decide
theorem witness_OpcodeAlone : decode (bytesOfWord 0xFFFFFF01) = .ok .bringup ∧ decode (bytesOfWord 0xFFFFFF0C) = .ok .dirnext := by
  decide
theorem witness_FrameLayout : (63 : BitVec 6) ≠ 0 ∧ (63 : BitVec 6) ≠ 8 := by decide

/-- A host access at the lowest and the highest word of the block, for an idle engine and for one with an internal step. -/
def hostRd (p : Option Nat) (off : Nat) : Event := .host p { bits := 32, addr := Params.standard.base + off, dir := .rd }
def hostWr (p : Option Nat) (off : Nat) (v : Word) : Event :=
  .host p { bits := 32, addr := Params.standard.base + off, dir := .wr v }
/-- An engine with an internal step to make. -/
def atStart (es : List Event) : State := { ready512 with eng := .running 0x05 .start, events := es }

/-- A legal op code for an idle engine; a reserved one for an engine with an internal step, at pace 0. -/
theorem witness_StepRunsHostOp :
    (∃ (s : State) (p : Option Nat) (v : Word) (es : List Event) (i : Instr), s.inReset = false ∧ s.params.base % 4 = 0
      ∧ (s.internal = false ∨ p = some 0) ∧ s.events = .host p { bits := 32, addr := s.params.base, dir := .wr v } :: es
      ∧ decode (bytesOfWord v) = .ok i)
    ∧ ∃ (s : State) (p : Option Nat) (v : Word) (es : List Event), s.inReset = false ∧ s.params.base % 4 = 0
      ∧ (s.internal = false ∨ p = some 0) ∧ s.events = .host p { bits := 32, addr := s.params.base, dir := .wr v } :: es
      ∧ ∀ i : Instr, decode (bytesOfWord v) ≠ .ok i :=
  ⟨⟨ready512.call 0 0 0 [hostWr none 0 0x05], none, 0x05, [], .readblk, rfl, rfl, .inl rfl, rfl, by decide⟩,
    ⟨atStart [hostWr (some 0) 0 0x0D], some 0, 0x0D, [], rfl, rfl, .inr rfl, rfl, fun i h => by
      have h' : decode (bytesOfWord 0x0D) = .error (.reservedOpcode 0x0D) := by decide
      rw [h'] at h; cases h⟩⟩

/-- BRINGUP before its first CMD0. -/
def beforeReset : State :=
  { State.reset with eng := .running 0x01 (.ready .reset), scratch := { Scratch.zero with frame := frameWord 0 0, attempt := 1 } }

theorem witness_StepRunsWireCommand : ∃ (s : State) (op : Byte) (x : Exch) (i : Instr), s.inReset = false
    ∧ s.eng = .running op (.ready x) ∧ x ≠ .send ∧ landsNow s.events = false ∧ decode (frameBytes s.scratch.frame) = .ok i :=
  ⟨beforeReset, 0x01, .reset, .cmd0, rfl, rfl, by decide, rfl, by decide⟩
theorem witness_StepWithoutInput : (∃ s : State, s.inReset = false ∧ s.events = [] ∧ s.waiting = true)
    ∧ ∃ s : State, s.inReset = false ∧ s.events = [] ∧ s.eng = .idle :=
  ⟨⟨{ State.reset with eng := .running 0x01 .warmup }, rfl, rfl, rfl⟩, ⟨State.reset, rfl, rfl, rfl⟩⟩

/-- A bring-up that waits for its warm-up, with a soft reset asked for or not. -/
def warming (soft : Bool) (es : List Event) : State :=
  { State.reset with eng := .running 0x01 .warmup, softReset := soft, events := es }

theorem inv_running {op : Byte} {l : Label} {soft : Bool} {es : List Event}
    (hl : l.Place op { State.reset with eng := .running op l, softReset := soft, events := es }) :
    { State.reset with eng := .running op l, softReset := soft, events := es }.Inv where
  legal := show Params.standard.legal = true by decide
  session := ⟨.inl rfl, nofun, fun h => absurd rfl h, nofun, no, no, no, no⟩
  volume := ⟨no, no⟩
  cfg := show CfgInv State.reset.cfg from ⟨by decide, by decide, by decide, by decide⟩
  buffers := show BufferInv Params.standard State.reset.blockbuf State.reset.namebuf 0 from ⟨by decide, by decide, by decide⟩
  scan := scan_none rfl
  completion := ⟨no, rfl, no⟩
  engine := hl
  soft _ := nofun
  held := no
  dmem := rfl

theorem witness_StepKeepsInv : ∃ s t : State, s.Inv ∧ step s = .next t :=
  ⟨ready512.call 0 0 0 [hostRd none 4], _, inv_ready512 0 0 0 _, rfl⟩
theorem witness_StepStopsOnlyOutside : (∃ s : State, s.Inv ∧ ∃ f, step s = .fault f)
    ∧ (∃ s : State, s.Inv ∧ step s = .refused .hostAccessShape) ∧ ∃ s : State, s.Inv ∧ step s = .refused .outsideBlock :=
  ⟨⟨warming false [], inv_running ⟨rfl, rfl⟩, .transportSilent, rfl⟩,
    ⟨ready512.call 0 0 0 [.host none { bits := 16, addr := 4, dir := .rd }], inv_ready512 0 0 0 _, rfl⟩,
    ⟨ready512.call 0 0 0 [hostRd none 2048], inv_ready512 0 0 0 _, rfl⟩⟩

/-- An idle block; an engine that waits; one with an internal step, the write at pace 0. -/
theorem witness_SoftReset : (∀ b : Bool, ∃ (s : State) (p : Option Nat) (v : Word) (es : List Event), s.inReset = false
      ∧ s.params.base % 4 = 0 ∧ (s.internal = false ∨ p = some 0) ∧ v.getLsbD 0 = true
      ∧ s.events = .host p { bits := 32, addr := s.params.base + 0x008, dir := .wr v } :: es ∧ s.busy = b)
    ∧ (∃ s : State, s.internal = true ∧ s.inReset = false ∧ s.events = [hostWr (some 0) 8 1])
    ∧ (∃ (s : State) (r : Answer) (es : List Event), s.softReset = true ∧ s.inReset = false ∧ s.waiting = true
      ∧ s.events = .answer r :: es)
    ∧ ∃ s : State, s.Inv ∧ s.softReset = true ∧ s.internal = true ∧ landsNow s.events = false :=
  ⟨fun b => match b with
      | false => ⟨ready512.call 0 0 0 [hostWr none 8 3], none, 3, [], rfl, rfl, .inl rfl, rfl, rfl, rfl⟩
      | true => ⟨warming false [hostWr none 8 1], none, 1, [], rfl, rfl, .inl rfl, rfl, rfl, rfl⟩,
    ⟨atStart [hostWr (some 0) 8 1], rfl, rfl, rfl⟩, ⟨warming true [.answer .err], .err, [], rfl, rfl, rfl, rfl⟩,
    ⟨{ State.reset with eng := .running 0x03 .start, softReset := true, events := [] }, inv_running trivial, rfl, rfl, rfl⟩⟩
theorem witness_HardReset :
    (∃ (s : State) (p : Option Nat) (es : List Event), s.inReset = false ∧ (s.internal = false ∨ p = some 0)
      ∧ s.events = .hard p true :: es)
    ∧ (∃ (s : State) (e : Event) (es : List Event), s.inReset = true ∧ s.events = e :: es ∧ ∀ p, e ≠ .hard p false)
    ∧ ∃ (s : State) (p : Option Nat) (es : List Event), s.inReset = true ∧ s.events = .hard p false :: es :=
  ⟨⟨atStart [.hard (some 0) true], some 0, [], rfl, .inr rfl, rfl⟩,
    ⟨{ State.reset with inReset := true, events := [hostRd none 0] }, hostRd none 0, [], rfl, rfl, fun _ h => by cases h⟩,
    ⟨{ State.reset with inReset := true, events := [.hard none false] }, none, [], rfl, rfl⟩⟩

/-- A host access of a ready block: at its first and last word, and at the ends of the two windows with a payload and a name. -/
def named : State := { rdy 512 false true false noScan zeros with nameLen := 4 }
theorem witness_HostReads : ∀ off ∈ [0x000, 0x200, 0x3FC, 0x400, 0x7FC], ∃ (s : State) (p : Option Nat) (es : List Event),
    s.inReset = false ∧ s.params.base % 4 = 0 ∧ (s.internal = false ∨ p = some 0) ∧ off % 4 = 0 ∧ off < 2048
    ∧ s.events = .host p { bits := 32, addr := s.params.base + off, dir := .rd } :: es
    ∧ s.busy = false ∧ s.status.bufvalid = true ∧ 0x3FC - 0x200 + 3 < s.bs ∧ s.params.hasDirDecoder = true
    ∧ 0x400 - 0x400 + 3 < s.nameLen.toNat := by
  intro off h
  refine ⟨{ named with events := [hostRd none off] }, none, [], rfl, rfl, .inl rfl, ?_, ?_, rfl, rfl, rfl, show 0x3FC - 0x200 + 3 < 512 by decide, rfl,
    show 0x400 - 0x400 + 3 < 4 by decide⟩ <;> (revert h; revert off; decide)
theorem witness_HostReads_no_decoder : ∃ s : State, s.inReset = false ∧ s.params.base % 4 = 0 ∧ s.internal = false
    ∧ s.events = [hostRd none 0x090] ∧ s.params.hasDirDecoder = false :=
  ⟨{ State.reset with params := { Params.standard with hasDirDecoder := false }, events := [hostRd none 0x090] },
    rfl, rfl, rfl, rfl, rfl⟩
theorem witness_HostWrites : ∀ off ∈ [0x004, 0x008, 0x00C, 0x010, 0x040, 0x04C, 0x7FC],
    (∃ (s : State) (p : Option Nat) (v : Word) (es : List Event), s.inReset = false ∧ s.params.base % 4 = 0
      ∧ (s.internal = false ∨ p = some 0) ∧ off % 4 = 0 ∧ off < 2048 ∧ off ≠ 0
      ∧ s.events = .host p { bits := 32, addr := s.params.base + off, dir := .wr v } :: es ∧ v.getLsbD 0 = false ∧ s.busy = false)
    ∧ ∃ (s : State) (p : Option Nat) (v : Word) (es : List Event), s.inReset = false ∧ s.params.base % 4 = 0
      ∧ (s.internal = false ∨ p = some 0) ∧ off % 4 = 0 ∧ off < 2048 ∧ off ≠ 0
      ∧ s.events = .host p { bits := 32, addr := s.params.base + off, dir := .wr v } :: es ∧ s.busy = true := by
  intro off h
  refine ⟨⟨ready512.call 0 0 0 [hostWr none off 2], none, 2, [], rfl, rfl, .inl rfl, ?_, ?_, ?_, rfl, rfl, rfl⟩,
    ⟨warming false [hostWr none off 9], none, 9, [], rfl, rfl, .inl rfl, ?_, ?_, ?_, rfl, rfl⟩⟩
    <;> (revert h; revert off; decide)
/-- SENDCMD polled after three answers; a read that lands while it waits; two states that differ in reads and draws. -/
theorem witness_ReadsLeaveRun :
    (∃ (i : Instr) (s t : State) (pre : List Answer) (a : HostAccess) (rest : List Event), (opcodeOf i).isSome = true ∧ s.CanIssue
      ∧ s.events = pre.map Event.answer ++ .host none a :: rest ∧ exec i s = .next t ∧ t.waiting = true)
    ∧ (∃ (s : State) (p : Option Nat) (es : List Event), s.inReset = false ∧ s.params.base % 4 = 0
      ∧ (s.internal = false ∨ p = some 0) ∧ s.waiting = true
      ∧ s.events = .host p { bits := 32, addr := s.params.base + 4, dir := .rd } :: es)
    ∧ ∃ s t : State, s ≠ t ∧ s.apartFromReads = t.apartFromReads :=
  ⟨⟨.sendcmd, ready512.call 17 0x200 0 ((rx [0, 0, 0]) ++ [hostRd none 4]), _, [.ok 0, .ok 0, .ok 0], _, [], rfl, ⟨rfl, rfl, rfl⟩, rfl,
      rfl, rfl⟩,
    ⟨warming false [hostRd none 4], none, [], rfl, rfl, .inl rfl, rfl, rfl⟩,
    ⟨State.reset, { State.reset with draws := 1 }, fun h => absurd (congrArg State.draws h) (by decide), rfl⟩⟩
theorem witness_InterruptLine : (2 : Word).getLsbD 0 = false ∧ (1 : Word).getLsbD 0 = true := by decide
theorem witness_OpWhileBusy : ∃ s : State, s.busy = true ∧ s.inReset = false := ⟨warming false [], rfl, rfl⟩
theorem witness_HostAccessRefused : ∀ a ∈ [({ bits := 8, addr := 2048, dir := .rd } : HostAccess), { bits := 32, addr := 2049, dir := .rd },
      { bits := 32, addr := 2044, dir := .rd }, { bits := 32, addr := 4096, dir := .rd }],
    ∃ (s : State) (p : Option Nat) (es : List Event), s.inReset = false ∧ (s.internal = false ∨ p = some 0)
      ∧ s.events = .host p a :: es
      ∧ ((a.bits ≠ 32 ∨ a.addr % 4 ≠ 0)
        ∨ a.bits = 32 ∧ a.addr % 4 = 0 ∧ (a.addr < s.params.base ∨ s.params.base + 2048 ≤ a.addr)) := by
  intro a h
  refine ⟨{ State.reset with params := { Params.standard with base := 2048 }, events := [.host none a] }, none, [], rfl, .inl rfl, rfl, ?_⟩
  revert h; revert a; decide

/-- One state for each clause: outside Ready, Ready already sped up, a failed session with its scan, a build without the
decoder; op codes at the ends of the reserved ranges. -/
theorem witness_IllegalOps :
    (∃ s : State, s.CanIssue ∧ Prompt s.events ∧ s.status.stage ≠ .unpowered ∧ s.status.spedUp = true ∧ s.status.mounted = false
      ∧ s.status.bufvalid = false)
    ∧ (∃ s : State, s.CanIssue ∧ Prompt s.events ∧ s.status.stage ≠ .ready ∧ s.status.dirActive = true)
    ∧ (∃ s : State, s.CanIssue ∧ Prompt s.events ∧ s.params.hasDirDecoder = false)
    ∧ (0x0D : Word).toNat % 256 = 13 ∧ (0xFF : Word).toNat % 256 = 255 ∧ (0xFFFFFF00 : Word).toNat % 256 = 0 :=
  ⟨⟨{ ready512 with status := { ready512.status with spedUp := true } }, ⟨rfl, rfl, rfl⟩, trivial, by decide, rfl, rfl, rfl⟩,
    ⟨{ State.reset with status := { Status.zero with stage := .failed, dirActive := true } }, ⟨rfl, rfl, rfl⟩, trivial, by decide, rfl⟩,
    ⟨{ State.reset with params := { Params.standard with hasDirDecoder := false } }, ⟨rfl, rfl, rfl⟩, trivial, rfl⟩,
    by decide, by decide, by decide⟩
theorem witness_ArgumentChecks :
    (∃ s : State, s.CanIssue ∧ Prompt s.events ∧ 63 < s.arg0.toNat ∧ 5 < s.arg0.toNat ∧ 4 < s.arg0.toNat ∧ s.status.stage = .ready
      ∧ s.params.hasDirDecoder = true ∧ s.status.bufvalid = true ∧ s.blockSize.toNat / 32 ≤ s.arg0.toNat)
    ∧ (∃ s : State, s.CanIssue ∧ Prompt s.events ∧ s.arg0 = 0 ∧ 255 < s.arg1.toNat ∧ s.status.stage = .ready
      ∧ s.status.mounted = true ∧ s.arg0.toNat < 2)
    ∧ (∃ s : State, s.CanIssue ∧ Prompt s.events ∧ s.status.stage = .ready ∧ 2 ^ 32 < s.arg0.toNat + s.arg1.toNat)
    ∧ (∃ s : State, s.CanIssue ∧ Prompt s.events ∧ s.status.stage = .ready ∧ 2 ^ 32 < s.arg2.toNat + s.arg1.toNat)
    ∧ ∃ s : State, s.CanIssue ∧ Prompt s.events ∧ s.status.stage = .ready ∧ 1 ≤ s.arg0.toNat ∧ s.arg0.toNat ≤ 4 ∧ s.blockSize ≠ 512 :=
  ⟨⟨(rdy 512 true true false noScan zeros).call 64 0 0 [], ⟨rfl, rfl, rfl⟩, trivial, by decide, by decide, by decide, rfl, rfl, rfl,
      by decide⟩,
    ⟨(rdy 512 true true false noScan zeros).call 0 256 0 [], ⟨rfl, rfl, rfl⟩, trivial, rfl, by decide, rfl, rfl, by decide⟩,
    ⟨ready512.call 0xFFFFFFF0 0x11 0 [], ⟨rfl, rfl, rfl⟩, trivial, rfl, by decide⟩,
    ⟨ready512.call 0 0x10 0xFFFFFFF1 [], ⟨rfl, rfl, rfl⟩, trivial, rfl, by decide⟩,
    ⟨ready256.call 4 0 0 [], ⟨rfl, rfl, rfl⟩, trivial, rfl, by decide, by decide, by decide⟩⟩

theorem witness_SendcmdCompletes : ∃ (s : State) (g : List Byte) (es : List Event), s.CanIssue ∧ s.arg0.toNat ≤ 63 ∧ g.length = 6
    ∧ s.events = rx g ++ es :=
  ⟨ready512.call 63 0xDEADBEEF 0 (rx [0, 0, 0, 0, 0, 0] ++ []), [0, 0, 0, 0, 0, 0], [], ⟨rfl, rfl, rfl⟩, by decide, rfl, rfl⟩
theorem witness_SendcmdStops : ∀ g ∈ [([] : List Byte), [0, 0, 0, 0, 0]], ∃ (s : State) (es : List Event), s.CanIssue
    ∧ s.arg0.toNat ≤ 63 ∧ g.length ≤ 5 ∧ s.events = rx g ++ rxErr ++ es := by
  intro g h
  refine ⟨ready512.call 0 0 0 (rx g ++ rxErr ++ []), [], ⟨rfl, rfl, rfl⟩, Nat.zero_le _, ?_, rfl⟩
  simp only [List.mem_cons, List.not_mem_nil, or_false] at h
  rcases h with rfl | rfl <;> decide
theorem witness_ReadrespCompletes : ∃ (s : State) (p : Nat) (b : Byte) (r : List Byte) (es : List Event), s.CanIssue
    ∧ 1 ≤ s.arg0.toNat ∧ s.arg0.toNat ≤ 5 ∧ s.arg1.toNat ≤ 255
    ∧ p < (if s.arg1 = 0 then s.cfg.respBudget.toNat else s.arg1.toNat) ∧ b ≠ 0xFF ∧ r.length + 1 = s.arg0.toNat
    ∧ s.events = rx (List.replicate p 0xFF) ++ rx (b :: r) ++ es :=
  ⟨State.reset.call 5 255 0 (rx (List.replicate 254 0xFF) ++ rx [0, 0xFF, 0, 0, 0] ++ []), 254, 0, [0xFF, 0, 0, 0], [],
    ⟨rfl, rfl, rfl⟩, by decide, by decide, by decide, by decide, by decide, rfl, rfl⟩
theorem witness_ReadrespNoResponse : ∃ (s : State) (n : Nat) (es : List Event), s.CanIssue
    ∧ 1 ≤ s.arg0.toNat ∧ s.arg0.toNat ≤ 5 ∧ s.arg1.toNat ≤ 255
    ∧ n = (if s.arg1 = 0 then s.cfg.respBudget.toNat else s.arg1.toNat) ∧ 1 ≤ n ∧ s.events = rx (List.replicate n 0xFF) ++ es :=
  ⟨State.reset.call 1 0 0 (rx (List.replicate 5 0xFF) ++ []), 5, [], ⟨rfl, rfl, rfl⟩, by decide, by decide, by decide, by decide,
    by decide, rfl⟩
theorem witness_TransportErrorEnds :
    (∃ (s : State) (op : Byte) (es : List Event) (x : Exch), s.inReset = false ∧ s.softReset = false ∧ s.events = rxErr ++ es
      ∧ (x = .send ∨ x = .resp) ∧ s.eng = .running op (.frame x))
    ∧ (∃ (s : State) (op : Byte) (es : List Event), s.inReset = false ∧ s.softReset = false ∧ s.events = rxErr ++ es
      ∧ s.eng = .running op (.poll .ocr))
    ∧ ∃ (s : State) (op : Byte) (es : List Event) (u : BlockUse), s.inReset = false ∧ s.softReset = false ∧ s.events = rxErr ++ es
      ∧ s.eng = .running op (.data u) :=
  ⟨⟨{ State.reset with eng := .running 0x03 (.frame .send), events := rxErr ++ [] }, 0x03, [], .send, rfl, rfl, rfl, .inl rfl, rfl⟩,
    ⟨{ State.reset with eng := .running 0x01 (.poll .ocr), events := rxErr ++ [] }, 0x01, [], rfl, rfl, rfl, rfl⟩,
    ⟨{ ready512 with eng := .running 0x0C (.data .dirnext), events := rxErr ++ [] }, 0x0C, [], .dirnext, rfl, rfl, rfl, rfl⟩⟩

theorem witness_BringupHighCapacity : ∃ (s : State) (w : Answer) (r0 r8 r55 r41 r58 : Reply) (es : List Event), s.CanIssue
    ∧ s.status.stage = .unpowered
    ∧ r0.Fits s.cfg.respBudget.toNat 1 ∧ (r0.byte 0).getLsbD 0 = true
    ∧ r8.Fits s.cfg.respBudget.toNat 5 ∧ (r8.byte 0).getLsbD 0 = true
    ∧ (r8.byte 3).extractLsb' 0 4 = s.params.cmd8Vhs ∧ r8.byte 4 = s.params.cmd8Pattern
    ∧ r55.Fits s.cfg.respBudget.toNat 1 ∧ (r55.byte 0).getLsbD 0 = true
    ∧ r41.Fits s.cfg.respBudget.toNat 1 ∧ (r41.byte 0).getLsbD 0 = false ∧ r58.Fits s.cfg.respBudget.toNat 5
    ∧ s.events = .answer w :: (r0.inputs ++ r8.inputs ++ r55.inputs ++ r41.inputs ++ r58.inputs ++ es) :=
  ⟨State.reset.call 0 0 0 (.answer .err :: ((rep [0x01]).inputs ++ (rep [0x01, 0, 0, 0xF1, 0xAA]).inputs ++ (rep [0x01]).inputs
      ++ (rep [0x00]).inputs ++ (rep [0x05, 0x40, 0, 0, 0]).inputs ++ [])),
    .err, rep [0x01], rep [0x01, 0, 0, 0xF1, 0xAA], rep [0x01], rep [0x00], rep [0x05, 0x40, 0, 0, 0], [], ⟨rfl, rfl, rfl⟩, rfl,
    fits_rep (by decide) rfl (by decide), by decide, fits_rep (by decide) rfl (by decide), by decide, by decide, by decide,
    fits_rep (by decide) rfl (by decide), by decide, fits_rep (by decide) rfl (by decide), by decide,
    fits_rep (by decide) rfl (by decide), rfl⟩
theorem witness_BringupLegacy : ∃ (s : State) (w : Answer) (r0 r8 r58 r55 r41 : Reply) (es : List Event), s.CanIssue
    ∧ s.status.stage = .unpowered
    ∧ r0.Fits s.cfg.respBudget.toNat 1 ∧ (r0.byte 0).getLsbD 0 = true ∧ r8.Fits s.cfg.respBudget.toNat 5
    ∧ ((r8.byte 0).getLsbD 0 = false ∨ (r8.byte 3).extractLsb' 0 4 ≠ s.params.cmd8Vhs ∨ r8.byte 4 ≠ s.params.cmd8Pattern)
    ∧ r58.Fits s.cfg.respBudget.toNat 5 ∧ (r58.byte 0).getLsbD 0 = true
    ∧ r55.Fits s.cfg.respBudget.toNat 1 ∧ (r55.byte 0).getLsbD 0 = true
    ∧ r41.Fits s.cfg.respBudget.toNat 1 ∧ (r41.byte 0).getLsbD 0 = false
    ∧ s.events = .answer w :: (r0.inputs ++ r8.inputs ++ r58.inputs ++ r55.inputs ++ r41.inputs ++ es) :=
  ⟨State.reset.call 0 0 0 (.answer (.ok 0) :: ((rep [0x01]).inputs ++ (rep [0x05, 0xFF, 0xFF, 0xFF, 0xFF]).inputs
      ++ (rep [0x01, 0, 0, 0, 0]).inputs ++ (rep [0x01]).inputs ++ (rep [0x00]).inputs ++ [])),
    .ok 0, rep [0x01], rep [0x05, 0xFF, 0xFF, 0xFF, 0xFF], rep [0x01, 0, 0, 0, 0], rep [0x01], rep [0x00], [], ⟨rfl, rfl, rfl⟩, rfl,
    fits_rep (by decide) rfl (by decide), by decide, fits_rep (by decide) rfl (by decide), .inr (.inr (by decide)),
    fits_rep (by decide) rfl (by decide), by decide, fits_rep (by decide) rfl (by decide), by decide,
    fits_rep (by decide) rfl (by decide), by decide, rfl⟩
theorem witness_BringupResetTimeout : ∃ (s : State) (w : Answer) (es : List Event), s.CanIssue ∧ s.status.stage = .unpowered
    ∧ 1 ≤ s.cfg.resetRetries.toNat ∧ 1 ≤ s.cfg.respBudget.toNat
    ∧ s.events = .answer w :: (rx (List.replicate (s.cfg.resetRetries.toNat * (6 + s.cfg.respBudget.toNat)) 0xFF) ++ es) :=
  ⟨State.reset.call 0 0 0 (.answer .err :: (rx (List.replicate (3 * (6 + 5)) 0xFF) ++ [])), .err, [], ⟨rfl, rfl, rfl⟩, rfl, by decide,
    by decide, rfl⟩
theorem witness_Speedup : (∀ r ∈ [Answer.ok 0, Answer.err], ∃ (s : State) (es : List Event), s.CanIssue ∧ s.status.stage = .ready
      ∧ s.status.spedUp = false ∧ s.events = .answer r :: es)
    ∧ ∃ s : State, s.CanIssue ∧ (s.status.stage ≠ .ready ∨ s.status.spedUp = true) ∧ Prompt s.events :=
  ⟨fun r _ => ⟨ready512.call 7 0 0 (.answer r :: []), [], ⟨rfl, rfl, rfl⟩, rfl, rfl, rfl⟩,
    ⟨State.reset, ⟨rfl, rfl, rfl⟩, .inl (by decide), trivial⟩⟩

/-- An exchange of BRINGUP at the first and at the last attempt, with an idle and another response. -/
def attempt (x : Exch) (n : Byte) (v2 : Bool) (es : List Event) : State :=
  { at_ State.reset x es with status := { Status.zero with v2 := v2 }, scratch := { Scratch.zero with attempt := n } }

theorem witness_Cmd0 : ∀ b ∈ [(0x01 : Byte), 0x00], ∃ (s : State) (op : Byte) (r : Reply) (es : List Event), s.softReset = false
    ∧ s.eng = .running op (.ready .reset) ∧ r.Fits s.cfg.respBudget.toNat 1 ∧ s.events = r.inputs ++ es
    ∧ (r.byte 0).getLsbD 0 = (b == 0x01) ∧ (s.scratch.attempt.toNat < s.cfg.resetRetries.toNat ∨ b = 0x01) := by
  intro b h
  refine ⟨attempt .reset 2 false ((rep [b]).inputs ++ []), 0x01, rep [b], [], rfl, rfl, fits_rep (b := 5) (by decide) rfl ?_, rfl, ?_,
    .inl (show 2 < 3 by decide)⟩
    <;> (revert h; revert b; decide)
theorem witness_Cmd0_last : ∃ (s : State) (op : Byte) (r : Reply) (es : List Event), s.softReset = false
    ∧ s.eng = .running op (.ready .reset) ∧ r.Fits s.cfg.respBudget.toNat 1 ∧ s.events = r.inputs ++ es
    ∧ (r.byte 0).getLsbD 0 = false ∧ s.cfg.resetRetries.toNat ≤ s.scratch.attempt.toNat :=
  ⟨attempt .reset 3 false ((rep [0x00]).inputs ++ []), 0x01, rep [0x00], [], rfl, rfl, fits_rep (by decide) rfl (by decide), rfl,
    by decide, by decide⟩
theorem witness_Cmd8 : (∃ (s : State) (op : Byte) (r : Reply) (es : List Event), s.softReset = false
      ∧ s.eng = .running op (.ready .iface) ∧ r.Fits s.cfg.respBudget.toNat 5 ∧ s.events = r.inputs ++ es
      ∧ (r.byte 0).getLsbD 0 = true ∧ (r.byte 3).extractLsb' 0 4 = s.params.cmd8Vhs ∧ r.byte 4 = s.params.cmd8Pattern)
    ∧ ∃ (s : State) (op : Byte) (r : Reply) (es : List Event), s.softReset = false
      ∧ s.eng = .running op (.ready .iface) ∧ r.Fits s.cfg.respBudget.toNat 5 ∧ s.events = r.inputs ++ es
      ∧ (r.byte 3).extractLsb' 0 4 ≠ s.params.cmd8Vhs :=
  ⟨⟨attempt .iface 1 false ((rep [0x01, 0, 0, 0xF1, 0xAA]).inputs ++ []), 0x01, rep [0x01, 0, 0, 0xF1, 0xAA], [], rfl, rfl,
      fits_rep (by decide) rfl (by decide), rfl, by decide, by decide, by decide⟩,
    ⟨attempt .iface 1 false ((rep [0x01, 0, 0, 2, 0xAA]).inputs ++ []), 0x01, rep [0x01, 0, 0, 2, 0xAA], [], rfl, rfl,
      fits_rep (by decide) rfl (by decide), rfl, by decide⟩⟩
theorem witness_Cmd55 : ∀ b ∈ [(0x01 : Byte), 0x00], ∃ (s : State) (op : Byte) (r : Reply) (es : List Event), s.softReset = false
    ∧ s.eng = .running op (.ready .marker) ∧ r.Fits s.cfg.respBudget.toNat 1 ∧ s.events = r.inputs ++ es
    ∧ (r.byte 0).getLsbD 0 = (b == 0x01) ∧ s.scratch.attempt.toNat < s.cfg.initRetries.toNat := by
  intro b h
  refine ⟨attempt .marker 9 false ((rep [b]).inputs ++ []), 0x01, rep [b], [], rfl, rfl, fits_rep (b := 5) (by decide) rfl ?_, rfl, ?_,
    show 9 < 10 by decide⟩
    <;> (revert h; revert b; decide)
theorem witness_Cmd55_last : ∃ (s : State) (op : Byte) (r : Reply) (es : List Event), s.softReset = false
    ∧ s.eng = .running op (.ready .marker) ∧ r.Fits s.cfg.respBudget.toNat 1 ∧ s.events = r.inputs ++ es
    ∧ (r.byte 0).getLsbD 0 = false ∧ s.cfg.initRetries.toNat ≤ s.scratch.attempt.toNat :=
  ⟨attempt .marker 10 false ((rep [0x00]).inputs ++ []), 0x01, rep [0x00], [], rfl, rfl, fits_rep (by decide) rfl (by decide), rfl,
    by decide, by decide⟩
theorem witness_Acmd41_done : ∀ v2 : Bool, ∃ (s : State) (op : Byte) (r : Reply) (es : List Event), s.softReset = false
    ∧ s.eng = .running op (.ready .activate) ∧ r.Fits s.cfg.respBudget.toNat 1 ∧ s.events = r.inputs ++ es
    ∧ (r.byte 0).getLsbD 0 = false ∧ s.status.v2 = v2 :=
  fun v2 => ⟨attempt .activate 1 v2 ((rep [0x00]).inputs ++ []), 0x01, rep [0x00], [], rfl, rfl, fits_rep (b := 5) (by decide) rfl (by decide),
    rfl, by decide, rfl⟩
theorem witness_Acmd41_failed : ∀ n ∈ [(9 : Byte), 10], ∃ (s : State) (op : Byte) (r : Reply) (es : List Event), s.softReset = false
    ∧ s.eng = .running op (.ready .activate) ∧ r.Fits s.cfg.respBudget.toNat 1 ∧ s.events = r.inputs ++ es
    ∧ (r.byte 0).getLsbD 0 = true ∧ s.scratch.attempt = n ∧ s.cfg.initRetries.toNat = 10 :=
  fun n _ => ⟨attempt .activate n true ((rep [0x01]).inputs ++ []), 0x01, rep [0x01], [], rfl, rfl,
    fits_rep (b := 5) (by decide) rfl (by decide), rfl, by decide, rfl, rfl⟩
theorem witness_Cmd58 : ∀ v2 : Bool, ∀ b ∈ [(0x01 : Byte), 0x00], ∃ (s : State) (op : Byte) (r : Reply) (es : List Event),
    s.softReset = false ∧ s.eng = .running op (.ready .ocr) ∧ r.Fits s.cfg.respBudget.toNat 5 ∧ s.events = r.inputs ++ es
    ∧ s.status.v2 = v2 ∧ (r.byte 0).getLsbD 0 = (b == 0x01) := by
  intro v2 b h
  refine ⟨attempt .ocr 1 v2 ((rep [b, 0, 0, 0x80, 0]).inputs ++ []), 0x01, rep [b, 0, 0, 0x80, 0], [], rfl, rfl,
    fits_rep (b := 5) (by decide) rfl ?_, rfl, rfl, ?_⟩ <;> (revert h; revert b; decide)
/-- The first and the last attempt of the reset loop and of both halves of the initialization loop; CMD8 and CMD58. -/
theorem witness_WireNoResponse : ∀ p ∈ [(Exch.reset, (2 : Byte)), (.reset, 3), (.marker, 9), (.marker, 10), (.activate, 9), (.activate, 10),
      (.iface, 1), (.ocr, 1)], ∃ (s : State) (op : Byte) (g : List Byte)
    (es : List Event), s.softReset = false ∧ g.length = 6 ∧ 1 ≤ s.cfg.respBudget.toNat
    ∧ s.events = rx g ++ rx (List.replicate s.cfg.respBudget.toNat 0xFF) ++ es ∧ s.eng = .running op (.ready p.1)
    ∧ s.scratch.attempt = p.2 ∧ s.cfg.resetRetries.toNat = 3 ∧ s.cfg.initRetries.toNat = 10 :=
  fun p _ => ⟨attempt p.1 p.2 true (rx [0, 0, 0, 0, 0, 0] ++ rx (List.replicate 5 0xFF) ++ []), 0x01,
    [0, 0, 0, 0, 0, 0], [], rfl, rfl, show 1 ≤ 5 by decide, rfl, rfl, rfl, rfl, rfl⟩

/-- An op before the CMD17 of a block read. -/
def reading (op : Byte) (u : BlockUse) (es : List Event) : State :=
  { ready256 with eng := .running op (.ready (.block u)), events := es }

theorem witness_Cmd17Completes : ∀ u ∈ [BlockUse.readblk, .readbytes], ∃ (s : State) (op : Byte) (b : BlockReply) (es : List Event),
    s.softReset = false ∧ s.eng = .running op (.ready (.block u)) ∧ s.bs ≤ 512 ∧ s.bs ≤ s.blockbuf.length
    ∧ b.Fits s.cfg.respBudget.toNat s.bs ∧ s.events = b.inputs ++ es :=
  fun u _ => ⟨reading 0x05 u ((blk (ramp 256 0)).inputs ++ []), 0x05, blk (ramp 256 0), [], rfl, rfl,
    show (256 : Nat) ≤ 512 by decide, show (256 : Nat) ≤ zeros.length by decide, fits_blk (b := 5) (n := 256) (by decide) (by decide), rfl⟩
theorem witness_Cmd17Fails : ∀ u ∈ [BlockUse.readblk, .readbytes, .dirnext],
    (∃ (s : State) (op : Byte) (es : List Event) (r : Reply), s.softReset = false ∧ s.eng = .running op (.ready (.block u))
      ∧ r.Fits s.cfg.respBudget.toNat 1 ∧ r.byte 0 ≠ 0x00 ∧ s.events = r.inputs ++ es)
    ∧ (∃ (s : State) (op : Byte) (es : List Event) (r : Reply) (tok c0 c1 : Byte) (ds : List Byte), s.softReset = false
      ∧ s.eng = .running op (.ready (.block u)) ∧ r.Fits s.cfg.respBudget.toNat 1 ∧ r.byte 0 = 0x00 ∧ tok ≠ 0xFE ∧ s.bs ≤ 512 ∧ ds.length = s.bs
      ∧ s.events = r.inputs ++ rx (tok :: ds ++ [c0, c1]) ++ es)
    ∧ ∃ (s : State) (op : Byte) (es : List Event) (g : List Byte), s.softReset = false ∧ s.eng = .running op (.ready (.block u))
      ∧ g.length = 6 ∧ 1 ≤ s.cfg.respBudget.toNat
      ∧ s.events = rx g ++ rx (List.replicate s.cfg.respBudget.toNat 0xFF) ++ es :=
  fun u _ => ⟨⟨reading 0x05 u ((rep [0x01]).inputs ++ []), 0x05, [], rep [0x01], rfl, rfl,
      fits_rep (b := 5) (by decide) rfl (by decide), by decide, rfl⟩,
    ⟨reading 0x05 u ((rep [0x00]).inputs ++ rx (0xFF :: ramp 256 0 ++ [0, 0]) ++ []), 0x05, [], rep [0x00], 0xFF, 0, 0, ramp 256 0, rfl, rfl,
      fits_rep (b := 5) (by decide) rfl (by decide), by decide, by decide, show (256 : Nat) ≤ 512 by decide,
      show (ramp 256 0).length = 256 by decide, rfl⟩,
    ⟨reading 0x05 u (rx [0, 0, 0, 0, 0, 0] ++ rx (List.replicate 5 0xFF) ++ []), 0x05, [], [0, 0, 0, 0, 0, 0], rfl, rfl, rfl,
      show 1 ≤ 5 by decide, rfl⟩⟩
theorem witness_WireOutOfPlace : ∃ (s : State) (i : Instr), (commandOf i).isSome = true ∧ s.eng = .idle :=
  ⟨State.reset, .cmd17 0x200, rfl, rfl⟩

theorem witness_ReadblkCompletes : ∃ (s : State) (b : BlockReply) (es : List Event), s.Inv ∧ s.CanIssue ∧ s.status.stage = .ready
    ∧ b.Fits s.cfg.respBudget.toNat s.bs ∧ s.events = b.inputs ++ es :=
  ⟨ready256.call 0x00ABCDEF 0 0 ((blk (ramp 256 0)).inputs ++ []), blk (ramp 256 0), [], inv_ready256 _ _ _ _, ⟨rfl, rfl, rfl⟩, rfl,
    fits_blk (b := 5) (n := 256) (by decide) (by decide), rfl⟩
theorem witness_ReadblkFails :
    (∃ (s : State) (es : List Event) (r : Reply) (tok c0 c1 : Byte) (ds : List Byte), s.Inv ∧ s.CanIssue ∧ s.status.stage = .ready
      ∧ r.Fits s.cfg.respBudget.toNat 1 ∧ r.byte 0 = 0x00 ∧ tok ≠ 0xFE ∧ ds.length = s.bs
      ∧ s.events = r.inputs ++ rx (tok :: ds ++ [c0, c1]) ++ es)
    ∧ ∃ (s : State) (es : List Event) (g : List Byte), s.Inv ∧ s.CanIssue ∧ s.status.stage = .ready ∧ g.length = 6
      ∧ s.events = rx g ++ rx (List.replicate s.cfg.respBudget.toNat 0xFF) ++ es :=
  ⟨⟨ready256.call 3 0 0 ((rep [0x00]).inputs ++ rx (0xFF :: ramp 256 0 ++ [0, 0]) ++ []), [], rep [0x00], 0xFF, 0, 0, ramp 256 0,
      inv_ready256 _ _ _ _, ⟨rfl, rfl, rfl⟩, rfl, fits_rep (b := 5) (by decide) rfl (by decide), by decide, by decide,
      show (ramp 256 0).length = 256 by decide, rfl⟩,
    ⟨ready256.call 9 0 0 (rx [0, 0, 0, 0, 0, 0] ++ rx (List.replicate 5 0xFF) ++ []), [], [0, 0, 0, 0, 0, 0], inv_ready256 _ _ _ _,
      ⟨rfl, rfl, rfl⟩, rfl, rfl, rfl⟩⟩
/-- The last two bytes of the address space, from two blocks; and a size of 0 at the end of the card. -/
theorem witness_ReadbytesRange :
    (∃ (s : State) (blocks : List BlockReply) (es : List Event), s.Inv ∧ s.CanIssue ∧ s.status.stage = .ready
      ∧ s.arg0.toNat + s.arg1.toNat ≤ 2 ^ 32 ∧ s.arg2.toNat + s.arg1.toNat ≤ 2 ^ 32 ∧ s.arg1 ≠ 0
      ∧ blocks.length = (s.arg2.toNat % s.bs + s.arg1.toNat + s.bs - 1) / s.bs
      ∧ (∀ b ∈ blocks, b.Fits s.cfg.respBudget.toNat s.bs) ∧ Prompt es ∧ s.events = blocks.flatMap BlockReply.inputs ++ es)
    ∧ ∃ s : State, s.Inv ∧ s.CanIssue ∧ s.status.stage = .ready ∧ s.arg0.toNat + s.arg1.toNat ≤ 2 ^ 32
      ∧ s.arg2.toNat + s.arg1.toNat ≤ 2 ^ 32 ∧ s.arg1 = 0 ∧ Prompt s.events := by
  refine ⟨⟨ready256.call 0xFFFFFFFE 2 0xFF ([blk (ramp 256 0), blk (ramp 256 1)].flatMap BlockReply.inputs ++ []),
      [blk (ramp 256 0), blk (ramp 256 1)], [], inv_ready256 _ _ _ _, ⟨rfl, rfl, rfl⟩, rfl, by decide, by decide, by decide, by decide,
      fun b hb => ?_, trivial, rfl⟩,
    ⟨ready256.call 0 0 0xFFFFFFFF [], inv_ready256 _ _ _ _, ⟨rfl, rfl, rfl⟩, rfl, by decide, by decide, rfl, trivial⟩⟩
  simp only [List.mem_cons, List.not_mem_nil, or_false] at hb
  rcases hb with rfl | rfl <;> exact fits_blk (b := 5) (n := 256) (by decide) (by decide)
theorem witness_ReadbytesStops : ∃ (s : State) (blocks : List BlockReply) (r : Reply) (es : List Event), s.Inv ∧ s.CanIssue
    ∧ s.status.stage = .ready ∧ s.arg0.toNat + s.arg1.toNat ≤ 2 ^ 32 ∧ s.arg2.toNat + s.arg1.toNat ≤ 2 ^ 32 ∧ s.arg1 ≠ 0
    ∧ blocks.length < (s.arg2.toNat % s.bs + s.arg1.toNat + s.bs - 1) / s.bs
    ∧ (∀ b ∈ blocks, b.Fits s.cfg.respBudget.toNat s.bs) ∧ r.Fits s.cfg.respBudget.toNat 1 ∧ r.byte 0 ≠ 0x00
    ∧ s.events = blocks.flatMap BlockReply.inputs ++ r.inputs ++ es := by
  refine ⟨ready256.call 0x1000 2 0xFF ([blk (ramp 256 0)].flatMap BlockReply.inputs ++ (rep [0x01]).inputs ++ []), [blk (ramp 256 0)],
    rep [0x01], [], inv_ready256 _ _ _ _, ⟨rfl, rfl, rfl⟩, rfl, by decide, by decide, by decide, by decide, fun b hb => ?_,
    fits_rep (b := 5) (by decide) rfl (by decide), by decide, rfl⟩
  simp only [List.mem_cons, List.not_mem_nil, or_false] at hb
  rcases hb with rfl; exact fits_blk (b := 5) (n := 256) (by decide) (by decide)
/-- A READBYTES of one byte before its DMEM write. -/
def copying : State :=
  { rdy 512 false true false noScan zeros with
    eng := .running 0x06 .copy, a0 := 0x1000, a1 := 1, scratch := { Scratch.zero with dst := 0x1000 } }

theorem inv_copying : copying.Inv :=
  have h : ((rdy 512 false true false noScan zeros).call 0 0 0 []).Inv :=
    inv_rdy (.inr rfl) (fun _ => rfl) (by decide) (scan_none rfl) 0 0 0 []
  ⟨h.legal, h.session, h.volume, h.cfg, h.buffers, h.scan, ⟨no, rfl, no⟩,
    ⟨⟨rfl, rfl, rfl, by decide, by decide, by decide⟩, rfl, by decide, by decide, by decide, by decide⟩, no, no, rfl⟩

/-- The step that writes the byte changes it. -/
theorem witness_ReadbytesFrame_step : ∃ (s t : State) (a : Nat), s.Inv ∧ step s = .next t ∧ t.dmem.read a ≠ s.dmem.read a :=
  ⟨copying, _, 0x1000, inv_copying, rfl, by decide⟩
theorem witness_ReadbytesFrame : ∃ (s t : State) (a b : Nat), s.Inv ∧ s.CanIssue ∧ exec .readbytes s = .next t ∧ a < s.arg0.toNat
    ∧ s.arg0.toNat + s.arg1.toNat ≤ b :=
  ⟨ready512.call 0x1000 8 0 [], _, 0xFFF, 0x1008, inv_ready512 _ _ _ _, ⟨rfl, rfl, rfl⟩, rfl, by decide, by decide⟩
theorem witness_MemoryFrame : ∃ (i : Instr) (s t : State), i ≠ .readbytes ∧ exec i s = .next t :=
  ⟨.readblk, ready512, _, by decide, rfl⟩
theorem witness_Stitching : ∃ s : State, 0 < s.bs ∧ 0 < s.a1.toNat := ⟨{ ready256 with a1 := 1 }, by decide, by decide⟩

theorem witness_PartitionCompletes : ∀ n ∈ [(1 : Word), 4], ∃ (s : State) (b : BlockReply) (es : List Event), s.Inv ∧ s.CanIssue
    ∧ s.status.stage = .ready ∧ s.blockSize = 512 ∧ s.arg0 = n ∧ 1 ≤ n.toNat ∧ n.toNat ≤ 4
    ∧ b.Fits s.cfg.respBudget.toNat 512 ∧ s.events = b.inputs ++ es := by
  intro n h
  refine ⟨ready512.call n 0 0 ((blk zeros).inputs ++ []), blk zeros, [], inv_ready512 _ _ _ _, ⟨rfl, rfl, rfl⟩, rfl, rfl, rfl, ?_, ?_,
    fits_blk (b := 5) (by decide) (by decide), rfl⟩ <;>
    (simp only [List.mem_cons, List.not_mem_nil, or_false] at h
     rcases h with rfl | rfl <;> decide)
theorem witness_MountCompletes : ∃ (s : State) (m b : BlockReply) (plba : Word) (es : List Event), s.Inv ∧ s.CanIssue
    ∧ s.status.stage = .ready ∧ s.blockSize = 512 ∧ 1 ≤ s.arg0.toNat ∧ s.arg0.toNat ≤ 4
    ∧ m.Fits s.cfg.respBudget.toNat 512 ∧ b.Fits s.cfg.respBudget.toNat 512
    ∧ plba = le32 m.payload (446 + 16 * (s.arg0.toNat - 1) + 8) ∧ le16 b.payload 0x1FE = 0xAA55
    ∧ s.events = m.inputs ++ b.inputs ++ es :=
  ⟨ready512.call 1 0 0 ((blk (mbr 446)).inputs ++ (blk (boot 0x55 0xAA)).inputs ++ []), blk (mbr 446), blk (boot 0x55 0xAA), 2048, [],
    inv_ready512 _ _ _ _, ⟨rfl, rfl, rfl⟩, rfl, rfl, by decide, by decide, fits_blk (b := 5) (by decide) (by decide),
    fits_blk (b := 5) (by decide) (by decide), by decide, by decide, rfl⟩
theorem witness_MountBadSignature : ∃ (s : State) (m b : BlockReply) (plba : Word) (es : List Event), s.Inv ∧ s.CanIssue
    ∧ s.status.stage = .ready ∧ s.blockSize = 512 ∧ 1 ≤ s.arg0.toNat ∧ s.arg0.toNat ≤ 4
    ∧ m.Fits s.cfg.respBudget.toNat 512 ∧ b.Fits s.cfg.respBudget.toNat 512
    ∧ plba = le32 m.payload (446 + 16 * (s.arg0.toNat - 1) + 8) ∧ le16 b.payload 0x1FE ≠ 0xAA55
    ∧ s.events = m.inputs ++ b.inputs ++ es :=
  ⟨ready512.call 1 0 0 ((blk (mbr 446)).inputs ++ (blk (boot 0x55 0xAB)).inputs ++ []), blk (mbr 446), blk (boot 0x55 0xAB), 2048, [],
    inv_ready512 _ _ _ _, ⟨rfl, rfl, rfl⟩, rfl, rfl, by decide, by decide, fits_blk (b := 5) (by decide) (by decide),
    fits_blk (b := 5) (by decide) (by decide), by decide, by decide, rfl⟩
theorem witness_Clus2lba : (∃ s : State, s.CanIssue ∧ Prompt s.events ∧ s.status.mounted = true ∧ s.arg0 = 2)
    ∧ (∃ s : State, s.CanIssue ∧ Prompt s.events ∧ s.status.mounted = true ∧ s.arg0 = 1)
    ∧ ∃ s : State, s.CanIssue ∧ Prompt s.events ∧ s.status.mounted = false :=
  ⟨⟨(rdy 512 true false false noScan zeros).call 2 0 0 [], ⟨rfl, rfl, rfl⟩, trivial, rfl, rfl⟩,
    ⟨(rdy 512 true false false noScan zeros).call 1 0 0 [], ⟨rfl, rfl, rfl⟩, trivial, rfl, rfl⟩,
    ⟨ready512, ⟨rfl, rfl, rfl⟩, trivial, rfl⟩⟩

theorem witness_ShortName : ∃ s : List Byte, s.length = 32 := ⟨slotShort, by decide⟩
theorem witness_FieldBytes : (∃ (b : List Byte) (o : Nat), o < b.length ∧ o + 1 = b.length)
    ∧ (∀ i ∈ [0, 31], i < 32) ∧ (4 < 5) ∧ (5 < 6) ∧ 1 < 2 := ⟨⟨slotShort, 31, by decide, by decide⟩, by decide, by decide, by decide, by decide⟩
/-- T-D7's fragment: chunks that end at 0x0000, at 0xFFFF and at neither. -/
theorem witness_NameBytes : ∃ a b c a' b' c' : List (BitVec 16),
    (∀ p ∈ [(a, a'), (b, b'), (c, c')], (∀ u ∈ p.1, u ≠ 0x0000 ∧ u ≠ 0xFFFF)
      ∧ (p.2.head? = none ∨ p.2.head? = some 0x0000 ∨ p.2.head? = some 0xFFFF))
    ∧ (a ++ a').length = 5 ∧ (b ++ b').length = 6 ∧ (c ++ c').length = 2 :=
  ⟨[0x41, 0x42], [0x44, 0x45], [0x49, 0x4A], [0x0000, 0x43, 0xFFFF], [0xFFFF, 0x46, 0x47, 0x48], [], by simp, rfl, rfl, rfl⟩
/-- DECSLOT of the given slot. -/
def decslotAt (n : Word) : State := (rdy 512 false true false noScan dirBlock).call n 0 0 []
theorem witness_Decslot : ∀ p ∈ [((4 : Word), SlotKind.endOfDir), (1, .free), (2, .longFrag), (3, .short), (15, .endOfDir)],
    ∃ (s : State) (t : List Byte), s.CanIssue ∧ Prompt s.events ∧ s.params.hasDirDecoder = true ∧ s.status.bufvalid = true
    ∧ s.arg0.toNat < s.bs / 32 ∧ t = slotOf s.blockbuf s.arg0.toNat ∧ classify t = p.2 := by
  intro p h
  refine ⟨decslotAt p.1, slotOf dirBlock p.1.toNat, ⟨rfl, rfl, rfl⟩, trivial, rfl, rfl, ?_, rfl, ?_⟩ <;>
    (simp only [List.mem_cons, List.not_mem_nil, or_false] at h
     rcases h with rfl | rfl | rfl | rfl | rfl <;> decide)

theorem scan_active {left : Word} {slot : Byte} {fs : List Frag} {l : Bool} {buf : List Byte} (h0 : left ≠ 0) (h1 : slot.toNat ≤ 16)
    (h2 : fs.length ≤ 20) (h3 : ∀ f ∈ fs, f.cu.length = 13) :
    ScanInv Params.standard (scanning left slot fs l buf).status 512 (scanning left slot fs l buf).dir :=
  ⟨fun _ => ⟨rfl, by decide, h0⟩, nofun, fun _ => rfl, h1, h2, h3⟩

theorem inv_scanning {left : Word} {slot : Byte} {fs : List Frag} {l : Bool} {buf : List Byte} (h0 : left ≠ 0) (h1 : slot.toNat ≤ 16)
    (h2 : fs.length ≤ 20) (h3 : ∀ f ∈ fs, f.cu.length = 13) (hb : buf.length = 512) (es : List Event) :
    ((scanning left slot fs l buf).call 0 0 0 es).Inv :=
  inv_rdy (.inr rfl) (fun _ => rfl) hb (scan_active h0 h1 h2 h3) 0 0 0 es

/-- A fragment. -/
def frag : Frag where
  ord := 1
  cu := List.replicate 13 0x41

theorem witness_ScanStarts : ∃ s : State, s.CanIssue ∧ Prompt s.events ∧ s.params.hasDirDecoder = true ∧ s.status.stage = .ready
    ∧ s.status.dirActive = false := ⟨ready512.call 100 0 0 [], ⟨rfl, rfl, rfl⟩, trivial, rfl, rfl, rfl⟩

/-- The hypotheses of `DirnextOverBlock`. -/
def OverBlock (s : State) (k : Nat) (t : List Byte) (fs : List Frag) : Prop :=
  s.Inv ∧ s.CanIssue ∧ Prompt s.events ∧ s.status.stage = .ready ∧ s.status.dirActive = true ∧ s.dir.loaded = true ∧ s.Skips k
  ∧ fs = s.dir.frags ++ s.heldOver k ∧ fs.length ≤ s.params.maxFragments ∧ s.dir.slot.toNat + k < s.bs / 32
  ∧ t = slotOf s.blockbuf (s.dir.slot.toNat + k)

theorem witness_DirnextOverBlock_short : ∃ s k t fs, OverBlock s k t fs ∧ classify t = .short ∧ fs ≠ [] :=
  ⟨(scanning 8 0 [] true dirBlock).call 0 0 0 [], 3, _, _,
    ⟨inv_scanning (by decide) (by decide) (by decide) (by decide) (by decide) [], ⟨rfl, rfl, rfl⟩, trivial, rfl, rfl, rfl,
      by unfold State.Skips; decide, rfl, by decide, by decide, rfl⟩, by decide, by decide⟩
theorem witness_DirnextOverBlock_own_name : ∃ s k t fs, OverBlock s k t fs ∧ classify t = .short ∧ fs = [] :=
  ⟨(scanning 8 3 [] true dirBlock).call 0 0 0 [], 0, _, _,
    ⟨inv_scanning (by decide) (by decide) (by decide) (by decide) (by decide) [], ⟨rfl, rfl, rfl⟩, trivial, rfl, rfl, rfl,
      by unfold State.Skips; decide, rfl, by decide, by decide, rfl⟩, by decide, by decide⟩
theorem witness_DirnextOverBlock_end : ∃ s k t fs, OverBlock s k t fs ∧ classify t = .endOfDir :=
  ⟨(scanning 8 4 [frag] true dirBlock).call 0 0 0 [], 0, _, _,
    ⟨inv_scanning (by decide) (by decide) (by decide) (by decide) (by decide) [], ⟨rfl, rfl, rfl⟩, trivial, rfl, rfl, rfl,
      by unfold State.Skips; decide, rfl, by decide, by decide, rfl⟩, by decide⟩
theorem witness_DirnextOverBlock_full : ∃ s k t fs, OverBlock s k t fs ∧ classify t = .longFrag ∧ fs.length = s.params.maxFragments :=
  ⟨(scanning 8 0 (List.replicate 19 frag) true dirBlock).call 0 0 0 [], 2, _, _,
    ⟨inv_scanning (by decide) (by decide) (by decide) (by decide) (by decide) [], ⟨rfl, rfl, rfl⟩, trivial, rfl, rfl, rfl,
      by unfold State.Skips; decide, rfl, by decide, by decide, rfl⟩, by decide, by decide⟩
/-- The last block of a scan, a block before the last, and a block to be read. -/
theorem witness_DirnextAcrossBlocks :
    (∀ n ∈ [(1 : Word), 2], ∃ (s : State) (fs : List Frag) (k : Nat), s.Inv ∧ s.CanIssue ∧ s.status.stage = .ready
      ∧ s.status.dirActive = true ∧ s.dir.loaded = true ∧ Prompt s.events ∧ s.Skips k ∧ fs = s.dir.frags ++ s.heldOver k
      ∧ fs.length ≤ s.params.maxFragments ∧ s.dir.slot.toNat + k = s.bs / 32 ∧ s.dir.left = n)
    ∧ ∃ (s : State) (b : BlockReply) (es : List Event), s.Inv ∧ s.CanIssue ∧ s.status.stage = .ready ∧ s.status.dirActive = true
      ∧ s.dir.loaded = false ∧ b.Fits s.cfg.respBudget.toNat s.bs ∧ Prompt es ∧ s.events = b.inputs ++ es := by
  refine ⟨fun n h => ⟨(scanning n 14 [frag] true freeBlock).call 0 0 0 [], _, 2, inv_scanning ?_ (by decide) (by decide) (by decide) (by decide) [],
      ⟨rfl, rfl, rfl⟩, rfl, rfl, rfl, trivial, ?_, rfl, ?_, ?_, rfl⟩,
    ⟨(scanning 1 0 [frag] false zeros).call 0 0 0 ((blk zeros).inputs ++ []), blk zeros, [],
      inv_scanning (by decide) (by decide) (by decide) (by decide) (by decide) _, ⟨rfl, rfl, rfl⟩, rfl, rfl, rfl,
      fits_blk (b := 5) (n := 512) (by decide) (by decide), trivial, rfl⟩⟩ <;>
    (simp only [List.mem_cons, List.not_mem_nil, or_false] at h
     rcases h with rfl | rfl <;> first | decide | (unfold State.Skips; decide))

end Sys2Proof.Tests
end

