-- ==== Sys2Proof/Proofs/FieldBytes.lean ====
section
/-! The named fields by their bytes: little-endian halfwords and words (00_scope.md R10), the slots of a block
(30_encoding.md R126), the code units of a long-name fragment (44_directory.md R263) and the kinds of slot (R260). -/

namespace Sys2Proof.Machine

/-! ## Little-endian fields -/

/-- A byte put below a field: the step by which a little-endian field is read. -/
theorem toNat_append_byte {n : Nat} (x : BitVec n) (y : Byte) : (x ++ y).toNat = y.toNat + 2 ^ 8 * x.toNat := by
  rw [BitVec.toNat_append, ← Nat.shiftLeft_add_eq_or_of_lt y.isLt, Nat.shiftLeft_eq]
  omega

theorem getElem?_eq_some_byteAt {b : List Byte} {o : Nat} (h : o < b.length) : b[o]? = some (byteAt b o) := by
  rw [byteAt, List.getD_eq_getElem b 0 h, List.getElem?_eq_getElem h]

theorem le16_toNat (b : List Byte) (o : Nat) :
    (le16 b o).toNat = (byteAt b o).toNat + 2 ^ 8 * (byteAt b (o + 1)).toNat :=
  toNat_append_byte _ _

theorem wordOfBytes_toNat (b0 b1 b2 b3 : Byte) : (wordOfBytes b0 b1 b2 b3).toNat =
    b0.toNat + 2 ^ 8 * b1.toNat + 2 ^ 16 * b2.toNat + 2 ^ 24 * b3.toNat := by
  have h : (wordOfBytes b0 b1 b2 b3).toNat = b0.toNat + 2 ^ 8 * (b1.toNat + 2 ^ 8 * (b2.toNat + 2 ^ 8 * b3.toNat)) := by
    simp only [wordOfBytes, toNat_append_byte]
  omega

/-- `LE32` lies in a byte sequence as a host word lies in memory (00_scope.md R10, 20_memory.md R74). -/
theorem le32_eq_wordOfBytes (b : List Byte) (o : Nat) :
    le32 b o = wordOfBytes (byteAt b o) (byteAt b (o + 1)) (byteAt b (o + 2)) (byteAt b (o + 3)) := rfl

theorem le32_toNat (b : List Byte) (o : Nat) : (le32 b o).toNat = (byteAt b o).toNat + 2 ^ 8 * (byteAt b (o + 1)).toNat
    + 2 ^ 16 * (byteAt b (o + 2)).toNat + 2 ^ 24 * (byteAt b (o + 3)).toNat := by
  rw [le32_eq_wordOfBytes, wordOfBytes_toNat]

/-! ## Directory slots -/

theorem slotOf_getElem? (b : List Byte) {i : Nat} (j : Nat) (h : i < 32) : (slotOf b j)[i]? = b[32 * j + i]? := by
  rw [slotOf, List.getElem?_take_of_lt h, List.getElem?_drop]

theorem fragUnits_getElem?_first (t : List Byte) {j : Nat} (h : j < 5) :
    (fragUnits t)[j]? = some (le16 t (1 + 2 * j)) := by
  simp [fragUnits, List.getElem?_append, h]

theorem fragUnits_getElem?_second (t : List Byte) {j : Nat} (h : j < 6) :
    (fragUnits t)[5 + j]? = some (le16 t (14 + 2 * j)) := by
  simp [fragUnits, List.getElem?_append, h]

theorem fragUnits_getElem?_third (t : List Byte) {j : Nat} (h : j < 2) :
    (fragUnits t)[11 + j]? = some (le16 t (28 + 2 * j)) := by
  have hj : 11 + j - 5 - 6 = j := by omega
  simp [fragUnits, List.getElem?_append, h, hj, show ¬ 11 + j < 5 by omega, show ¬ 11 + j - 5 < 6 by omega]

/-! ## The kinds of slot -/

/-- The test for a long-name fragment's attribute: the low four bits are all set (44_directory.md R260). -/
theorem and_0x0F_eq_iff (a : Byte) : a &&& 0x0F = 0x0F ↔ a.toNat % 16 = 15 := by
  rw [← BitVec.toNat_inj, BitVec.toNat_and]
  exact (Nat.and_two_pow_sub_one_eq_mod a.toNat 4).congr_left

/-- The four tests of `classify` in their order, the attribute's by value (44_directory.md R260). -/
theorem classify_eq (t : List Byte) : classify t =
    if byteAt t 0 = 0x00 then .endOfDir else if byteAt t 0 = 0xE5 then .free
    else if (byteAt t 11).toNat % 16 = 15 then .longFrag else .short := by
  simp only [classify, and_0x0F_eq_iff]

theorem classify_eq_endOfDir_iff (t : List Byte) : classify t = .endOfDir ↔ byteAt t 0 = 0x00 := by
  rw [classify_eq]
  split_ifs <;> simp_all

theorem classify_eq_free_iff (t : List Byte) : classify t = .free ↔ byteAt t 0 = 0xE5 := by
  rw [classify_eq]
  split_ifs <;> simp_all

theorem classify_eq_longFrag_iff (t : List Byte) : classify t = .longFrag ↔
    byteAt t 0 ≠ 0x00 ∧ byteAt t 0 ≠ 0xE5 ∧ (byteAt t 11).toNat % 16 = 15 := by
  rw [classify_eq]
  split_ifs <;> simp_all

theorem classify_eq_short_iff (t : List Byte) : classify t = .short ↔
    byteAt t 0 ≠ 0x00 ∧ byteAt t 0 ≠ 0xE5 ∧ (byteAt t 11).toNat % 16 ≠ 15 := by
  rw [classify_eq]
  split_ifs <;> simp_all

/-- Settles O53: each field by its own lemma. -/
theorem fieldBytes : Obligations.FieldBytes :=
  ⟨fun _ _ => getElem?_eq_some_byteAt, le16_toNat, le32_toNat, wordOfBytes_toNat, fun b _ j => slotOf_getElem? b j,
    fun t => ⟨fragUnits_length t, fun _ => fragUnits_getElem?_first t, fun _ => fragUnits_getElem?_second t,
      fun _ => fragUnits_getElem?_third t⟩,
    fun t => ⟨classify_eq_endOfDir_iff t, classify_eq_free_iff t, classify_eq_longFrag_iff t, classify_eq_short_iff t⟩⟩

end Sys2Proof.Machine
end

section
/-! The statements of 10_state.md: the reset values, the fields of STATUS, the host's reads, how a host op and a wire command
come to run, and the invariant over every kind of step. -/

namespace Sys2Proof.Machine

/-! ## How an instruction runs -/

/-- An instruction with an op code is a host op: it runs by the issue of that code (30_encoding.md R102). -/
theorem exec_eq_launch {i : Instr} {op : Byte} (h : opcodeOf i = some op) (s : State) : exec i s = launch op s := by
  cases i <;> cases h <;> rfl

/-- An instruction with a command index is a wire command: it runs by an exchange of the running op (log 18). -/
theorem exec_eq_sendWire {i : Instr} (h : (commandOf i).isSome = true) (s : State) :
    ∃ (at_ : Exch → Bool) (idx : BitVec 6) (arg : Word), exec i s = sendWire at_ idx arg s := by
  cases i
  case cmd0 | cmd8 | cmd17 | cmd55 | acmd41 | cmd58 => exact ⟨_, _, _, rfl⟩
  all_goals cases h

theorem sendWire_of_idle {s : State} (he : s.eng = .idle) (at_ : Exch → Bool) (idx : BitVec 6) (arg : Word) :
    sendWire at_ idx arg s = .refused .notAtCommand := by
  simp [sendWire, he]

/-- Settles O41: a wire command is an exchange, and an idle engine stands at none. -/
theorem wireOutOfPlace : Obligations.WireOutOfPlace := by
  intro s i hi he
  obtain ⟨at_, idx, arg, hx⟩ := exec_eq_sendWire hi s
  rw [hx, sendWire_of_idle he]

/-! ## A host write of OP -/

/-- A host op word decodes by its low byte alone (30_encoding.md R100). -/
theorem opcodeOf_decodeHostOp {w : Word} {i : Instr} (h : decodeHostOp w = .ok i) :
    opcodeOf i = some (w.extractLsb' 0 8) := by
  have hop : ∀ {n : Nat}, (w.extractLsb' 0 8).toNat = n → some (BitVec.ofNat 8 n) = some (w.extractLsb' 0 8) := by
    rintro _ rfl
    rw [BitVec.ofNat_toNat, BitVec.setWidth_eq]
  unfold decodeHostOp at h
  split at h <;> cases h <;> exact hop ‹_›

/-- A host write of OP launches the op code of its low byte, whether the code is reserved or not (30_encoding.md R100, R106). -/
theorem writeOp_eq_launch (v : Word) (s : State) : writeOp v s = launch (v.extractLsb' 0 8) s := by
  unfold writeOp
  split
  next i hd =>
    have hop := opcodeOf_decodeHostOp hd
    rw [(wordOfBytes_byte _ _ _ _).1] at hop
    exact exec_eq_launch hop s
  next => rfl

/-- Settles O19: every word is a launch, and a launch of a busy block sets OPOVR alone. -/
theorem opWhileBusy : Obligations.OpWhileBusy :=
  ⟨fun s v hb hr => by rw [writeOp_eq_launch, launch_busy _ hr hb], fun _ _ => rfl⟩

/-! ## The engine's own fetch -/

theorem wireFetch_ready {s : State} {op : Byte} {x : Exch} {i : Instr} (he : s.eng = .running op (.ready x)) (hx : x ≠ .send)
    (hd : decode (frameBytes s.scratch.frame) = .ok i) : wireFetch s = some i := by
  simp [wireFetch, he, hx, hd]

theorem advance_of_wireFetch {s : State} {i : Instr} (h : wireFetch s = some i) : advance s = exec i s := by
  simp only [advance, h]

/-- Settles O7: before a frame the engine has an internal step, and it fetches the command. -/
theorem stepRunsWireCommand : Obligations.StepRunsWireCommand := by
  intro s op x i hr he hx hl hd
  rw [step_internal hr (State.internal_of_running he) hl, advance_of_wireFetch (wireFetch_ready he hx hd)]

/-! ## Reset -/

theorem State.reset_eq_blockReset : State.reset = State.reset.blockReset := rfl

theorem State.blockReset_statusWord (s : State) : s.blockReset.statusWord = 0 := by
  have hview : s.blockReset.dirActiveView = false := Bool.and_false _
  have hbusy : s.blockReset.busy = false := rfl
  unfold State.statusWord
  rw [hview, hbusy, State.blockReset_status]
  rfl

theorem State.reset_statusWord : State.reset.statusWord = 0 := by
  rw [State.reset_eq_blockReset, State.blockReset_statusWord]

/-- Settles O12: the reset state is written out in `State.fresh`, and STATUS is 0 whatever the build. -/
theorem resetValues : Obligations.ResetValues := by
  refine ⟨fun s => ⟨s.blockReset_statusWord, ?_⟩, State.reset_eq_blockReset, rfl⟩
  repeat' apply And.intro
  all_goals rfl

/-! ## The fields of STATUS (10_state.md R27)

A word that is put together from fields gives them back from the lowest on: a flag is one bit wide, and the two codes that
follow a flag are four. -/

theorem getLsbD_append_flag {n : Nat} (x : BitVec n) (b : Bool) (i : Nat) :
    (x ++ BitVec.ofBool b : BitVec (n + 1)).getLsbD i = if i = 0 then b else x.getLsbD (i - 1) := by
  rw [BitVec.getLsbD_append]
  by_cases h : i = 0 <;> simp [h]

theorem getLsbD_append_code {n : Nat} (x : BitVec n) (y : BitVec 4) (i : Nat) :
    (x ++ y : BitVec (n + 4)).getLsbD i = if i < 4 then y.getLsbD i else x.getLsbD (i - 4) :=
  BitVec.getLsbD_append

theorem extractLsb'_append_flag {n : Nat} (x : BitVec n) (b : Bool) (i k : Nat) :
    (x ++ BitVec.ofBool b : BitVec (n + 1)).extractLsb' (i + 1) k = x.extractLsb' i k :=
  BitVec.extractLsb'_append_eq_of_le (Nat.le_add_left 1 i)

theorem extractLsb'_append_code {n : Nat} (x : BitVec n) (y : BitVec 4) (i k : Nat) :
    (x ++ y : BitVec (n + 4)).extractLsb' (i + 4) k = x.extractLsb' i k :=
  BitVec.extractLsb'_append_eq_of_le (Nat.le_add_left 4 i)

theorem extractLsb'_append_code_low {n : Nat} (x : BitVec n) (y : BitVec 4) :
    (x ++ y : BitVec (n + 4)).extractLsb' 0 4 = y :=
  BitVec.extractLsb'_append_eq_right

/-- The flags of STATUS. -/
theorem State.statusWord_flags (s : State) :
    s.statusWord.getLsbD 0 = s.busy ∧ s.statusWord.getLsbD 1 = s.status.done ∧ s.statusWord.getLsbD 2 = s.status.err
    ∧ s.statusWord.getLsbD 3 = s.status.opovr ∧ s.statusWord.getLsbD 12 = s.status.v2
    ∧ s.statusWord.getLsbD 13 = s.status.hc ∧ s.statusWord.getLsbD 14 = s.status.voltWarn
    ∧ s.statusWord.getLsbD 15 = s.status.spedUp ∧ s.statusWord.getLsbD 16 = s.status.mounted
    ∧ s.statusWord.getLsbD 17 = s.status.bufvalid ∧ s.statusWord.getLsbD 18 = s.dirActiveView
    ∧ s.statusWord.getLsbD 19 = s.status.errctx := by
  unfold State.statusWord
  simp only [getLsbD_append_flag, getLsbD_append_code]
  simp

/-- The codes of STATUS and its two reserved fields. -/
theorem State.statusWord_codes (s : State) :
    s.statusWord.extractLsb' 4 4 = 0 ∧ s.statusWord.extractLsb' 8 4 = s.status.stage.code
    ∧ s.statusWord.extractLsb' 20 4 = 0 ∧ s.statusWord.extractLsb' 24 8 = s.status.errcode.code := by
  unfold State.statusWord
  simp only [extractLsb'_append_flag, extractLsb'_append_code, extractLsb'_append_code_low]
  simp

/-- Settles O15: STATUS by its flags and its codes. -/
theorem statusFields : Obligations.StatusFields := by
  refine ⟨fun s => ?_, State.reset_statusWord, rfl, rfl⟩
  obtain ⟨hbusy, hdone, herr, hopovr, hv2, hhc, hvolt, hsped, hmnt, hbuf, hdir, hctx⟩ := s.statusWord_flags
  obtain ⟨hlow, hstage, hmid, herrcode⟩ := s.statusWord_codes
  exact ⟨rfl, fun _ => rfl, hbusy, hdone, herr, hopovr, hlow, hstage, hv2, hhc, hvolt, hsped, hmnt, hbuf, hdir, hctx, hmid,
    herrcode⟩

/-! ## Host reads (10_state.md R25) -/

/-- A narrow register reads zero-extended. -/
theorem toNat_zeroExtend {n : Nat} (x : BitVec n) (h : n ≤ 32) : (x.setWidth 32).toNat = x.toNat :=
  BitVec.toNat_setWidth_of_le h

theorem readReg_word {s : State} {off o : Nat} {w : Word} (h : (s.readReg o).1 = w) (ho : off = o) : (s.readReg off).1 = w :=
  ho ▸ h

theorem readReg_narrow {s : State} {off o n : Nat} {x : BitVec n} (hn : n ≤ 32) (h : (s.readReg o).1 = x.setWidth 32)
    (ho : off = o) : (s.readReg off).1.toNat = x.toNat := by
  rw [readReg_word h ho, toNat_zeroExtend x hn]

theorem readReg_ctrl (s : State) : (s.readReg 0x008).1.toNat = if s.irqEn then 2 else 0 := by
  show ((BitVec.ofBool s.irqEn ++ 0#1 : BitVec (1 + 1)).setWidth 32).toNat = _
  cases s.irqEn <;> rfl

theorem readReg_intStatus (s : State) : (s.readReg 0x00C).1.toNat = if s.donePend then 1 else 0 := by
  show ((BitVec.ofBool s.donePend).setWidth 32).toNat = _
  cases s.donePend <;> rfl

/-- Byte `j` of a window word is the window's byte `o + j`, on a draw of its own (20_memory.md R74). -/
theorem State.readWindow_byte (s : State) (view : Nat → Nat → Byte) (o : Nat) {j : Nat} (hj : j < 4) :
    (s.readWindow view o).1.extractLsb' (8 * j) 8 = view (o + j) (s.draws + j) := by
  obtain ⟨h0, h1, h2, h3⟩ := wordOfBytes_byte (view o s.draws) (view (o + 1) (s.draws + 1)) (view (o + 2) (s.draws + 2))
    (view (o + 3) (s.draws + 3))
  match j, hj with
  | 0, _ => exact h0
  | 1, _ => exact h1
  | 2, _ => exact h2
  | 3, _ => exact h3

theorem State.blockbufView_payload {s : State} {o : Nat} (d : Nat) (hb : s.busy = false) (hv : s.status.bufvalid = true)
    (ho : o < s.bs) : s.blockbufView o d = byteAt s.blockbuf o := by
  simp [State.blockbufView, hb, hv, ho]

theorem State.namebufView_name {s : State} {o : Nat} (d : Nat) (hb : s.busy = false) (hp : s.params.hasDirDecoder = true)
    (ho : o < s.nameLen.toNat) : s.namebufView o d = byteAt s.namebuf o := by
  simp [State.namebufView, hb, hp, ho]

theorem State.namebufView_no_decoder {s : State} (hp : s.params.hasDirDecoder = false) (o d : Nat) :
    s.namebufView o d = 0 := by
  simp [State.namebufView, hp]

theorem State.readRes_not_busy {s : State} (hb : s.busy = false) (v : Word) : (s.readRes v).1 = v := by
  simp [State.readRes, hb]

theorem State.dirView_decoder {s : State} (hp : s.params.hasDirDecoder = true) (v : Word) : s.dirView v = v := by
  simp [State.dirView, hp]

theorem State.dirView_no_decoder {s : State} (hp : s.params.hasDirDecoder = false) (v : Word) : s.dirView v = 0 := by
  simp [State.dirView, hp]

theorem readReg_blockbuf (s : State) {off : Nat} (h0 : 0x200 ≤ off) (h1 : off < 0x400) :
    s.readReg off = s.readWindow s.blockbufView (off - 0x200) := by
  rw [readReg_beyond s (by omega), if_pos ⟨h0, h1⟩]

theorem readReg_namebuf (s : State) {off : Nat} (h0 : 0x400 ≤ off) (h1 : off < 0x800) :
    s.readReg off = s.readWindow s.namebufView (off - 0x400) := by
  rw [readReg_beyond s (by omega), if_neg (by omega), if_pos ⟨h0, h1⟩]

/-- A build without the decoder reads 0 from the directory registers (00_scope.md R8). -/
theorem readReg_dir_no_decoder {s : State} {off : Nat} (hp : s.params.hasDirDecoder = false) (ho : off % 4 = 0)
    (h0 : 0x080 ≤ off) (h1 : off < 0x094) : (s.readReg off).1 = 0 := by
  have hoff : off = 0x080 ∨ off = 0x084 ∨ off = 0x088 ∨ off = 0x08C ∨ off = 0x090 := by omega
  rcases hoff with rfl | rfl | rfl | rfl | rfl <;> exact State.dirView_no_decoder hp _

/-- A build without the decoder reads 0 from the name window (00_scope.md R8). -/
theorem readReg_namebuf_no_decoder {s : State} {off : Nat} (hp : s.params.hasDirDecoder = false) (h0 : 0x400 ≤ off)
    (h1 : off < 0x800) : (s.readReg off).1 = 0 := by
  rw [readReg_namebuf s h0 h1]
  simp only [State.readWindow, State.namebufView_no_decoder hp]
  rfl

/-- OP, the two gaps between the registers and what lies between them and the windows read 0 (10_state.md R25). -/
theorem readReg_unlisted (s : State) {off : Nat} (h : off = 0x000 ∨ off = 0x01C ∨ off = 0x03C ∨ 0x094 ≤ off ∧ off < 0x200) :
    (s.readReg off).1 = 0 := by
  rcases h with rfl | rfl | rfl | ⟨h0, h1⟩
  case inr.inr.inr => rw [readReg_beyond s h0, if_neg (by omega), if_neg (by omega)]
  all_goals rfl

/-- A host read that lands: the value is the register's, and beside the record of reads only the count of draws changes. -/
theorem step_read {s : State} {p : Option Nat} {off : Nat} {es : List Event} (hr : s.inReset = false)
    (hb : s.params.base % 4 = 0) (hp : s.internal = false ∨ p = some 0) (ho : off % 4 = 0) (hs : off < 2048)
    (he : s.events = .host p { bits := 32, addr := s.params.base + off, dir := .rd } :: es) :
    ∃ n, step s = .next { s with
      events := es
      reads := s.reads ++ [{ off := off, val := (State.readReg { s with events := es } off).1 }]
      draws := n } := by
  refine ⟨(State.readReg { s with events := es } off).2.draws, ?_⟩
  rw [step_host hr hp he, hostAccess_ok (s := { s with events := es }) hb ho hs]
  dsimp only
  rw [readReg_state { s with events := es } off]

/-- Settles O16: a landing read gives the register's value, which the map of R25 names offset by offset. -/
theorem hostReads : Obligations.HostReads := by
  intro s p off es hr hb hp ho hs he
  obtain ⟨n, hstep⟩ := step_read hr hb hp ho hs he
  have hres {v : Word} (hidle : s.busy = false) : (State.readRes { s with events := es } v).1 = v :=
    State.readRes_not_busy (s := { s with events := es }) hidle v
  have hdir {v : Word} (hdec : s.params.hasDirDecoder = true) : State.dirView { s with events := es } v = v :=
    State.dirView_decoder (s := { s with events := es }) hdec v
  have h8 : 8 ≤ 32 := by decide
  have h16 : 16 ≤ 32 := by decide
  exact ⟨_, n, hstep, readReg_word rfl, fun h => h ▸ readReg_ctrl _, fun h => h ▸ readReg_intStatus _,
    readReg_word rfl, readReg_word rfl, readReg_word rfl,
    fun hidle => ⟨readReg_word (hres hidle), readReg_word (hres hidle), readReg_word (hres hidle), readReg_word (hres hidle)⟩,
    readReg_word rfl, readReg_narrow h8 rfl, readReg_word rfl,
    readReg_narrow h8 rfl, readReg_narrow h8 rfl, readReg_narrow h8 rfl, readReg_narrow h8 rfl,
    readReg_word rfl, readReg_narrow h8 rfl, readReg_word rfl,
    readReg_narrow h16 rfl, readReg_narrow h8 rfl, readReg_narrow h16 rfl, readReg_narrow h8 rfl,
    readReg_word rfl, readReg_word rfl, readReg_narrow h16 rfl, readReg_word rfl, readReg_word rfl,
    fun hdec => ⟨readReg_word (hdir hdec), readReg_word (hdir hdec), readReg_narrow h8 (hdir hdec),
      readReg_narrow h16 (hdir hdec), readReg_word (hdir hdec)⟩,
    fun hdec => readReg_dir_no_decoder hdec ho,
    fun j hj h0 h1 hidle hval hlt => by
      rw [readReg_blockbuf _ h0 h1, State.readWindow_byte _ _ _ hj]
      exact State.blockbufView_payload _ hidle hval hlt,
    fun j hj h0 hidle hdec hlt => by
      rw [readReg_namebuf _ h0 hs, State.readWindow_byte _ _ _ hj]
      exact State.namebufView_name _ hidle hdec hlt,
    fun h0 hdec => readReg_namebuf_no_decoder hdec h0 hs,
    readReg_unlisted _⟩

/-! ## Every step keeps the invariant -/

/-- Settles O9: the reset state is a block reset of a legal build. -/
theorem invAtReset : Obligations.InvAtReset := by
  unfold Obligations.InvAtReset
  rw [State.reset_eq_blockReset]
  exact State.blockReset_inv (by decide) State.reset_dmem_wf

/-- At the assertion of the reset input the block has its reset values already (log 20). -/
theorem State.blockReset_held_inv {s : State} (h : s.params.legal = true) (hm : s.dmem.wf = true) :
    State.Inv { s.blockReset with inReset := true } := by
  have hi := State.blockReset_inv h hm
  exact ⟨hi.legal, hi.session, hi.volume, hi.cfg, hi.buffers, hi.scan, hi.completion, hi.engine, hi.soft, fun _ => rfl, hi.dmem⟩

theorem advance_inv {s t : State} (h : s.Inv) (ha : advance s = .next t) : t.Inv := by
  unfold advance at ha
  split at ha
  · exact exec_inv h ha
  · cases ha
    exact drive_inv _ h

theorem heldStep_inv {s t : State} (h : s.Inv) (hh : heldStep s = .next t) : t.Inv := by
  unfold heldStep at hh
  split at hh <;> cases hh
  · exact h
  · exact (State.blockReset_inv h.legal h.dmem).withEvents _
  · exact h.withEvents _

theorem inputStep_inv {s t : State} (h : s.Inv) (hr : s.inReset = false) (hi : inputStep s = .next t) : t.Inv := by
  unfold inputStep at hi
  split at hi
  case h_1 =>
    split at hi <;> cases hi
    exact h
  case h_2 =>
    split at hi <;> cases hi
    · exact drive_inv _ h
    · exact h.withEvents _
  case h_3 _ a es _ => exact hostAccess_inv (h.withEvents es) hr hi
  case h_4 =>
    cases hi
    exact (State.blockReset_held_inv h.legal h.dmem).withEvents _
  case h_5 =>
    cases hi
    exact h.withEvents _

/-- Settles O10: a step is one of a held block, of an engine with an internal step to make, or on the next input, and each keeps
the invariant. -/
theorem stepKeepsInv : Obligations.StepKeepsInv := by
  intro s t h hs
  unfold step schedule at hs
  split at hs
  next => exact heldStep_inv h hs
  next hr =>
    split at hs
    next => exact advance_inv h hs
    next => exact inputStep_inv h (by simpa using hr) hs

end Sys2Proof.Machine
end

section
/-! Host accesses (20_memory.md R74 to R76): those the block refuses, and what a write of any offset but OP's does. -/

namespace Sys2Proof.Machine

/-! ## Host accesses the block refuses (20_memory.md R70, R74) -/

/-- An access of another width or alignment is refused before anything else is looked at (20_memory.md R74). -/
theorem hostAccess_bad_shape {a : HostAccess} (h : a.bits ≠ 32 ∨ a.addr % 4 ≠ 0) (s : State) :
    hostAccess a s = .refused .hostAccessShape := by
  have hshape : a.shapeOk = false := by simpa [HostAccess.shapeOk, ← imp_iff_not_or] using h
  simp [hostAccess, hshape]

/-- A well-shaped access outside the 2 KiB at BASE is refused (20_memory.md R70; log 21). -/
theorem hostAccess_outside {a : HostAccess} {s : State} (hb : a.bits = 32) (ha : a.addr % 4 = 0)
    (h : a.addr < s.params.base ∨ s.params.base + 2048 ≤ a.addr) : hostAccess a s = .refused .outsideBlock := by
  have hshape : a.shapeOk = true := by simp [HostAccess.shapeOk, hb, ha]
  have hspace : a.inSpace s.params = false := by
    rw [HostAccess.inSpace, Bool.and_eq_false_iff]
    exact h.imp (fun hlow => decide_eq_false (Nat.not_le.mpr hlow)) (fun hhigh => decide_eq_false (Nat.not_lt.mpr hhigh))
  simp [hostAccess, hshape, hspace]

/-- Settles O20: the access lands as the step, and its shape and its place are checked first. -/
theorem hostAccessRefused : Obligations.HostAccessRefused := by
  intro s p a es hr hp he
  rw [step_host hr hp he]
  exact ⟨fun h => hostAccess_bad_shape h _, fun hb ha h => hostAccess_outside hb ha h⟩

/-! ## Host writes other than OP (20_memory.md R76) -/

/-- A host write of any offset but OP's that lands. -/
theorem step_write {s : State} {p : Option Nat} {off : Nat} {v : Word} {es : List Event} (hr : s.inReset = false)
    (hb : s.params.base % 4 = 0) (hp : s.internal = false ∨ p = some 0) (ho : off % 4 = 0) (hs : off < 2048)
    (h0 : off ≠ 0) (he : s.events = .host p { bits := 32, addr := s.params.base + off, dir := .wr v } :: es) :
    step s = .next (State.writeReg { s with events := es } off v) := by
  rw [step_host hr hp he, hostAccess_ok (s := { s with events := es }) hb ho hs]
  exact if_neg h0

/-- What a configuration register takes is its legal minimum or the written byte, whichever is greater (10_state.md R42). -/
theorem cfgStored_toNat (v : Word) (lo : Byte) : (cfgStored v lo).toNat = max (v.toNat % 256) lo.toNat := by
  have hv : (v.extractLsb' 0 8).toNat = v.toNat % 256 := by simp [BitVec.extractLsb'_toNat]
  unfold cfgStored
  split <;> omega

theorem State.writeCfg_not_busy {s : State} (h : s.busy = false) (f : Cfg → Cfg) : s.writeCfg f = { s with cfg := f s.cfg } := by
  simp [State.writeCfg, h]

theorem State.writeCfg_busy {s : State} (h : s.busy = true) (f : Cfg → Cfg) : s.writeCfg f = s := by
  simp [State.writeCfg, h]

/-- A write of CTRL that asks for no soft reset stores IRQ_EN (10_state.md R35). -/
theorem State.writeReg_ctrl (s : State) {v : Word} (h : v.getLsbD 0 = false) :
    s.writeReg 0x008 v = { s with irqEn := v.getLsbD 1 } :=
  if_neg (by rw [h]; exact Bool.false_ne_true)

/-- A write of INT_STATUS clears DONE_PEND by a 1 (10_state.md R36). -/
theorem State.writeReg_intStatus (s : State) (v : Word) :
    s.writeReg 0x00C v = { s with donePend := s.donePend && !v.getLsbD 0 } := by
  show (if v.getLsbD 0 then { s with donePend := false } else s) = _
  cases v.getLsbD 0
  · rw [Bool.not_false, Bool.and_true]
    exact if_neg Bool.false_ne_true
  · rw [Bool.not_true, Bool.and_false]
    exact if_pos rfl

theorem State.writeReg_respBudget (s : State) (v : Word) :
    s.writeReg 0x040 v = s.writeCfg (fun c => { c with respBudget := cfgStored v 1 }) := rfl
theorem State.writeReg_resetRetries (s : State) (v : Word) :
    s.writeReg 0x044 v = s.writeCfg (fun c => { c with resetRetries := cfgStored v 1 }) := rfl
theorem State.writeReg_initRetries (s : State) (v : Word) :
    s.writeReg 0x048 v = s.writeCfg (fun c => { c with initRetries := cfgStored v 1 }) := rfl
theorem State.writeReg_warmupBytes (s : State) (v : Word) :
    s.writeReg 0x04C v = s.writeCfg (fun c => { c with warmupBytes := cfgStored v 10 }) := rfl

/-- The configuration registers ignore a write while BUSY = 1 (10_state.md R42). -/
theorem State.writeReg_cfg_busy {s : State} {off : Nat} (hb : s.busy = true) (ho : off % 4 = 0) (h0 : 0x040 ≤ off)
    (h1 : off < 0x050) (v : Word) : s.writeReg off v = s := by
  have hoff : off = 0x040 ∨ off = 0x044 ∨ off = 0x048 ∨ off = 0x04C := by omega
  rcases hoff with rfl | rfl | rfl | rfl
  · rw [State.writeReg_respBudget, State.writeCfg_busy hb]
  · rw [State.writeReg_resetRetries, State.writeCfg_busy hb]
  · rw [State.writeReg_initRetries, State.writeCfg_busy hb]
  · rw [State.writeReg_warmupBytes, State.writeCfg_busy hb]

/-- The read-only registers, the windows and the unlisted offsets ignore a write (20_memory.md R76). -/
theorem State.writeReg_ignored (s : State) {off : Nat}
    (h : off = 0x004 ∨ off = 0x01C ∨ 0x020 ≤ off ∧ off < 0x040 ∨ 0x050 ≤ off) (v : Word) : s.writeReg off v = s := by
  unfold State.writeReg
  split
  case h_10 => rfl
  all_goals omega

/-- Settles O17: a landing write is `writeReg`, which stores, clears or ignores offset by offset. -/
theorem hostWrites : Obligations.HostWrites := by
  intro s p off v es hr hb hp ho hs h0 he
  rw [step_write hr hb hp ho hs h0 he]
  have hcfg (hidle : s.busy = false) (f : Cfg → Cfg) :
      State.writeCfg { s with events := es } f = { s with events := es, cfg := f s.cfg } :=
    State.writeCfg_not_busy (s := { s with events := es }) hidle f
  refine ⟨?ctrl, ?intStatus, ?arg0, ?arg1, ?arg2, fun hidle => ⟨?respBudget, ?resetRetries, ?initRetries, ?warmupBytes⟩,
    ?busy, ?ignored⟩
  case ctrl => rintro rfl hv; rw [State.writeReg_ctrl _ hv]
  case intStatus => rintro rfl; rw [State.writeReg_intStatus]
  case arg0 | arg1 | arg2 => rintro rfl; rfl
  case respBudget => rintro rfl; exact ⟨_, cfgStored_toNat v 1, by rw [State.writeReg_respBudget, hcfg hidle]⟩
  case resetRetries => rintro rfl; exact ⟨_, cfgStored_toNat v 1, by rw [State.writeReg_resetRetries, hcfg hidle]⟩
  case initRetries => rintro rfl; exact ⟨_, cfgStored_toNat v 1, by rw [State.writeReg_initRetries, hcfg hidle]⟩
  case warmupBytes => rintro rfl; exact ⟨_, cfgStored_toNat v 10, by rw [State.writeReg_warmupBytes, hcfg hidle]⟩
  case busy => exact fun hbusy h1 h2 => by rw [State.writeReg_cfg_busy (s := { s with events := es }) hbusy ho h1 h2]
  case ignored => exact fun h => by rw [State.writeReg_ignored _ h]

end Sys2Proof.Machine
end

section
/-! What one step of the engine does to its place, to the latched arguments and to DMEM (10_state.md R47, R48,
20_memory.md R72), said once for each procedure. -/

namespace Sys2Proof.Machine

/-! ## Moves of the engine -/

/-- A label where the running op is a READBYTES, or reads a block for one (42_block_io.md R206). -/
def Label.OfReadbytes (op : Byte) : Label → Prop
  | .start => op = 0x06
  | .warmup | .reconf => False
  | .ready x | .frame x | .poll x | .rest x => x = .block .readbytes
  | .data u => u = .readbytes
  | .copy => True

/-- What an op holds from its issue to its end: the first two latched arguments (10_state.md R48), beside the reset input. -/
def State.latched (s : State) : Word × Word × Bool :=
  (s.a0, s.a1, s.inReset)

theorem State.latched_eq_iff {s t : State} :
    t.latched = s.latched ↔ t.a0 = s.a0 ∧ t.a1 = s.a1 ∧ t.inReset = s.inReset := by
  simp [State.latched]

/-- A move of the engine that writes no DMEM: the op is over, or it goes on at some label and holds what it held; it stands at
a label of READBYTES only if `P`. -/
structure State.Moves (P : Prop) (s t : State) : Prop where
  dmem : t.dmem = s.dmem
  place : t.eng = .idle ∨ ∃ l, t.eng = s.eng.moveTo l ∧ t.latched = s.latched ∧ ∀ op, l.OfReadbytes op → P

theorem State.Moves.over {P : Prop} {s t : State} (hm : t.dmem = s.dmem) (he : t.eng = .idle) : s.Moves P t :=
  ⟨hm, .inl he⟩

theorem State.Moves.to {P : Prop} {s t : State} (l : Label) (hl : ∀ op, l.OfReadbytes op → P) (hm : t.dmem = s.dmem)
    (he : t.eng = s.eng.moveTo l) (ha : t.latched = s.latched) : s.Moves P t :=
  ⟨hm, .inr ⟨l, he, ha, hl⟩⟩

/-- A procedure that first writes registers of its own. -/
theorem State.Moves.after {P : Prop} {s t u : State} (h : t.Moves P u) (hm : t.dmem = s.dmem) (he : t.eng = s.eng)
    (ha : t.latched = s.latched) : s.Moves P u :=
  ⟨h.dmem.trans hm, h.place.imp_right fun ⟨l, hl, hh, hp⟩ => ⟨l, he ▸ hl, hh.trans ha, hp⟩⟩

theorem State.Moves.blockReset {P : Prop} (s : State) : s.Moves P s.blockReset := .over rfl rfl

theorem State.Moves.complete {P : Prop} (s : State) (e : ErrCode) : s.Moves P (s.complete e) := .over rfl rfl

/-- The op ends or keeps what is latched. -/
theorem State.Moves.latched {P : Prop} {s t : State} (h : s.Moves P t) : t.eng = .idle ∨ t.latched = s.latched :=
  h.place.imp_right fun ⟨_, _, hlatched, _⟩ => hlatched

/-! ## Requests and frames -/

section Requests
variable {P : Prop} (s : State)

theorem State.Moves.ask {l : Label} (sc : Scratch) (t : Txn) (hl : ∀ op, l.OfReadbytes op → P) : s.Moves P (s.ask sc t l) :=
  .to l hl rfl rfl rfl

theorem State.Moves.build {x : Exch} (idx : BitVec 6) (arg : Word) (hx : x = .block .readbytes → P) :
    s.Moves P (s.build x idx arg) :=
  .to (.ready x) (fun _ => hx) rfl rfl rfl

theorem startPoll_moves {x : Exch} (hx : x = .block .readbytes → P) : s.Moves P (startPoll x s) := .ask s _ _ fun _ => hx

theorem sendFirst_moves {x : Exch} (hx : x = .block .readbytes → P) : s.Moves P (sendFirst x s) := .ask s _ _ fun _ => hx

theorem readBlock_moves {u : BlockUse} (lba : Word) (hu : u = .readbytes → P) : s.Moves P (readBlock u lba s) :=
  .to (.ready (.block u)) (fun _ h => hu (Exch.block.inj h)) rfl rfl rfl

end Requests

/-! ## SENDCMD, READRESP, bring-up -/

section Bringup
variable {P : Prop} (s : State)

theorem startSendcmd_moves : s.Moves P (startSendcmd s) := by
  unfold startSendcmd
  split
  · exact .build s _ _ nofun
  · exact .complete s _

theorem startReadresp_moves : s.Moves P (startReadresp s) := by
  unfold startReadresp
  split
  · exact startPoll_moves s nofun
  · exact .complete s _

theorem bringupFail_moves (e : ErrCode) : s.Moves P (bringupFail e s) := .over rfl rfl

theorem resetAttempt_moves (n : Byte) : s.Moves P (resetAttempt n s) := .to (.ready .reset) nofun rfl rfl rfl

theorem initAttempt_moves (n : Byte) : s.Moves P (initAttempt n s) := .to (.ready .marker) nofun rfl rfl rfl

theorem enterReady_moves (hc : Bool) : s.Moves P (enterReady hc s) := .over rfl rfl

theorem nextReset_moves : s.Moves P (nextReset s) := by
  unfold nextReset
  split
  · exact resetAttempt_moves s _
  · exact bringupFail_moves s _

theorem nextInit_moves : s.Moves P (nextInit s) := by
  unfold nextInit
  split
  · exact initAttempt_moves s _
  · exact bringupFail_moves s _

theorem gotReset_moves : s.Moves P (gotReset s) := by
  unfold gotReset
  split
  · exact .to (.ready .iface) nofun rfl rfl rfl
  · exact nextReset_moves s

theorem gotIface_moves : s.Moves P (gotIface s) := by
  unfold gotIface
  dsimp only
  split
  · exact (initAttempt_moves _ _).after rfl rfl rfl
  · exact .to (.ready .ocr) nofun rfl rfl rfl

theorem gotMarker_moves : s.Moves P (gotMarker s) := by
  unfold gotMarker
  split
  · exact .build s _ _ nofun
  · exact nextInit_moves s

theorem gotActivate_moves : s.Moves P (gotActivate s) := by
  unfold gotActivate
  split
  · exact nextInit_moves s
  · split
    · exact .to (.ready .ocr) nofun rfl rfl rfl
    · exact .over rfl rfl

theorem gotOcr_moves : s.Moves P (gotOcr s) := by
  unfold gotOcr
  split
  · exact enterReady_moves s _
  · split
    · exact (initAttempt_moves _ _).after rfl rfl rfl
    · exact bringupFail_moves s _

theorem finishSpeedup_moves (ok : Bool) : s.Moves P (finishSpeedup ok s) := by
  unfold finishSpeedup
  split <;> exact .over rfl rfl

end Bringup

/-! ## Block reads, volumes -/

section Blocks
variable {P : Prop} (s : State)

theorem State.cancelScan_keeps : s.cancelScan.dmem = s.dmem ∧ s.cancelScan.eng = s.eng ∧ s.cancelScan.latched = s.latched := by
  rw [s.cancelScan_eq]
  exact ⟨rfl, rfl, rfl⟩

/-- A procedure that first ends the scan (44_directory.md R277). -/
theorem State.Moves.after_cancelScan {s t : State} (h : s.cancelScan.Moves P t) : s.Moves P t :=
  have ⟨hm, he, ha⟩ := s.cancelScan_keeps
  h.after hm he ha

theorem startReadblk_moves : s.Moves P (startReadblk s) := .after_cancelScan (readBlock_moves _ _ nofun)

theorem blockFail_moves (u : BlockUse) (e : ErrCode) : s.Moves P (blockFail u e s) := by
  cases u <;> exact .over rfl rfl

theorem gotStatus_moves {u : BlockUse} (hu : u = .readbytes → P) : s.Moves P (gotStatus u s) := by
  unfold gotStatus
  split
  · exact .ask s _ _ fun _ => hu
  · exact (blockFail_moves _ _ _).after rfl rfl rfl

theorem takeDatum_keeps_place (d : Byte) :
    (takeDatum d s).dmem = s.dmem ∧ (takeDatum d s).eng = s.eng ∧ (takeDatum d s).latched = s.latched := by
  unfold takeDatum
  split
  · exact ⟨rfl, rfl, rfl⟩
  · split <;> exact ⟨rfl, rfl, rfl⟩

theorem readChunk_moves (k : Word) (hp : P) : s.Moves P (readChunk k s) :=
  (readBlock_moves _ _ fun _ => hp).after rfl rfl rfl

theorem startReadbytes_moves (hp : P) : s.Moves P (startReadbytes s) := by
  unfold startReadbytes
  split
  · refine .after_cancelScan ?_
    dsimp only
    split
    · exact .over rfl rfl
    · exact (readChunk_moves _ _ hp).after rfl rfl rfl
  · exact .complete s _

theorem startCopy_moves (hp : P) : s.Moves P (startCopy s) := .to .copy (fun _ _ => hp) rfl rfl rfl

theorem afterCopy_moves (hp : P) : s.Moves P (afterCopy s) := by
  unfold afterCopy
  split
  · exact readChunk_moves s _ hp
  · exact .over rfl rfl

theorem startPartition_moves : s.Moves P (startPartition s) := by
  unfold startPartition
  split
  · exact .after_cancelScan (readBlock_moves _ _ nofun)
  · exact .complete s _

theorem startMount_moves : s.Moves P (startMount s) := by
  unfold startMount
  split
  · exact .after_cancelScan ((readBlock_moves _ _ nofun).after rfl rfl rfl)
  · exact .complete s _

theorem finishMount_moves : s.Moves P (finishMount s) := by
  unfold finishMount
  dsimp only
  split <;> exact .over rfl rfl

theorem startClus2lba_moves : s.Moves P (startClus2lba s) := by
  unfold startClus2lba
  split <;> exact .over rfl rfl

end Blocks

/-! ## The directory -/

section Directory
variable {P : Prop}

theorem startDecslot_moves (s : State) : s.Moves P (startDecslot s) := by
  unfold startDecslot
  split <;> exact .over rfl rfl

theorem dirBlockDone_moves (s : State) : s.Moves P (dirBlockDone s) := by
  unfold dirBlockDone
  dsimp only
  split
  · exact .over rfl rfl
  · exact (readBlock_moves _ _ nofun).after rfl rfl rfl

theorem dirScan_moves (n : Nat) (s : State) : s.Moves P (dirScan n s) := by
  induction n generalizing s with
  | zero => exact dirBlockDone_moves s
  | succ n ih =>
    unfold dirScan
    dsimp only
    split
    · exact .over rfl rfl
    · exact (ih _).after rfl rfl rfl
    · split
      · exact .over rfl rfl
      · exact (ih _).after rfl rfl rfl
    · exact .over rfl rfl

theorem startDirnext_moves (s : State) : s.Moves P (startDirnext s) := by
  unfold startDirnext
  split
  · exact .over rfl rfl
  · split
    · exact dirScan_moves _ s
    · exact readBlock_moves s _ nofun

theorem dirBlockRead_moves (s : State) : s.Moves P (dirBlockRead s) := (dirScan_moves _ _).after rfl rfl rfl

end Directory

/-! ## One engine step -/

section Steps
variable (s : State)

theorem startOp_moves (op : Byte) : s.Moves (op = 0x06) (startOp op s) := by
  unfold startOp
  split
  · unfold opBody
    split
    case h_1 | h_2 => exact .ask s _ _ nofun
    case h_3 => exact startSendcmd_moves s
    case h_4 => exact startReadresp_moves s
    case h_5 => exact startReadblk_moves s
    case h_6 h => exact startReadbytes_moves s (BitVec.eq_of_toNat_eq h)
    case h_7 => exact startPartition_moves s
    case h_8 => exact startMount_moves s
    case h_9 => exact startClus2lba_moves s
    case h_10 => exact startDecslot_moves s
    case h_11 => exact .over rfl rfl
    case h_12 => exact startDirnext_moves s
    case h_13 => exact .complete s _
  · exact .complete s _

theorem frameSent_moves (x : Exch) : s.Moves (x = .block .readbytes) (frameSent x s) := by
  cases x
  case send => exact .complete s _
  all_goals exact startPoll_moves s id

theorem exchErr_moves {P : Prop} (x : Exch) : s.Moves P (exchErr x s) := by
  cases x
  case send | resp => exact .complete s _
  case block u => exact blockFail_moves s u _
  all_goals exact bringupFail_moves s _

theorem exchNoResp_moves {P : Prop} (x : Exch) : s.Moves P (exchNoResp x s) := by
  cases x
  case send | resp => exact .complete s _
  case reset => exact nextReset_moves s
  case marker | activate => exact nextInit_moves s
  case iface | ocr => exact bringupFail_moves s _
  case block u => exact blockFail_moves s u _

theorem exchGot_moves (x : Exch) : s.Moves (x = .block .readbytes) (exchGot x s) := by
  cases x
  case send | resp => exact .over rfl rfl
  case reset => exact gotReset_moves s
  case iface => exact gotIface_moves s
  case marker => exact gotMarker_moves s
  case activate => exact gotActivate_moves s
  case ocr => exact gotOcr_moves s
  case block u => exact gotStatus_moves s (congrArg Exch.block)

theorem afterBlock_moves (u : BlockUse) : s.Moves (u = .readbytes) (afterBlock u s) := by
  cases u
  case readbytes => exact startCopy_moves s rfl
  case mountMbr => exact (readBlock_moves _ _ nofun).after rfl rfl rfl
  case mountBoot => exact finishMount_moves s
  case dirnext => exact dirBlockRead_moves s
  all_goals exact .over rfl rfl

theorem dataDone_moves (u : BlockUse) : s.Moves (u = .readbytes) (dataDone u s) := by
  unfold dataDone
  split
  · exact (afterBlock_moves _ u).after rfl rfl rfl
  · exact (blockFail_moves _ u _).after rfl rfl rfl

theorem frameStep_moves (x : Exch) : s.Moves (x = .block .readbytes) (frameStep x s) := by
  unfold frameStep
  split
  · exact .ask s _ _ fun _ => id
  · exact frameSent_moves s x

theorem pollStep_moves (x : Exch) (b : Byte) : s.Moves (x = .block .readbytes) (pollStep x b s) := by
  unfold pollStep
  split
  · split
    · exact .ask s _ _ fun _ => id
    · exact exchNoResp_moves s x
  · dsimp only
    split
    · exact (exchGot_moves _ x).after rfl rfl rfl
    · exact .ask s _ _ fun _ => id

theorem restStep_moves (x : Exch) (c : Byte) : s.Moves (x = .block .readbytes) (restStep x c s) := by
  unfold restStep
  dsimp only
  split
  · exact .ask s _ _ fun _ => id
  · exact (exchGot_moves _ x).after rfl rfl rfl

theorem dataStep_moves (u : BlockUse) (d : Byte) : s.Moves (u = .readbytes) (dataStep u d s) := by
  obtain ⟨hm, he, ha⟩ := takeDatum_keeps_place s d
  unfold dataStep
  dsimp only
  split
  · exact (State.Moves.ask _ _ _ fun _ => id).after hm he ha
  · exact (dataDone_moves _ u).after hm he ha

end Steps

/-- The transport's answer writes no DMEM, and takes an op to a label of READBYTES only from one. -/
theorem engAnswer_moves {s : State} {op : Byte} {l : Label} (he : s.eng = .running op l) (hl : l.isInternal = false)
    (r : Answer) : s.Moves (l.OfReadbytes op) (engAnswer r s) := by
  unfold engAnswer
  split
  · exact .blockReset s
  · rw [he]
    cases l
    case warmup => exact .to (.ready .reset) nofun rfl rfl rfl
    case reconf => cases r <;> exact finishSpeedup_moves s _
    case frame x => cases r; exacts [frameStep_moves s x, exchErr_moves s x]
    case poll x => cases r; exacts [pollStep_moves s x _, exchErr_moves s x]
    case rest x => cases r; exacts [restStep_moves s x _, exchErr_moves s x]
    case data u => cases r; exacts [dataStep_moves s u _, blockFail_moves s u _]
    case start | ready | copy => cases hl

/-- An internal step does so too, apart from READBYTES's copy loop. -/
theorem engInternal_moves {s : State} {op : Byte} {l : Label} (he : s.eng = .running op l) (hl : l.isInternal = true)
    (hc : l ≠ .copy) : s.Moves (l.OfReadbytes op) (engInternal s) := by
  unfold engInternal
  split
  · exact .blockReset s
  · rw [he]
    cases l
    case start => exact startOp_moves s op
    case ready x => exact sendFirst_moves s id
    case copy => exact absurd rfl hc
    case warmup | reconf | frame | poll | rest | data => cases hl

end Sys2Proof.Machine
end

section
/-! Which instructions write DMEM, and where (20_memory.md R72, 42_block_io.md R206). -/

namespace Sys2Proof.Machine

/-! ## Runs of the engine -/

theorem State.internal_iff {s : State} : s.internal = true ↔ ∃ op l, s.eng = .running op l ∧ l.isInternal = true := by
  cases he : s.eng <;> simp [State.internal, he]

theorem State.waiting_iff {s : State} : s.waiting = true ↔ ∃ op l, s.eng = .running op l ∧ l.isInternal = false := by
  cases he : s.eng <;> simp [State.waiting, he]

section Keeps
variable {C : State → Prop}

/-- What every internal step keeps, a run of them keeps. -/
theorem internalRun_keeps (hint : ∀ s, C s → s.internal = true → C (engInternal s)) (n : Nat) {s : State} (h : C s) :
    C (internalRun n s) := by
  induction n generalizing s with
  | zero => exact h
  | succ n ih =>
    unfold internalRun
    split
    · exact ih (hint s h ‹_›)
    · exact h

/-- What every step of the engine keeps, whatever inputs are left, a run over any inputs keeps. -/
theorem drive_keeps (hint : ∀ s, C s → s.internal = true → C (engInternal s))
    (hans : ∀ s r, C s → s.waiting = true → C (engAnswer r s)) (hev : ∀ s es, C s → C { s with events := es })
    (es : List Event) {s : State} (h : C s) : C (drive es s) := by
  have hpace (p : Option Nat) {s : State} (h : C s) : C (paceRun p s) := by
    cases p <;> exact internalRun_keeps hint _ h
  induction es generalizing s with
  | nil => exact hev _ _ (hpace none h)
  | cons e es ih =>
    cases e with
    | answer r =>
      unfold drive
      split
      · exact ih (hans _ r (hpace none h) ‹_›)
      · exact hev _ _ (hpace none h)
    | host p a => exact hev _ _ (hpace p h)
    | hard p l => exact hev _ _ (hpace p h)

end Keeps

/-! ## Instructions that write no DMEM -/

/-- The engine stands at no label of READBYTES. -/
def State.OffReadbytes (s : State) : Prop :=
  ∀ op l, s.eng = .running op l → ¬ l.OfReadbytes op

theorem State.Moves.offReadbytes {s t : State} {op : Byte} {l : Label} (h : s.OffReadbytes) (he : s.eng = .running op l)
    (hm : s.Moves (l.OfReadbytes op) t) : t.OffReadbytes := by
  intro op' l' he' ho
  rcases hm.place with hidle | ⟨l₁, hmove, -, hP⟩
  · rw [hidle] at he'
    cases he'
  · rw [he, Eng.moveTo_running, he'] at hmove
    cases hmove
    exact h op l he (hP _ ho)

theorem engAnswer_dmem {s : State} (hw : s.waiting = true) (r : Answer) : (engAnswer r s).dmem = s.dmem :=
  have ⟨_, _, he, hl⟩ := State.waiting_iff.mp hw
  (engAnswer_moves he hl r).dmem

/-- A run that is at no label of READBYTES comes to none, and writes no DMEM. -/
theorem drive_dmem {s : State} (h : s.OffReadbytes) (es : List Event) : (drive es s).dmem = s.dmem := by
  refine (drive_keeps (C := fun t => t.OffReadbytes ∧ t.dmem = s.dmem) ?_ ?_ (fun _ _ h => h) es ⟨h, rfl⟩).2
  · rintro t ⟨hoff, hm⟩ hi
    obtain ⟨op, l, he, hl⟩ := State.internal_iff.mp hi
    have hmoves := engInternal_moves he hl (by rintro rfl; exact hoff op _ he trivial)
    exact ⟨hmoves.offReadbytes hoff he, hmoves.dmem.trans hm⟩
  · rintro t r ⟨hoff, hm⟩ hw
    obtain ⟨op, l, he, hl⟩ := State.waiting_iff.mp hw
    have hmoves := engAnswer_moves he hl r
    exact ⟨hmoves.offReadbytes hoff he, hmoves.dmem.trans hm⟩

/-- An exchange takes answers alone, so it writes no DMEM. -/
theorem exchange_dmem (es : List Event) (s : State) : (exchange es s).dmem = s.dmem := by
  induction es generalizing s with
  | nil => rfl
  | cons e es ih =>
    cases e with
    | answer r =>
      unfold exchange
      split
      · rw [ih, engAnswer_dmem ‹_›]
      · rfl
    | host | hard => rfl

/-- What a host write of OP can do, said once: nothing, set OPOVR, or issue the op and run it (10_state.md R30, R50). -/
theorem launch_cases {op : Byte} {s t : State} (h : launch op s = .next t) :
    t = s ∨ t = { s with status := { s.status with opovr := true } } ∨ s.busy = false ∧ t = drive s.events (s.issue op) := by
  unfold launch at h
  split at h
  · cases h; exact .inl rfl
  · split at h
    · cases h; exact .inr (.inl rfl)
    · cases h; exact .inr (.inr ⟨by simpa using ‹¬ s.busy = true›, rfl⟩)

theorem launch_dmem {op : Byte} {s t : State} (hop : op ≠ 0x06) (h : launch op s = .next t) : t.dmem = s.dmem := by
  rcases launch_cases h with rfl | rfl | ⟨-, rfl⟩
  · rfl
  · rfl
  · exact drive_dmem (s := s.issue op) (by rintro _ _ he; cases he; exact hop) s.events

theorem sendWire_dmem {at_ : Exch → Bool} {idx : BitVec 6} {arg : Word} {s t : State}
    (h : sendWire at_ idx arg s = .next t) : t.dmem = s.dmem := by
  unfold sendWire at h
  split at h
  · split at h
    · split at h <;> cases h
      · rfl
      · exact exchange_dmem _ _
    · cases h
  all_goals cases h

/-- No instruction but READBYTES changes DMEM (20_memory.md R72). -/
theorem exec_dmem {i : Instr} {s t : State} (hi : i ≠ .readbytes) (h : exec i s = .next t) : t.dmem = s.dmem := by
  cases i
  case readbytes => exact absurd rfl hi
  case cmd0 | cmd8 | cmd17 | cmd55 | acmd41 | cmd58 => exact sendWire_dmem h
  all_goals exact launch_dmem (by decide) h

/-- Settles O47: a run that starts at no label of READBYTES comes to none, and a wire command takes answers alone. -/
theorem memoryFrame : Obligations.MemoryFrame :=
  fun _ _ _ hi h a => congrArg (Memory.read · a) (exec_dmem hi h)

/-! ## The range of a READBYTES -/

/-- Every byte the copy loop reaches in block `k` lies below the end of the range (42_block_io.md R207). -/
theorem copied_lt_end {s : State} (hb : 0 < s.bs) (ha : s.a1 ≠ 0) {k j : Nat} (hk : k < readCount s) (hj : j < readHi s k) :
    k * s.bs + j < readOff s + s.a1.toNat := by
  have ha1 : 0 < s.a1.toNat := by
    have : s.a1.toNat ≠ 0 := fun hc => ha (BitVec.eq_of_toNat_eq (by simpa using hc))
    omega
  have hlast : (readCount s - 1) * s.bs ≤ readOff s + s.a1.toNat - 1 := by
    have h : readCount s * s.bs ≤ readOff s + s.a1.toNat + s.bs - 1 := Nat.div_mul_le_self _ _
    rw [Nat.sub_mul]
    omega
  unfold readHi at hj
  split at hj
  next hlastk =>
    have hdiv : (readOff s + s.a1.toNat - 1) / s.bs = k := by
      have : readCount s = (readOff s + s.a1.toNat - 1) / s.bs + 1 := by
        rw [readCount, ← Nat.add_div_right _ hb]
        congr 1
        omega
      omega
    have := Nat.div_add_mod' (readOff s + s.a1.toNat - 1) s.bs
    rw [hdiv] at this
    omega
  next hmid =>
    have : (k + 1) * s.bs ≤ (readCount s - 1) * s.bs := Nat.mul_le_mul_right _ (by omega)
    rw [Nat.add_mul] at this
    omega

/-- At the copy loop the next byte goes inside the range of the latched arguments (42_block_io.md R206). -/
theorem copy_dst_in_range {s : State} {op : Byte} (h : s.Inv) (he : s.eng = .running op .copy) :
    op = 0x06 ∧ s.a0.toNat ≤ s.scratch.dst.toNat ∧ s.scratch.dst.toNat < s.a0.toNat + s.a1.toNat := by
  have hplace : Label.Place .copy op s := by simpa only [State.EngineInv, he] using h.engine
  obtain ⟨⟨hready, hop, -, ha1, hargs, hk⟩, -, hlo, hhi, hwritten, hdst⟩ := hplace
  have hend := copied_lt_end (h.core.bs_pos hready) ha1 hk hhi
  have hfit : s.a0.toNat + s.a1.toNat ≤ 2 ^ 32 := by
    simp only [readbytesArgsOk, Bool.and_eq_true, decide_eq_true_eq] at hargs
    exact hargs.1
  have hlt : s.scratch.written < s.a1.toNat := by
    unfold readLo at hlo hwritten
    split at hlo
    next hk0 =>
      rw [hk0, if_pos rfl] at hwritten
      rw [hk0] at hend
      omega
    next hk0 =>
      rw [if_neg hk0] at hwritten
      have := readOff_lt (h.core.bs_pos hready)
      have : s.bs ≤ s.scratch.k.toNat * s.bs := Nat.le_mul_of_pos_left _ (Nat.pos_of_ne_zero hk0)
      omega
  have hnum : s.scratch.dst.toNat = s.a0.toNat + s.scratch.written := by
    rw [hdst, BitVec.toNat_add, BitVec.toNat_ofNat, Nat.mod_eq_of_lt (a := s.scratch.written) (by omega),
      Nat.mod_eq_of_lt (by omega)]
  exact ⟨hop, by omega, by omega⟩

/-- Address `a` lies in the range of the READBYTES that runs. -/
def State.Covers (s : State) (a : Nat) : Prop :=
  ∃ l, s.eng = .running 0x06 l ∧ s.a0.toNat ≤ a ∧ a < s.a0.toNat + s.a1.toNat

/-- `t` comes later in the run of the op that `s` is in, or after its end; until then DMEM was written only in its range. -/
structure State.RunsTo (s t : State) : Prop where
  place : t.eng = .idle ∨ ∃ op l l', s.eng = .running op l ∧ t.eng = .running op l' ∧ t.latched = s.latched
  dmem : ∀ a, t.dmem.read a ≠ s.dmem.read a → s.Covers a

theorem State.RunsTo.refl (s : State) : s.RunsTo s := by
  refine ⟨?_, fun a h => absurd rfl h⟩
  cases he : s.eng with
  | idle => exact .inl rfl
  | running op l => exact .inr ⟨op, l, l, rfl, rfl, rfl⟩

/-- The range is the op's from its issue to its end. -/
theorem State.RunsTo.covers {s t : State} (h : s.RunsTo t) {a : Nat} (ht : t.Covers a) : s.Covers a := by
  obtain ⟨l, he, hlo, hhi⟩ := ht
  rcases h.place with hidle | ⟨op, l₀, l', hs, ht, hlatched⟩
  · rw [he] at hidle
    cases hidle
  · rw [he] at ht
    cases ht
    obtain ⟨h0, h1, -⟩ := State.latched_eq_iff.mp hlatched
    exact ⟨l₀, hs, h0 ▸ hlo, h0 ▸ h1 ▸ hhi⟩

theorem State.RunsTo.trans {s t u : State} (h : s.RunsTo t) (h' : t.RunsTo u) : s.RunsTo u := by
  refine ⟨?_, fun a hne => ?_⟩
  · rcases h'.place with hidle | ⟨op, l, l', ht, hu, hlatched⟩
    · exact .inl hidle
    · rcases h.place with hidle | ⟨op', l₀, l₁, hs, ht', hlatched'⟩
      · rw [hidle] at ht
        cases ht
      · rw [ht'] at ht
        cases ht
        exact .inr ⟨_, _, _, hs, hu, hlatched.trans hlatched'⟩
  · by_cases hut : u.dmem.read a = t.dmem.read a
    · exact h.dmem a (hut ▸ hne)
    · exact h.covers (h'.dmem a hut)

theorem State.Moves.runsTo {P : Prop} {s t : State} (h : s.Moves P t) : s.RunsTo t := by
  refine ⟨?_, fun a hne => absurd (congrArg (Memory.read · a) h.dmem) hne⟩
  rcases h.place with hidle | ⟨l, hmove, hlatched, -⟩
  · exact .inl hidle
  · cases he : s.eng with
    | idle => exact .inl (by rw [hmove, he, Eng.moveTo_idle])
    | running op l₀ => exact .inr ⟨op, l₀, l, rfl, by rw [hmove, he, Eng.moveTo_running], hlatched⟩

/-- One byte of the copy loop. -/
theorem copyByte_runsTo {s : State} {op : Byte} (h : s.Inv) (he : s.eng = .running op .copy) : s.RunsTo (copyByte s) := by
  obtain ⟨hop, hlo, hhi⟩ := copy_dst_in_range h he
  subst hop
  refine ⟨.inr ⟨0x06, .copy, .copy, he, he, rfl⟩, fun a hne => ?_⟩
  by_cases ha : a = s.scratch.dst.toNat
  · exact ⟨.copy, he, ha ▸ hlo, ha ▸ hhi⟩
  · exact absurd (Memory.read_write_other _ _ ha) hne

theorem copyStep_runsTo {s : State} {op : Byte} (h : s.Inv) (he : s.eng = .running op .copy) : s.RunsTo (copyStep s) := by
  unfold copyStep
  split
  · exact copyByte_runsTo h he
  · exact (copyByte_runsTo h he).trans (afterCopy_moves _ trivial).runsTo

theorem engInternal_runsTo {s : State} (h : s.Inv) (hi : s.internal = true) : s.RunsTo (engInternal s) := by
  obtain ⟨op, l, he, hl⟩ := State.internal_iff.mp hi
  by_cases hc : l = .copy
  · subst hc
    unfold engInternal
    split
    · exact (State.Moves.blockReset (P := True) s).runsTo
    · rw [he]
      exact copyStep_runsTo h he
  · exact (engInternal_moves he hl hc).runsTo

theorem engAnswer_runsTo {s : State} (hw : s.waiting = true) (r : Answer) : s.RunsTo (engAnswer r s) :=
  have ⟨_, _, he, hl⟩ := State.waiting_iff.mp hw
  (engAnswer_moves he hl r).runsTo

/-- The run of an op over any inputs writes DMEM only in the op's range. -/
theorem drive_runsTo {s : State} (h : s.Inv) (es : List Event) : s.RunsTo (drive es s) :=
  (drive_keeps (C := fun t => t.Inv ∧ s.RunsTo t)
    (fun _ ⟨ht, hst⟩ hi => ⟨engInternal_inv ht, hst.trans (engInternal_runsTo ht hi)⟩)
    (fun _ r ⟨ht, hst⟩ hw => ⟨engAnswer_inv ht r, hst.trans (engAnswer_runsTo hw r)⟩)
    (fun _ es ⟨ht, hst⟩ => ⟨ht.withEvents es, hst.place, hst.dmem⟩) es ⟨h, .refl s⟩).2

/-! ## Steps -/

/-- A command frame decodes to a wire command (30_encoding.md R112). -/
theorem commandOf_decodeFrame {f : BitVec 48} {i : Instr} (h : decodeFrame f = .ok i) : (commandOf i).isSome = true := by
  unfold decodeFrame decodeCommand at h
  repeat' split at h
  all_goals cases h
  all_goals rfl

/-- The engine fetches a wire command, never a host op. -/
theorem wireFetch_command {s : State} {i : Instr} (h : wireFetch s = some i) : (commandOf i).isSome = true := by
  unfold wireFetch at h
  split at h
  · split at h
    · cases h
    · split at h
      · cases h
        exact commandOf_decodeFrame ‹decode (frameBytes s.scratch.frame) = _›
      · cases h
  all_goals cases h

/-- Op issue keeps the invariant (10_state.md R50). -/
theorem issue_inv {s : State} (h : s.Inv) (hb : s.busy = false) (hr : s.inReset = false) (op : Byte) : (s.issue op).Inv := by
  have hs : s.softReset = false := (Bool.or_eq_false_iff.mp hb).2
  refine State.Live.inv (op := op) (l := .start) ⟨⟨h.legal, ?_, h.volume, h.cfg, h.buffers, ?_, h.dmem⟩, rfl, rfl, rfl, hs, hr⟩
    rfl trivial
  · exact ⟨h.session.sizes, h.session.ready, h.session.stages, h.session.failed, h.session.hc, h.session.spedUp,
      h.session.mounted, h.session.bufvalid⟩
  · exact ⟨h.scan.active, h.scan.inactive, h.scan.loaded, h.scan.slot, h.scan.frags, h.scan.units⟩

/-- A host write of OP writes DMEM only when it issues a READBYTES, in the range that ARG0 and ARG1 give. -/
theorem launch_range {op : Byte} {s t : State} (h : s.Inv) (hr : s.inReset = false) (hl : launch op s = .next t) {a : Nat}
    (hne : t.dmem.read a ≠ s.dmem.read a) :
    op = 0x06 ∧ s.busy = false ∧ s.arg0.toNat ≤ a ∧ a < s.arg0.toNat + s.arg1.toNat := by
  rcases launch_cases hl with rfl | rfl | ⟨hb, rfl⟩
  · exact absurd rfl hne
  · exact absurd rfl hne
  · obtain ⟨l, he, hlo, hhi⟩ := (drive_runsTo (issue_inv h hb hr op) s.events).dmem a hne
    cases he
    exact ⟨rfl, hb, hlo, hhi⟩

/-- A host write other than OP's writes no DMEM. -/
theorem State.writeReg_dmem (s : State) (off : Nat) (v : Word) : (s.writeReg off v).dmem = s.dmem := by
  have hcfg (f : Cfg → Cfg) : (s.writeCfg f).dmem = s.dmem := by
    unfold State.writeCfg
    split <;> rfl
  unfold State.writeReg
  split
  case h_1 =>
    unfold State.writeCtrl
    repeat' split
    all_goals rfl
  case h_2 => split <;> rfl
  case h_6 | h_7 | h_8 | h_9 => exact hcfg _
  all_goals rfl

/-- A host access writes DMEM only when it issues a READBYTES. -/
theorem hostAccess_range {acc : HostAccess} {s t : State} (h : s.Inv) (hr : s.inReset = false)
    (ht : hostAccess acc s = .next t) {a : Nat} (hne : t.dmem.read a ≠ s.dmem.read a) :
    ∃ v, acc = { bits := 32, addr := s.params.base, dir := .wr v } ∧ v.toNat % 256 = 0x06
      ∧ s.busy = false ∧ s.arg0.toNat ≤ a ∧ a < s.arg0.toNat + s.arg1.toNat := by
  obtain ⟨bits, addr, dir⟩ := acc
  unfold hostAccess at ht
  split at ht
  · cases ht
  next hshape =>
    have hbits : bits = 32 := by
      have : bits = 32 ∧ addr % 4 = 0 := by simpa [HostAccess.shapeOk] using hshape
      exact this.1
    split at ht
    · cases ht
    · cases dir with
      | rd =>
        cases ht
        dsimp only at hne
        rw [readReg_state] at hne
        exact absurd rfl hne
      | wr v =>
        dsimp only at ht
        split at ht
        next haddr =>
          rw [writeOp_eq_launch] at ht
          obtain ⟨hop, hrange⟩ := launch_range h hr ht hne
          refine ⟨v, by rw [hbits, haddr], ?_, hrange⟩
          have : (v.extractLsb' 0 8).toNat = v.toNat % 256 := by simp [BitVec.extractLsb'_toNat]
          rw [← this, hop]
          rfl
        · cases ht
          exact absurd (congrArg (Memory.read · a) (s.writeReg_dmem _ v)) hne

theorem heldStep_dmem {s t : State} (h : heldStep s = .next t) : t.dmem = s.dmem := by
  unfold heldStep at h
  split at h <;> cases h <;> rfl

/-- The run of an op that goes on from where it stands writes DMEM only in its range. -/
theorem advance_range {s t : State} (h : s.Inv) (ht : advance s = .next t) {a : Nat}
    (hne : t.dmem.read a ≠ s.dmem.read a) : s.Covers a := by
  unfold advance at ht
  split at ht
  next i hi =>
    have hwire : i ≠ .readbytes := by rintro rfl; cases wireFetch_command hi
    exact absurd (congrArg (Memory.read · a) (exec_dmem hwire ht)) hne
  next =>
    cases ht
    exact (drive_runsTo h _).dmem a hne

/-- Settles O46: DMEM is written by a run of the engine alone, the one in progress or the one a host write of OP starts, and the
invariant at the copy loop says that its next byte lies in the op's range. -/
theorem readbytesFrame : Obligations.ReadbytesFrame := by
  refine ⟨fun s t h hstep a hne => ?_, fun s t h hcan hexec a hout => ?_⟩
  · unfold step schedule at hstep
    split at hstep
    next => exact absurd (congrArg (Memory.read · a) (heldStep_dmem hstep)) hne
    next hr =>
      split at hstep
      next => exact .inl (advance_range h hstep hne)
      next =>
        unfold inputStep at hstep
        split at hstep
        case h_1 => split at hstep <;> cases hstep; exact absurd rfl hne
        case h_2 =>
          split at hstep <;> cases hstep
          · exact .inl ((drive_runsTo h _).dmem a hne)
          · exact absurd rfl hne
        case h_3 p acc es he =>
          obtain ⟨v, rfl, hv, hb, hrange⟩ := hostAccess_range (h.withEvents es) (by simpa using hr) hstep hne
          exact .inr ⟨p, v, es, he, hv, hb, hrange⟩
        all_goals cases hstep; exact absurd rfl hne
  · by_contra hne
    obtain ⟨-, -, hlo, hhi⟩ := launch_range h hcan.2.2 hexec hne
    omega

end Sys2Proof.Machine
end

section
/-! The engine does not see the inputs still to come, the record of reads and the count of draws (20_memory.md R76, R80): every
procedure gives the same with other ones, said once for each. -/

namespace Sys2Proof.Machine

/-- A state with other inputs still to come, another record of reads and another count of draws (log 3, 8, 23). -/
def State.beside (s : State) (es : List Event) (rs : List HostRead) (n : Nat) : State :=
  { s with events := es, reads := rs, draws := n }

/-- The branches of a procedure, each by itself; the condition reads none of the three fields. -/
theorem ite_beside {es : List Event} {rs : List HostRead} {n : Nat} {c : Prop} [Decidable c] {t u t' u' : State}
    (ht : t' = t.beside es rs n) (hu : u' = u.beside es rs n) :
    (if c then t' else u') = (if c then t else u).beside es rs n := by
  split <;> assumption

section Beside
variable (s : State) (es : List Event) (rs : List HostRead) (n : Nat)

/-! ## SENDCMD, READRESP, bring-up -/

theorem startSendcmd_beside : startSendcmd (s.beside es rs n) = (startSendcmd s).beside es rs n := ite_beside rfl rfl

theorem startReadresp_beside : startReadresp (s.beside es rs n) = (startReadresp s).beside es rs n := ite_beside rfl rfl

theorem nextReset_beside : nextReset (s.beside es rs n) = (nextReset s).beside es rs n := ite_beside rfl rfl

theorem nextInit_beside : nextInit (s.beside es rs n) = (nextInit s).beside es rs n := ite_beside rfl rfl

theorem gotReset_beside : gotReset (s.beside es rs n) = (gotReset s).beside es rs n :=
  ite_beside rfl (nextReset_beside s es rs n)

theorem gotIface_beside : gotIface (s.beside es rs n) = (gotIface s).beside es rs n := ite_beside rfl rfl

theorem gotMarker_beside : gotMarker (s.beside es rs n) = (gotMarker s).beside es rs n :=
  ite_beside rfl (nextInit_beside s es rs n)

theorem gotActivate_beside : gotActivate (s.beside es rs n) = (gotActivate s).beside es rs n :=
  ite_beside (nextInit_beside s es rs n) (ite_beside rfl rfl)

theorem gotOcr_beside : gotOcr (s.beside es rs n) = (gotOcr s).beside es rs n := ite_beside rfl (ite_beside rfl rfl)

theorem finishSpeedup_beside (ok : Bool) : finishSpeedup ok (s.beside es rs n) = (finishSpeedup ok s).beside es rs n :=
  ite_beside rfl rfl

/-! ## Block reads, volumes -/

theorem State.cancelScan_beside : (s.beside es rs n).cancelScan = s.cancelScan.beside es rs n := ite_beside rfl rfl

theorem startReadblk_beside : startReadblk (s.beside es rs n) = (startReadblk s).beside es rs n := by
  unfold startReadblk
  rw [State.cancelScan_beside]
  rfl

theorem blockFail_beside (u : BlockUse) (e : ErrCode) :
    blockFail u e (s.beside es rs n) = (blockFail u e s).beside es rs n := by
  cases u <;> rfl

theorem gotStatus_beside (u : BlockUse) : gotStatus u (s.beside es rs n) = (gotStatus u s).beside es rs n :=
  ite_beside rfl (blockFail_beside { s with errByte := s.scratch.resp[0] } es rs n u .readRejected)

theorem takeDatum_beside (d : Byte) : takeDatum d (s.beside es rs n) = (takeDatum d s).beside es rs n :=
  ite_beside rfl (ite_beside rfl rfl)

theorem startReadbytes_beside : startReadbytes (s.beside es rs n) = (startReadbytes s).beside es rs n := by
  unfold startReadbytes
  rw [State.cancelScan_beside]
  exact ite_beside (ite_beside rfl rfl) rfl

theorem afterCopy_beside : afterCopy (s.beside es rs n) = (afterCopy s).beside es rs n := ite_beside rfl rfl

theorem copyStep_beside : copyStep (s.beside es rs n) = (copyStep s).beside es rs n :=
  ite_beside rfl (afterCopy_beside (copyByte s) es rs n)

theorem startPartition_beside : startPartition (s.beside es rs n) = (startPartition s).beside es rs n := by
  unfold startPartition
  rw [State.cancelScan_beside]
  exact ite_beside rfl rfl

theorem startMount_beside : startMount (s.beside es rs n) = (startMount s).beside es rs n := by
  unfold startMount
  rw [State.cancelScan_beside]
  exact ite_beside rfl rfl

theorem finishMount_beside : finishMount (s.beside es rs n) = (finishMount s).beside es rs n := ite_beside rfl rfl

theorem startClus2lba_beside : startClus2lba (s.beside es rs n) = (startClus2lba s).beside es rs n := ite_beside rfl rfl

/-! ## The directory -/

theorem startDecslot_beside : startDecslot (s.beside es rs n) = (startDecslot s).beside es rs n := ite_beside rfl rfl

theorem dirBlockDone_beside : dirBlockDone (s.beside es rs n) = (dirBlockDone s).beside es rs n := ite_beside rfl rfl

theorem dirScan_beside (k : Nat) : dirScan k (s.beside es rs n) = (dirScan k s).beside es rs n := by
  induction k generalizing s with
  | zero => exact dirBlockDone_beside s es rs n
  | succ k ih =>
    have hslot : slotOf (s.beside es rs n).blockbuf (s.beside es rs n).dir.slot.toNat = slotOf s.blockbuf s.dir.slot.toNat := rfl
    unfold dirScan
    dsimp only
    rw [hslot]
    cases classify (slotOf s.blockbuf s.dir.slot.toNat) with
    | endOfDir | short => rfl
    | free => exact ih { s with dir := { s.dir with slot := s.dir.slot + 1 } }
    | longFrag => exact ite_beside rfl (ih { s with dir := { s.dir with
        slot := s.dir.slot + 1
        frags := s.dir.frags ++ [{
          ord := byteAt (slotOf s.blockbuf s.dir.slot.toNat) 0
          cu := fragUnits (slotOf s.blockbuf s.dir.slot.toNat) }] } })

theorem dirScanBlock_beside : dirScanBlock (s.beside es rs n) = (dirScanBlock s).beside es rs n := dirScan_beside s es rs n _

theorem startDirnext_beside : startDirnext (s.beside es rs n) = (startDirnext s).beside es rs n :=
  ite_beside rfl (ite_beside (dirScanBlock_beside s es rs n) rfl)

theorem dirBlockRead_beside : dirBlockRead (s.beside es rs n) = (dirBlockRead s).beside es rs n :=
  dirScanBlock_beside { s with dir := { s.dir with loaded := true, slot := 0 } } es rs n

/-! ## One engine step -/

theorem startOp_beside (op : Byte) : startOp op (s.beside es rs n) = (startOp op s).beside es rs n := by
  refine ite_beside ?_ rfl
  unfold opBody
  split
  case h_3 => exact startSendcmd_beside s es rs n
  case h_4 => exact startReadresp_beside s es rs n
  case h_5 => exact startReadblk_beside s es rs n
  case h_6 => exact startReadbytes_beside s es rs n
  case h_7 => exact startPartition_beside s es rs n
  case h_8 => exact startMount_beside s es rs n
  case h_9 => exact startClus2lba_beside s es rs n
  case h_10 => exact startDecslot_beside s es rs n
  case h_12 => exact startDirnext_beside s es rs n
  all_goals rfl

theorem exchErr_beside (x : Exch) : exchErr x (s.beside es rs n) = (exchErr x s).beside es rs n := by
  cases x
  case block u => exact blockFail_beside s es rs n u _
  all_goals rfl

theorem exchNoResp_beside (x : Exch) : exchNoResp x (s.beside es rs n) = (exchNoResp x s).beside es rs n := by
  cases x
  case reset => exact nextReset_beside s es rs n
  case marker | activate => exact nextInit_beside s es rs n
  case block u => exact blockFail_beside s es rs n u _
  all_goals rfl

theorem exchGot_beside (x : Exch) : exchGot x (s.beside es rs n) = (exchGot x s).beside es rs n := by
  cases x
  case send | resp => rfl
  case reset => exact gotReset_beside s es rs n
  case iface => exact gotIface_beside s es rs n
  case marker => exact gotMarker_beside s es rs n
  case activate => exact gotActivate_beside s es rs n
  case ocr => exact gotOcr_beside s es rs n
  case block u => exact gotStatus_beside s es rs n u

theorem frameSent_beside (x : Exch) : frameSent x (s.beside es rs n) = (frameSent x s).beside es rs n := by
  cases x <;> rfl

theorem afterBlock_beside (u : BlockUse) : afterBlock u (s.beside es rs n) = (afterBlock u s).beside es rs n := by
  cases u
  case mountBoot => exact finishMount_beside s es rs n
  case dirnext => exact dirBlockRead_beside s es rs n
  all_goals rfl

theorem dataDone_beside (u : BlockUse) : dataDone u (s.beside es rs n) = (dataDone u s).beside es rs n :=
  ite_beside (afterBlock_beside { s with status := { s.status with bufvalid := true } } es rs n u)
    (blockFail_beside { s with errByte := s.scratch.tok } es rs n u .badStartToken)

theorem frameStep_beside (x : Exch) : frameStep x (s.beside es rs n) = (frameStep x s).beside es rs n :=
  ite_beside rfl (frameSent_beside s es rs n x)

theorem respBudget_beside (x : Exch) : respBudget x (s.beside es rs n) = respBudget x s := by cases x <;> rfl

theorem respCount_beside (x : Exch) : respCount x (s.beside es rs n) = respCount x s := by cases x <;> rfl

theorem pollStep_beside (x : Exch) (b : Byte) : pollStep x b (s.beside es rs n) = (pollStep x b s).beside es rs n := by
  unfold pollStep
  rw [respBudget_beside, respCount_beside]
  exact ite_beside (ite_beside rfl (exchNoResp_beside s es rs n x)) (ite_beside (exchGot_beside (s.put _) es rs n x) rfl)

theorem restStep_beside (x : Exch) (c : Byte) : restStep x c (s.beside es rs n) = (restStep x c s).beside es rs n := by
  unfold restStep
  rw [respCount_beside]
  exact ite_beside rfl (exchGot_beside (s.put _) es rs n x)

theorem dataStep_beside (u : BlockUse) (d : Byte) : dataStep u d (s.beside es rs n) = (dataStep u d s).beside es rs n := by
  unfold dataStep
  rw [takeDatum_beside]
  exact ite_beside rfl (dataDone_beside (takeDatum d s) es rs n u)

theorem engAnswer_beside (r : Answer) : engAnswer r (s.beside es rs n) = (engAnswer r s).beside es rs n := by
  have heng : (s.beside es rs n).eng = s.eng := rfl
  refine ite_beside rfl ?_
  rw [heng]
  cases s.eng with
  | idle => rfl
  | running op l =>
    cases l
    case start | ready | copy | warmup => rfl
    case reconf => cases r <;> exact finishSpeedup_beside s es rs n _
    case frame x => cases r; exacts [frameStep_beside s es rs n x, exchErr_beside s es rs n x]
    case poll x => cases r; exacts [pollStep_beside s es rs n x _, exchErr_beside s es rs n x]
    case rest x => cases r; exacts [restStep_beside s es rs n x _, exchErr_beside s es rs n x]
    case data u => cases r; exacts [dataStep_beside s es rs n u _, blockFail_beside s es rs n u _]

theorem engInternal_beside : engInternal (s.beside es rs n) = (engInternal s).beside es rs n := by
  have heng : (s.beside es rs n).eng = s.eng := rfl
  refine ite_beside rfl ?_
  rw [heng]
  cases s.eng with
  | idle => rfl
  | running op l =>
    cases l
    case start => exact startOp_beside s es rs n op
    case copy => exact copyStep_beside s es rs n
    all_goals rfl

/-! ## Runs of the engine -/

theorem internalRun_beside (k : Nat) : internalRun k (s.beside es rs n) = (internalRun k s).beside es rs n := by
  induction k generalizing s with
  | zero => rfl
  | succ k ih => exact ite_beside ((congrArg (internalRun k) (engInternal_beside s es rs n)).trans (ih _)) rfl

theorem settle_beside : settle (s.beside es rs n) = (settle s).beside es rs n := internalRun_beside s es rs n _

theorem paceRun_beside (p : Option Nat) : paceRun p (s.beside es rs n) = (paceRun p s).beside es rs n := by
  cases p <;> exact internalRun_beside s es rs n _

end Beside

/-- A run over given inputs takes none from the state: it sets what is left of its own. -/
theorem drive_beside (es' : List Event) (s : State) (es : List Event) (rs : List HostRead) (n : Nat) :
    drive es' (s.beside es rs n) = (drive es' s).beside (drive es' s).events rs n := by
  induction es' generalizing s with
  | nil => simp only [drive, settle_beside]; rfl
  | cons e es' ih =>
    cases e with
    | answer r =>
      have hw : (settle (s.beside es rs n)).waiting = (settle s).waiting := by rw [settle_beside]; rfl
      unfold drive
      rw [hw, settle_beside, engAnswer_beside]
      split
      · exact ih _
      · rfl
    | host p a => simp only [drive, paceRun_beside]; rfl
    | hard p l => simp only [drive, paceRun_beside]; rfl

theorem exchange_beside (es' : List Event) (s : State) (es : List Event) (rs : List HostRead) (n : Nat) :
    exchange es' (s.beside es rs n) = (exchange es' s).beside (exchange es' s).events rs n := by
  induction es' generalizing s with
  | nil => rfl
  | cons e es' ih =>
    cases e with
    | answer r =>
      have hw : (s.beside es rs n).waiting = s.waiting := rfl
      unfold exchange
      rw [hw, engAnswer_beside]
      split
      · exact ih _
      · rfl
    | host | hard => rfl

/-- A run over given inputs is the same whatever inputs stand in the state. -/
theorem drive_with_events (es' : List Event) (s : State) (es : List Event) : drive es' { s with events := es } = drive es' s :=
  (drive_beside es' s es s.reads s.draws).trans (drive_beside es' s s.events s.reads s.draws).symm

/-! ## An op that is polled goes on as without the polls -/

/-- An internal step ends the op or keeps what is latched. -/
theorem engInternal_latched {s : State} (hi : s.internal = true) :
    (engInternal s).eng = .idle ∨ (engInternal s).latched = s.latched := by
  obtain ⟨op, l, he, hl⟩ := State.internal_iff.mp hi
  by_cases hc : l = .copy
  · subst hc
    have hcopy : (copyStep s).eng = .idle ∨ (copyStep s).latched = s.latched := by
      unfold copyStep
      split
      · exact .inr rfl
      · exact (afterCopy_moves (copyByte s) trivial).latched
    unfold engInternal
    split
    · exact .inl rfl
    · rw [he]
      exact hcopy
  · exact (engInternal_moves he hl hc).latched

theorem engAnswer_latched {s : State} (hw : s.waiting = true) (r : Answer) :
    (engAnswer r s).eng = .idle ∨ (engAnswer r s).latched = s.latched :=
  have ⟨_, _, he, hl⟩ := State.waiting_iff.mp hw
  (engAnswer_moves he hl r).latched

/-- The run of an op over any inputs keeps what is latched until the op is over. -/
theorem drive_latched (s : State) (es : List Event) : (drive es s).eng = .idle ∨ (drive es s).latched = s.latched := by
  refine drive_keeps (C := fun t => t.eng = .idle ∨ t.latched = s.latched) ?_ ?_ (fun _ _ h => h) es (.inr rfl)
  · intro t ht hi
    rcases ht with hidle | hlatched
    · rw [State.internal_of_idle hidle] at hi
      cases hi
    · exact (engInternal_latched hi).imp_right (·.trans hlatched)
  · intro t r ht hw
    rcases ht with hidle | hlatched
    · rw [State.waiting_of_idle hidle] at hw
      cases hw
    · exact (engAnswer_latched hw r).imp_right (·.trans hlatched)

/-- A run stopped by a host access while it waits goes on with the next answer as if the access had not been there. -/
theorem drive_stopped_goes_on (pre : List Answer) (a : HostAccess) (rest : List Event) {s : State}
    (hw : (drive (pre.map Event.answer ++ .host none a :: rest) s).waiting = true) :
    (drive (pre.map Event.answer ++ .host none a :: rest) s).events = .host none a :: rest
    ∧ ∀ (r : Answer) (es : List Event), drive (.answer r :: es) (drive (pre.map Event.answer ++ .host none a :: rest) s)
        = drive (pre.map Event.answer ++ .answer r :: es) s := by
  induction pre generalizing s with
  | nil =>
    refine ⟨rfl, fun r es => ?_⟩
    have hstop : (settle s).waiting = true := hw
    have hstop' : drive (.host none a :: rest) s = { settle s with events := .host none a :: rest } := rfl
    rw [List.map_nil, List.nil_append, List.nil_append, hstop', drive_with_events, drive_answer r es hstop]
    exact (if_pos hstop).symm
  | cons r₀ pre ih =>
    rw [List.map_cons, List.cons_append] at hw ⊢
    have hgo : (settle s).waiting = true := by
      by_contra hcon
      rw [drive, if_neg hcon] at hw
      exact hcon hw
    have htake (es : List Event) : drive (.answer r₀ :: es) s = drive es (engAnswer r₀ (settle s)) := if_pos hgo
    rw [htake] at hw ⊢
    obtain ⟨hev, hon⟩ := ih hw
    exact ⟨hev, fun r es => (hon r es).trans (htake _).symm⟩

/-- A run that still waits is the run of a block that is not held in reset. -/
theorem drive_not_inReset {s : State} {es : List Event} (hr : s.inReset = false) (hw : (drive es s).waiting = true) :
    (drive es s).inReset = false := by
  rcases drive_latched s es with hidle | hlatched
  · rw [State.waiting_of_idle hidle] at hw
    cases hw
  · exact (State.latched_eq_iff.mp hlatched).2.2.trans hr

/-- A polled op: its run stops before the host access, and the next answer takes it on as if the access had not been there
(20_memory.md R76, R80). -/
theorem exec_polled {i : Instr} {s : State} {pre : List Answer} {a : HostAccess} {rest : List Event}
    (hi : (opcodeOf i).isSome = true) (hc : s.CanIssue) (he : s.events = pre.map Event.answer ++ .host none a :: rest) :
    ∃ t, exec i s = .next t ∧ (t.waiting = true → t.events = .host none a :: rest
      ∧ ∀ (r : Answer) (es : List Event),
        step { t with events := .answer r :: es } = exec i { s with events := pre.map Event.answer ++ .answer r :: es }) := by
  obtain ⟨op, hop⟩ := Option.isSome_iff_exists.mp hi
  have hrun (es : List Event) : exec i { s with events := es } = .next (drive es (s.issue op)) := by
    rw [exec_eq_launch hop, launch_issue (s := { s with events := es }) op hc.1 hc.2.1 hc.2.2]
    exact congrArg Host.Outcome.next (drive_with_events es (s.issue op) es)
  refine ⟨drive (pre.map Event.answer ++ .host none a :: rest) (s.issue op), ?_, fun hw => ?_⟩
  · rw [← he]
    exact hrun s.events
  · obtain ⟨hev, hon⟩ := drive_stopped_goes_on pre a rest hw
    refine ⟨hev, fun r es => ?_⟩
    rw [hrun, ← hon, ← drive_with_events (.answer r :: es) _ (.answer r :: es)]
    exact step_answer (drive_not_inReset (s := s.issue op) hc.2.2 hw) hw rfl

/-! ## No step depends on the record of reads or the count of draws -/

/-- A state with another record of reads and another count of draws. -/
abbrev State.withReads (s : State) (rs : List HostRead) (n : Nat) : State :=
  s.beside s.events rs n

theorem State.eq_withReads {s t : State} (h : s.apartFromReads = t.apartFromReads) : t = s.withReads t.reads t.draws := by
  have hev : t.apartFromReads.events = s.apartFromReads.events := by rw [h]
  calc
    t = t.apartFromReads.beside t.apartFromReads.events t.reads t.draws := rfl
    _ = s.withReads t.reads t.draws := by rw [hev, ← h]; rfl

/-- The branches of a step, each by itself. -/
theorem SameApartFromReads.ite {c : Prop} [Decidable c] {o p o' p' : Host.Outcome State Fault Refusal}
    (ho : SameApartFromReads o o') (hp : SameApartFromReads p p') :
    SameApartFromReads (if c then o else p) (if c then o' else p') := by
  split <;> assumption

section Reads
variable (s : State) (rs : List HostRead) (n : Nat)

theorem drive_withReads (es : List Event) :
    (drive es s).apartFromReads = (drive es (s.withReads rs n)).apartFromReads := by
  rw [drive_beside]
  rfl

theorem exchange_withReads (es : List Event) :
    (exchange es s).apartFromReads = (exchange es (s.withReads rs n)).apartFromReads := by
  rw [exchange_beside]
  rfl

theorem launch_withReads (op : Byte) : SameApartFromReads (launch op s) (launch op (s.withReads rs n)) :=
  .ite rfl (.ite rfl (drive_withReads (s.issue op) rs n s.events))

theorem sendWire_withReads (at_ : Exch → Bool) (idx : BitVec 6) (arg : Word) :
    SameApartFromReads (sendWire at_ idx arg s) (sendWire at_ idx arg (s.withReads rs n)) := by
  have heng : (s.withReads rs n).eng = s.eng := rfl
  unfold sendWire
  rw [heng]
  split
  next op x _ =>
    exact .ite (.ite rfl (exchange_withReads (sendFirst x (s.put { s.scratch with frame := frameWord idx arg })) rs n s.events))
      rfl
  all_goals rfl

theorem exec_withReads (i : Instr) : SameApartFromReads (exec i s) (exec i (s.withReads rs n)) := by
  cases i
  case cmd0 | cmd8 | cmd17 | cmd55 | acmd41 | cmd58 => exact sendWire_withReads s rs n _ _ _
  all_goals exact launch_withReads s rs n _

theorem State.writeReg_beside (es : List Event) (off : Nat) (v : Word) :
    (s.beside es rs n).writeReg off v = (s.writeReg off v).beside es rs n := by
  unfold State.writeReg
  split
  case h_1 => exact ite_beside (ite_beside rfl rfl) rfl
  case h_2 => exact ite_beside rfl rfl
  case h_6 | h_7 | h_8 | h_9 => exact ite_beside rfl rfl
  all_goals rfl

theorem writeReg_withReads (off : Nat) (v : Word) :
    (s.writeReg off v).apartFromReads = ((s.withReads rs n).writeReg off v).apartFromReads := by
  have hkeep : (s.writeReg off v).beside s.events s.reads s.draws = s.writeReg off v :=
    (s.writeReg_beside s.reads s.draws s.events off v).symm
  calc
    (s.writeReg off v).apartFromReads = ((s.writeReg off v).beside s.events s.reads s.draws).apartFromReads := by rw [hkeep]
    _ = ((s.withReads rs n).writeReg off v).apartFromReads := by rw [State.writeReg_beside]; rfl

theorem hostAccess_withReads (a : HostAccess) : SameApartFromReads (hostAccess a s) (hostAccess a (s.withReads rs n)) := by
  refine .ite rfl (.ite rfl ?_)
  cases a.dir with
  | rd =>
    dsimp only
    rw [readReg_state s, readReg_state (s.withReads rs n)]
    rfl
  | wr v =>
    refine .ite ?_ (writeReg_withReads s rs n _ v)
    rw [writeOp_eq_launch, writeOp_eq_launch]
    exact launch_withReads s rs n _

theorem advance_withReads : SameApartFromReads (advance s) (advance (s.withReads rs n)) := by
  have hfetch : wireFetch (s.withReads rs n) = wireFetch s := rfl
  unfold advance
  rw [hfetch]
  cases wireFetch s with
  | some i => exact exec_withReads s rs n i
  | none => exact drive_withReads s rs n s.events

theorem heldStep_withReads : SameApartFromReads (heldStep s) (heldStep (s.withReads rs n)) := by
  have hev : (s.withReads rs n).events = s.events := rfl
  unfold heldStep
  rw [hev]
  split <;> rfl

theorem inputStep_withReads : SameApartFromReads (inputStep s) (inputStep (s.withReads rs n)) := by
  have hev : (s.withReads rs n).events = s.events := rfl
  unfold inputStep
  rw [hev]
  split
  case h_1 => exact .ite rfl rfl
  case h_2 => exact .ite (drive_withReads s rs n _) rfl
  case h_3 p a es _ => exact hostAccess_withReads { s with events := es } rs n a
  all_goals rfl

theorem step_withReads : SameApartFromReads (step s) (step (s.withReads rs n)) :=
  .ite (heldStep_withReads s rs n) (.ite (advance_withReads s rs n) (inputStep_withReads s rs n))

end Reads

/-- Settles O21: a run does not see the inputs that are left in the state, and no step sees the record of reads or the count of
draws. -/
theorem readsLeaveRun : Obligations.ReadsLeaveRun := by
  refine ⟨fun _ _ _ _ _ => exec_polled, fun s p off es hr hb hp ho hs he => ?_, fun s t h => ?_⟩
  · obtain ⟨n, hstep⟩ := step_read hr hb hp ho hs he
    exact ⟨_, hstep, rfl⟩
  · rw [State.eq_withReads h]
    exact step_withReads s t.reads t.draws

end Sys2Proof.Machine
end

section
/-! The two encodings of 30_encoding.md: words and frames by their bytes and fields, what decodes to what (R100 to R112), and how
a host write of OP runs the instruction it names. -/

namespace Sys2Proof.Machine

/-! ## Slices of a word

A word put together from slices gives each of them back, and a word cut into slices is put together from them again. -/

theorem extractLsb'_append_above {n m i k : Nat} {x : BitVec n} {y : BitVec m} {z : BitVec k} (h : x.extractLsb' i k = z) :
    (x ++ y).extractLsb' (i + m) k = z := by
  rw [BitVec.extractLsb'_append_eq_of_le (Nat.le_add_left m i), Nat.add_sub_cancel, h]

theorem append_extractLsb'_below {w n : Nat} (x : BitVec w) (i m : Nat) {y : BitVec n} (h : y = x.extractLsb' (i + m) n) :
    y ++ x.extractLsb' i m = x.extractLsb' i (n + m) := by
  rw [h, BitVec.extractLsb'_append_extractLsb'_eq_extractLsb' rfl]

/-! ## The bytes of a word and of a frame (20_memory.md R74, 30_encoding.md R110) -/

theorem bytesOfWord_wordOfBytes (b0 b1 b2 b3 : Byte) : bytesOfWord (wordOfBytes b0 b1 b2 b3) = [b0, b1, b2, b3] := by
  obtain ⟨h0, h1, h2, h3⟩ := wordOfBytes_byte b0 b1 b2 b3
  rw [bytesOfWord, h0, h1, h2, h3]

theorem wordOfBytes_extractLsb' (w : Word) :
    wordOfBytes (w.extractLsb' 0 8) (w.extractLsb' 8 8) (w.extractLsb' 16 8) (w.extractLsb' 24 8) = w :=
  (append_extractLsb'_below w 0 8 (append_extractLsb'_below w 8 8 (append_extractLsb'_below w 16 8 rfl))).trans
    (BitVec.extractLsb'_eq_self (x := w))

theorem frameByte_frameOfBytes (b0 b1 b2 b3 b4 b5 : Byte) :
    frameByte (frameOfBytes b0 b1 b2 b3 b4 b5) 0 = b0 ∧ frameByte (frameOfBytes b0 b1 b2 b3 b4 b5) 1 = b1
    ∧ frameByte (frameOfBytes b0 b1 b2 b3 b4 b5) 2 = b2 ∧ frameByte (frameOfBytes b0 b1 b2 b3 b4 b5) 3 = b3
    ∧ frameByte (frameOfBytes b0 b1 b2 b3 b4 b5) 4 = b4 ∧ frameByte (frameOfBytes b0 b1 b2 b3 b4 b5) 5 = b5 := by
  have last {n : Nat} {x : BitVec n} {y : Byte} : (x ++ y).extractLsb' 0 8 = y := BitVec.extractLsb'_append_eq_right
  have above {n i : Nat} {x : BitVec n} {y z : Byte} (h : x.extractLsb' i 8 = z) : (x ++ y).extractLsb' (i + 8) 8 = z :=
    extractLsb'_append_above h
  exact ⟨above (above (above (above (above BitVec.extractLsb'_eq_self)))), above (above (above (above last))),
    above (above (above last)), above (above last), above last, last⟩

theorem frameBytes_frameOfBytes (b0 b1 b2 b3 b4 b5 : Byte) :
    frameBytes (frameOfBytes b0 b1 b2 b3 b4 b5) = [b0, b1, b2, b3, b4, b5] := by
  obtain ⟨h0, h1, h2, h3, h4, h5⟩ := frameByte_frameOfBytes b0 b1 b2 b3 b4 b5
  rw [frameBytes, h0, h1, h2, h3, h4, h5]

theorem frameOfBytes_frameByte (f : BitVec 48) :
    frameOfBytes (frameByte f 0) (frameByte f 1) (frameByte f 2) (frameByte f 3) (frameByte f 4) (frameByte f 5) = f :=
  (append_extractLsb'_below f 0 8 (append_extractLsb'_below f 8 8 (append_extractLsb'_below f 16 8
    (append_extractLsb'_below f 24 8 (append_extractLsb'_below f 32 8 rfl))))).trans (BitVec.extractLsb'_eq_self (x := f))

theorem decode_bytesOfWord (w : Word) : decode (bytesOfWord w) = decodeHostOp w :=
  congrArg decodeHostOp (wordOfBytes_extractLsb' w)

theorem decode_frameBytes (f : BitVec 48) : decode (frameBytes f) = decodeFrame f :=
  congrArg decodeFrame (frameOfBytes_frameByte f)

/-! ## The fields of a frame (30_encoding.md R110, R111) -/

section Fields
variable (idx : BitVec 6) (arg : Word)

theorem frameWord_start : (frameWord idx arg).extractLsb' 46 2 = 1#2 :=
  extractLsb'_append_above (extractLsb'_append_above (extractLsb'_append_above BitVec.extractLsb'_eq_self))

theorem frameWord_index : (frameWord idx arg).extractLsb' 40 6 = idx :=
  extractLsb'_append_above (extractLsb'_append_above BitVec.extractLsb'_append_eq_right)

theorem frameWord_arg : (frameWord idx arg).extractLsb' 8 32 = arg :=
  extractLsb'_append_above BitVec.extractLsb'_append_eq_right

theorem frameWord_checksum : (frameWord idx arg).extractLsb' 0 8 = checksum idx := BitVec.extractLsb'_append_eq_right

end Fields

/-- A frame with the start bits and the checksum of its index is the frame of its index and argument. -/
theorem frameWord_of_fields {f : BitVec 48} (hs : f.extractLsb' 46 2 = 1#2)
    (hc : f.extractLsb' 0 8 = checksum (f.extractLsb' 40 6)) : frameWord (f.extractLsb' 40 6) (f.extractLsb' 8 32) = f := by
  rw [frameWord, ← hs, ← hc]
  exact (append_extractLsb'_below f 0 8 (append_extractLsb'_below f 8 32 (append_extractLsb'_below f 40 6 rfl))).trans
    (BitVec.extractLsb'_eq_self (x := f))

/-! ## Decoding -/

/-- A word decodes to the host op of its low byte (30_encoding.md R100, R102). -/
theorem decodeHostOp_eq_ok_iff {w : Word} {i : Instr} : decodeHostOp w = .ok i ↔ opcodeOf i = some (w.extractLsb' 0 8) := by
  refine ⟨opcodeOf_decodeHostOp, fun h => ?_⟩
  unfold decodeHostOp
  cases i
  case cmd0 | cmd8 | cmd17 | cmd55 | acmd41 | cmd58 => cases h
  all_goals
    rw [← Option.some.inj h]
    rfl

/-- An index and an argument decode to the wire command that has them (30_encoding.md R112). -/
theorem decodeCommand_eq_ok_iff {idx : BitVec 6} {arg : Word} {i : Instr} :
    decodeCommand idx arg = .ok i ↔ commandOf i = some (idx, arg) := by
  constructor
  · intro h
    unfold decodeCommand at h
    split_ifs at h
    all_goals cases h
    all_goals simp_all [commandOf]
  · intro h
    cases i <;> cases h <;> rfl

/-- A frame decodes to a wire command exactly when it is the frame of its index and argument (30_encoding.md R110 to R112). -/
theorem decodeFrame_eq_ok_iff {f : BitVec 48} {i : Instr} :
    decodeFrame f = .ok i ↔ ∃ idx arg, frameWord idx arg = f ∧ commandOf i = some (idx, arg) := by
  constructor
  · intro h
    unfold decodeFrame at h
    split_ifs at h with hs hc
    exact ⟨_, _, frameWord_of_fields (not_not.mp hs) (not_not.mp hc), decodeCommand_eq_ok_iff.mp h⟩
  · rintro ⟨idx, arg, rfl, h⟩
    unfold decodeFrame
    rw [frameWord_start, frameWord_checksum, frameWord_index, frameWord_arg, if_neg (not_not.mpr rfl), if_neg (not_not.mpr rfl)]
    exact decodeCommand_eq_ok_iff.mpr h

/-- What bytes decode to: a word to the host op of its low byte, a frame to its wire command, other bytes to nothing. -/
theorem decode_eq_ok_iff {bs : List Byte} {i : Instr} :
    decode bs = .ok i ↔ (∃ w, bytesOfWord w = bs ∧ opcodeOf i = some (w.extractLsb' 0 8))
      ∨ ∃ idx arg, frameBytes (frameWord idx arg) = bs ∧ commandOf i = some (idx, arg) := by
  constructor
  · intro h
    unfold decode at h
    split at h
    · exact .inl ⟨_, bytesOfWord_wordOfBytes _ _ _ _, decodeHostOp_eq_ok_iff.mp h⟩
    · obtain ⟨idx, arg, hf, hi⟩ := decodeFrame_eq_ok_iff.mp h
      exact .inr ⟨idx, arg, by rw [hf, frameBytes_frameOfBytes], hi⟩
    · cases h
  · rintro (⟨w, rfl, h⟩ | ⟨idx, arg, rfl, h⟩)
    · rw [decode_bytesOfWord, decodeHostOp_eq_ok_iff, h]
    · rw [decode_frameBytes, decodeFrame_eq_ok_iff]
      exact ⟨idx, arg, rfl, h⟩

/-! ## Encoding -/

/-- An instruction is a host op or a wire command (30_encoding.md R102, R112). -/
theorem opcodeOf_or_commandOf (i : Instr) : (∃ op, opcodeOf i = some op) ∨ ∃ idx arg, commandOf i = some (idx, arg) := by
  cases i
  case cmd0 | cmd8 | cmd17 | cmd55 | acmd41 | cmd58 => exact .inr ⟨_, _, rfl⟩
  all_goals exact .inl ⟨_, rfl⟩

theorem encode_of_opcodeOf {i : Instr} {op : Byte} (h : opcodeOf i = some op) : encode i = bytesOfWord (op.setWidth 32) := by
  simp only [encode, h]

theorem encode_of_commandOf {i : Instr} {idx : BitVec 6} {arg : Word} (h : commandOf i = some (idx, arg)) :
    encode i = frameBytes (frameWord idx arg) := by
  have hop : opcodeOf i = none := by
    cases i
    case cmd0 | cmd8 | cmd17 | cmd55 | acmd41 | cmd58 => rfl
    all_goals cases h
  simp only [encode, hop, h]

/-- The OPCODE of the word that the encoder writes (30_encoding.md R100; log 29). -/
theorem extractLsb'_setWidth_opcode (op : Byte) : (op.setWidth 32 : Word).extractLsb' 0 8 = op := by
  rw [BitVec.extractLsb'_setWidth_of_le (by decide), BitVec.extractLsb'_eq_self]

/-- Settles O1: a host op comes back from its low byte, a wire command from its frame. Every argument of CMD17 comes back, not
only the well-formed ones. -/
theorem decodeEncode : Obligations.DecodeEncode := by
  intro i _
  rw [decode_eq_ok_iff]
  rcases opcodeOf_or_commandOf i with ⟨op, hop⟩ | ⟨idx, arg, hcmd⟩
  · exact .inl ⟨_, (encode_of_opcodeOf hop).symm, by rw [extractLsb'_setWidth_opcode, hop]⟩
  · exact .inr ⟨idx, arg, (encode_of_commandOf hcmd).symm, hcmd⟩

/-- Settles O2: bytes that decode are the word of an op code, which agrees with its encoding in the low byte, or the frame that
is the encoding. -/
theorem encodeDecode : Obligations.EncodeDecode := by
  intro bs i h
  rcases decode_eq_ok_iff.mp h with ⟨w, rfl, hop⟩ | ⟨idx, arg, rfl, hcmd⟩
  · refine ⟨.inl rfl, nofun, fun _ => ?_⟩
    rw [encode_of_opcodeOf hop]
    exact congrArg some (extractLsb'_setWidth_opcode _)
  · exact ⟨.inr rfl, fun _ => encode_of_commandOf hcmd, nofun⟩

/-! ## A host write of OP -/

/-- Settles O4: a word decodes by its low byte, and its write launches that byte's op code. -/
theorem opcodeAlone : Obligations.OpcodeAlone := by
  refine ⟨fun v i => by rw [decode_bytesOfWord, decodeHostOp_eq_ok_iff], fun v s => ?_⟩
  have hlow : (v &&& 0xFF).extractLsb' 0 8 = v.extractLsb' 0 8 := by
    rw [BitVec.extractLsb'_and]
    exact BitVec.and_allOnes
  rw [writeOp_eq_launch, writeOp_eq_launch, hlow]

/-- Settles O3: each word by the decoder's own evaluation. -/
theorem decodedWords : Obligations.DecodedWords := by
  unfold Obligations.DecodedWords
  decide

/-- Settles O6: the access lands as the step, and at offset 0 it is a write of OP. -/
theorem stepRunsHostOp : Obligations.StepRunsHostOp := by
  intro s p v es hr hb hp he
  have hstep : step s = writeOp v { s with events := es } := by
    rw [step_host hr hp he]
    exact hostAccess_ok (s := { s with events := es }) (off := 0) hb rfl (by decide)
  refine ⟨fun i hd => ?_, fun _ => by rw [hstep, writeOp_eq_launch]⟩
  simp only [hstep, writeOp, hd]

end Sys2Proof.Machine
end

section
/-! The argument checks and the block size check (30_encoding.md R107, 60_exceptions.md R302, R303): an op that fails one of
them is over at its first step, with nothing written but the completion status. -/

namespace Sys2Proof.Machine

/-! ## An op that is over at its start -/

/-- An op that only completes writes nothing but the completion status (10_state.md R50, R51). -/
theorem launch_after {s : State} {op : Byte} {e : ErrCode} (h : s.CanIssue) (hp : Prompt s.events)
    (ho : startOp op (s.issue op) = (s.issue op).complete e) : launch op s = .next (s.after e) := by
  rw [launch_over op h hp (by rw [ho, State.complete_eng]), ho]
  rfl

theorem startOp_of_legal {op : Byte} {s : State} (h : opLegal op s = true) : startOp op s = opBody op s := if_pos h

/-- A legal op whose procedure only completes. -/
theorem launch_checked {s : State} {op : Byte} {e : ErrCode} (h : s.CanIssue) (hp : Prompt s.events)
    (hl : opLegal op (s.issue op) = true) (ho : opBody op (s.issue op) = (s.issue op).complete e) :
    launch op s = .next (s.after e) :=
  launch_after h hp (by rw [startOp_of_legal hl, ho])

theorem State.isReady_issue {s : State} (h : s.status.stage = .ready) (op : Byte) : (s.issue op).isReady = true :=
  beq_iff_eq.mpr h

/-! ## The ranges (30_encoding.md R107) -/

section Ranges
variable {s : State}

theorem sendcmdArgsOk_eq_false (h : 63 < s.a0.toNat) : sendcmdArgsOk s = false := decide_eq_false (Nat.not_le.mpr h)

theorem readrespArgsOk_eq_false (h : s.a0 = 0 ∨ 5 < s.a0.toNat ∨ 255 < s.a1.toNat) : readrespArgsOk s = false := by
  unfold readrespArgsOk
  rcases h with h | h | h
  · rw [h]; rfl
  · rw [decide_eq_false (Nat.not_le.mpr h), Bool.and_false, Bool.false_and]
  · rw [decide_eq_false (Nat.not_le.mpr h), Bool.and_false]

theorem readbytesArgsOk_eq_false (h : 2 ^ 32 < s.a0.toNat + s.a1.toNat ∨ 2 ^ 32 < s.a2.toNat + s.a1.toNat) :
    readbytesArgsOk s = false := by
  unfold readbytesArgsOk
  rcases h with h | h
  · rw [decide_eq_false (Nat.not_le.mpr h), Bool.false_and]
  · rw [decide_eq_false (Nat.not_le.mpr h), Bool.and_false]

theorem partitionArgsOk_eq_false (h : s.a0 = 0 ∨ 4 < s.a0.toNat) : partitionArgsOk s = false := by
  unfold partitionArgsOk
  rcases h with h | h
  · rw [h]; rfl
  · rw [decide_eq_false (Nat.not_le.mpr h), Bool.and_false]

theorem decslotArgsOk_eq_false (h : s.blockSize.toNat / 32 ≤ s.a0.toNat) : decslotArgsOk s = false :=
  decide_eq_false (Nat.not_lt.mpr h)

/-- The index is checked before the block size (60_exceptions.md R305). -/
theorem checkPartition_badArgument (h : s.a0 = 0 ∨ 4 < s.a0.toNat) : checkPartition s = .badArgument := by
  simp only [checkPartition, partitionArgsOk_eq_false h, Bool.not_false, if_true]

theorem checkPartition_blockSize (h1 : 1 ≤ s.a0.toNat) (h4 : s.a0.toNat ≤ 4) (hb : s.blockSize ≠ 512) :
    checkPartition s = .blockSizeUnsupported := by
  have hargs : partitionArgsOk s = true := by
    rw [partitionArgsOk, decide_eq_true h1, decide_eq_true h4, Bool.and_self]
  have hsize : s.bs ≠ 512 := fun h => hb (BitVec.eq_of_toNat_eq h)
  simp only [checkPartition, hargs, Bool.not_true, Bool.false_eq_true, if_false, if_pos hsize]

/-! ## The procedures that a failed check ends -/

theorem startSendcmd_badArgument (h : sendcmdArgsOk s = false) : startSendcmd s = s.complete .badArgument :=
  if_neg (ne_true_of_eq_false h)

theorem startReadresp_badArgument (h : readrespArgsOk s = false) : startReadresp s = s.complete .badArgument :=
  if_neg (ne_true_of_eq_false h)

theorem startReadbytes_badArgument (h : readbytesArgsOk s = false) : startReadbytes s = s.complete .badArgument :=
  if_neg (ne_true_of_eq_false h)

theorem startDecslot_badArgument (h : decslotArgsOk s = false) : startDecslot s = s.complete .badArgument :=
  if_neg (ne_true_of_eq_false h)

theorem startClus2lba_invalidCluster (h : s.a0.toNat < 2) : startClus2lba s = s.complete .invalidCluster := if_pos h

theorem startPartition_failed {e : ErrCode} (h : checkPartition s = e) (he : e ≠ .none) : startPartition s = s.complete e := by
  subst h
  exact if_neg he

theorem startMount_failed {e : ErrCode} (h : checkPartition s = e) (he : e ≠ .none) : startMount s = s.complete e := by
  subst h
  exact if_neg he

end Ranges

/-- PARTITION and MOUNT share their checks (43_fat32.md R230, R232, R236). -/
theorem partition_mount_failed {s : State} {e : ErrCode} (h : s.CanIssue) (hp : Prompt s.events) (hr : s.status.stage = .ready)
    (hc : ∀ op, checkPartition (s.issue op) = e) (he : e ≠ .none) :
    exec .partition s = .next (s.after e) ∧ exec .mount s = .next (s.after e) :=
  ⟨launch_checked h hp (State.isReady_issue hr _) (startPartition_failed (hc _) he),
    launch_checked h hp (State.isReady_issue hr _) (startMount_failed (hc _) he)⟩

/-- Settles O23: each op is legal where its check fails, and the check ends its procedure. -/
theorem argumentChecks : Obligations.ArgumentChecks := by
  intro s h hp
  refine ⟨fun ha => ?sendcmd, fun ha => ?readresp,
    fun hr => ⟨fun ha => ?readbytes, fun ha => ?index, fun h1 h4 hb => ?size⟩, fun hd hb ha => ?decslot, fun hm ha => ?clus2lba⟩
  case sendcmd => exact launch_checked h hp rfl (startSendcmd_badArgument (sendcmdArgsOk_eq_false ha))
  case readresp => exact launch_checked h hp rfl (startReadresp_badArgument (readrespArgsOk_eq_false ha))
  case readbytes =>
    exact launch_checked h hp (State.isReady_issue hr _) (startReadbytes_badArgument (readbytesArgsOk_eq_false ha))
  case index => exact partition_mount_failed h hp hr (fun _ => checkPartition_badArgument ha) (by decide)
  case size => exact partition_mount_failed h hp hr (fun _ => checkPartition_blockSize h1 h4 hb) (by decide)
  case decslot =>
    exact launch_checked h hp (Bool.and_eq_true_iff.mpr ⟨hd, hb⟩) (startDecslot_badArgument (decslotArgsOk_eq_false ha))
  case clus2lba => exact launch_checked h hp hm (startClus2lba_invalidCluster ha)

end Sys2Proof.Machine
end

section
/-! Exchanges that end early, whatever op makes them: a byte exchange that the transport fails (40_command_engine.md R140), and a
budget spent on filler bytes at a command of bring-up (R144). -/

namespace Sys2Proof.Machine

/-! ## A failed byte exchange (40_command_engine.md R140) -/

/-- The exchange whose byte a label waits for; a data frame is of its block read's. -/
def Label.exch? : Label → Option Exch
  | .frame x | .poll x | .rest x => some x
  | .data u => some (.block u)
  | .start | .warmup | .reconf | .ready _ | .copy => none

/-- At every such label the engine waits, and a failure is the exchange's own. -/
theorem engAnswer_err {s : State} {op : Byte} {l : Label} {x : Exch} (hs : s.softReset = false) (he : s.eng = .running op l)
    (hl : l.exch? = some x) : s.waiting = true ∧ engAnswer .err s = exchErr x s := by
  rw [State.waiting_of_running he]
  cases l
  case start | warmup | reconf | ready | copy => cases hl
  all_goals
    cases hl
    exact ⟨rfl, by simp only [engAnswer, hs, he, Bool.false_eq_true, if_false, exchErr]⟩

theorem exchErr_eng (x : Exch) (s : State) : (exchErr x s).eng = .idle := by cases x <;> rfl

/-- A failed exchange ends the op's run, and all further inputs stay. -/
theorem drive_rxErr {s : State} {op : Byte} {l : Label} {x : Exch} (es : List Event) (hs : s.softReset = false)
    (he : s.eng = .running op l) (hl : l.exch? = some x) : drive (rxErr ++ es) s = { exchErr x s with events := es } := by
  obtain ⟨hwait, herr⟩ := engAnswer_err hs he hl
  rw [← herr]
  exact (drive_answer .err es hwait).trans (drive_idle es (by rw [herr, exchErr_eng]))

theorem step_rxErr {s : State} {op : Byte} {l : Label} {x : Exch} {es : List Event} (hr : s.inReset = false)
    (hs : s.softReset = false) (hev : s.events = rxErr ++ es) (he : s.eng = .running op l) (hl : l.exch? = some x) :
    step s = .next { exchErr x s with events := es } := by
  rw [step_answer hr (engAnswer_err hs he hl).1 hev]
  exact congrArg Host.Outcome.next (drive_rxErr es hs he hl)

/-- The error of a block read by its fields (42_block_io.md R204), with what READBYTES (R206) and DIRNEXT (44_directory.md R274)
add to it. -/
theorem blockFail_eq (u : BlockUse) (e : ErrCode) (s : State) : blockFail u e s = { s with
    errLba := s.scratch.lba
    res0 := if u = .readbytes then BitVec.ofNat 32 s.scratch.written else s.res0
    status := { s.status with
      done := true, err := e != .none, errcode := e, errctx := true, bufvalid := false
      dirActive := if u = .dirnext then false else s.status.dirActive }
    dir := if u = .dirnext then s.dir.dropped else s.dir
    donePend := true
    eng := .idle } := by
  cases u <;> rfl

/-- Settles O28: the step is the unit's own answer to TRANSPORT_ERROR. -/
theorem transportErrorEnds : Obligations.TransportErrorEnds := by
  intro s op es hr hs hev
  have hfail {l : Label} {x : Exch} (hl : l.exch? = some x) (he : s.eng = .running op l) :
      step s = .next { exchErr x s with events := es } := step_rxErr hr hs hev he hl
  have hexch {x : Exch}
      (he : s.eng = .running op (.frame x) ∨ s.eng = .running op (.poll x) ∨ s.eng = .running op (.rest x)) :
      step s = .next { exchErr x s with events := es } := he.elim (hfail rfl) (·.elim (hfail rfl) (hfail rfl))
  refine ⟨fun x hx he => ?raw, fun x hx he => ?bringup, fun u he => ?block⟩
  case raw =>
    rw [hexch he]
    rcases hx with rfl | rfl <;> rfl
  case bringup =>
    rw [hexch he]
    rcases hx with rfl | rfl | rfl | rfl | rfl <;> rfl
  case block =>
    have hstep : step s = .next { exchErr (.block u) s with events := es } :=
      he.elim (hfail rfl) (·.elim (hfail rfl) (·.elim (hfail rfl) (hfail rfl)))
    rw [hstep, exchErr, blockFail_eq]
    rfl

/-! ## A wire command without a response (40_command_engine.md R144) -/

/-- The running op after the frame of an exchange and a budget of filler bytes. -/
def State.unanswered (s : State) (x : Exch) (idx : BitVec 6) (arg : Word) : State :=
  s.upd { s.scratch with frame := frameWord idx arg, poll := BitVec.ofNat 8 s.cfg.respBudget.toNat, i := 5 }
    (txExchange idx arg s.cfg.respBudget.toNat) (.poll x)

theorem respBudget_of_ne_resp {x : Exch} (h : x ≠ .resp) (s : State) : respBudget x s = s.cfg.respBudget.toNat := by
  cases x
  case resp => exact absurd rfl h
  all_goals rfl

/-- A wire command goes out where its exchange is next. -/
theorem sendWire_of_ready {at_ : Exch → Bool} {idx : BitVec 6} {arg : Word} {s : State} {op : Byte} {x : Exch}
    (hs : s.softReset = false) (he : s.eng = .running op (.ready x)) (hat : at_ x = true) : sendWire at_ idx arg s =
      .next (exchange s.events (sendFirst x (s.put { s.scratch with frame := frameWord idx arg }))) := by
  simp only [sendWire, he, hat, hs, if_true, Bool.false_eq_true, if_false]

/-- After a spent budget the op is over or stands before the frame of its next attempt. -/
theorem exchNoResp_waiting {s : State} {op : Byte} {l : Label} (he : s.eng = .running op l) (x : Exch) :
    (exchNoResp x s).waiting = false := by
  have hreset : (nextReset s).waiting = false := by
    unfold nextReset
    split
    · exact State.waiting_of_running (l := .ready .reset) (Eng.moveTo_of_running he _)
    · exact State.waiting_of_idle rfl
  have hinit : (nextInit s).waiting = false := by
    unfold nextInit
    split
    · exact State.waiting_of_running (l := .ready .marker) (Eng.moveTo_of_running he _)
    · exact State.waiting_of_idle rfl
  cases x
  case reset => exact hreset
  case marker | activate => exact hinit
  all_goals exact State.waiting_of_idle rfl

/-- The frame of a wire command, then a budget of filler bytes. -/
theorem feed_unanswered {idx : BitVec 6} {arg : Word} {s : State} {op : Byte} {x : Exch} {g : List Byte}
    (hs : s.softReset = false) (hg : g.length = 6) (hb : 1 ≤ s.cfg.respBudget.toNat) (he : s.eng = .running op (.ready x))
    (hsend : x ≠ .send) (hresp : x ≠ .resp) :
    feed (g ++ List.replicate s.cfg.respBudget.toNat 0xFF) (sendFirst x (s.put { s.scratch with frame := frameWord idx arg }))
      = some (exchNoResp x (s.unanswered x idx arg)) := by
  have hbudget := respBudget_of_ne_resp hresp (s.put { s.scratch with frame := frameWord idx arg })
  have hfeed := feed_exchange_none (s := s.put { s.scratch with frame := frameWord idx arg }) g hsend hg he hs
    (by rw [hbudget]; exact s.cfg.respBudget.isLt) (by rw [hbudget]; exact hb)
  rw [hbudget, tx_append] at hfeed
  exact hfeed

/-- A wire command whose budget is spent on filler bytes is its unit's answer to `NoResp`. -/
theorem sendWire_unanswered {at_ : Exch → Bool} {idx : BitVec 6} {arg : Word} {s : State} {op : Byte} {x : Exch} {g : List Byte}
    {es : List Event} (hs : s.softReset = false) (hg : g.length = 6) (hb : 1 ≤ s.cfg.respBudget.toNat)
    (hev : s.events = rx g ++ rx (List.replicate s.cfg.respBudget.toNat 0xFF) ++ es)
    (he : s.eng = .running op (.ready x)) (hat : at_ x = true) (hsend : x ≠ .send) (hresp : x ≠ .resp) :
    sendWire at_ idx arg s = .next { exchNoResp x (s.unanswered x idx arg) with events := es } := by
  rw [sendWire_of_ready hs he hat, hev, ← rx_append, exchange_feed es (feed_unanswered hs hg hb he hsend hresp)]
  exact congrArg Host.Outcome.next (exchange_over es (exchNoResp_waiting (Eng.moveTo_of_running he (.poll x)) x))

section Attempts
variable {s : State} {op : Byte} {l : Label}

theorem nextReset_of_le (h : s.cfg.resetRetries.toNat ≤ s.scratch.attempt.toNat) :
    nextReset s = bringupFail .resetTimeout s := if_neg (Nat.not_lt.mpr h)

theorem nextInit_of_le (h : s.cfg.initRetries.toNat ≤ s.scratch.attempt.toNat) :
    nextInit s = bringupFail .initTimeout s := if_neg (Nat.not_lt.mpr h)

/-- An unanswered exchange is over when the frame of the next one is built. -/
theorem State.unanswered_build (he : s.eng = .running op l) (x y : Exch) (idx idx' : BitVec 6) (arg arg' : Word) (sc : Scratch) :
    ((s.unanswered x idx arg).put sc).build y idx' arg' = { s with
      scratch := { sc with frame := frameWord idx' arg' }
      bus := s.bus ++ txExchange idx arg s.cfg.respBudget.toNat
      eng := .running op (.ready y) } := by
  simp only [State.build, State.put, State.unanswered, State.upd, he, Eng.moveTo_running]

/-- With attempts left, the reset loop stands before CMD0 again (41_bringup.md R173). -/
theorem nextReset_unanswered (he : s.eng = .running op l) (h : s.scratch.attempt.toNat < s.cfg.resetRetries.toNat) (x : Exch)
    (idx : BitVec 6) (arg : Word) : ∃ sc, nextReset (s.unanswered x idx arg) = { s with
      scratch := sc
      bus := s.bus ++ txExchange idx arg s.cfg.respBudget.toNat
      eng := .running op (.ready .reset) } ∧ sc.frame = frameWord 0 0 ∧ sc.attempt = s.scratch.attempt + 1 :=
  ⟨_, (if_pos h).trans (State.unanswered_build he _ _ _ _ _ _ _), rfl, rfl⟩

/-- With attempts left, the initialization loop stands before CMD55 again (41_bringup.md R175). -/
theorem nextInit_unanswered (he : s.eng = .running op l) (h : s.scratch.attempt.toNat < s.cfg.initRetries.toNat) (x : Exch)
    (idx : BitVec 6) (arg : Word) : ∃ sc, nextInit (s.unanswered x idx arg) = { s with
      scratch := sc
      bus := s.bus ++ txExchange idx arg s.cfg.respBudget.toNat
      eng := .running op (.ready .marker) } ∧ sc.frame = frameWord 55 0 ∧ sc.attempt = s.scratch.attempt + 1 :=
  ⟨_, (if_pos h).trans (State.unanswered_build he _ _ _ _ _ _ _), rfl, rfl⟩

end Attempts

/-- Settles O38: the budget is spent alike at every command, and each unit's answer to it is its own. -/
theorem wireNoResponse : Obligations.WireNoResponse := by
  intro s op g es hs hg hb hev
  have hrun {x : Exch} (idx : BitVec 6) (arg : Word) {t : State} (he : s.eng = .running op (.ready x)) (hsend : x ≠ .send)
      (hresp : x ≠ .resp) (hnext : exchNoResp x (s.unanswered x idx arg) = t) :
      sendWire (· == x) idx arg s = .next { t with events := es } :=
    hnext ▸ sendWire_unanswered hs hg hb hev he (beq_self_eq_true x) hsend hresp
  refine ⟨fun he ha => ?reset, fun he ha => ⟨_, (hrun 0 0 he nofun nofun (nextReset_of_le ha) :)⟩,
    fun he ha => ?marker, fun he ha => ⟨_, (hrun 55 0 he nofun nofun (nextInit_of_le ha) :)⟩,
    fun he ha => ?activate, fun he ha => ⟨_, (hrun 41 0x40000000 he nofun nofun (nextInit_of_le ha) :)⟩,
    fun he => ⟨_, (hrun 8 0x1AA he nofun nofun rfl :)⟩, fun he => ⟨_, (hrun 58 0 he nofun nofun rfl :)⟩⟩
  case reset =>
    obtain ⟨sc, hnext, hsc⟩ := nextReset_unanswered he ha .reset 0 0
    exact ⟨sc, hrun 0 0 he nofun nofun hnext, hsc⟩
  case marker =>
    obtain ⟨sc, hnext, hsc⟩ := nextInit_unanswered he ha .marker 55 0
    exact ⟨sc, hrun 55 0 he nofun nofun hnext, hsc⟩
  case activate =>
    obtain ⟨sc, hnext, hsc⟩ := nextInit_unanswered he ha .activate 41 0x40000000
    exact ⟨sc, hrun 41 0x40000000 he nofun nofun hnext, hsc⟩

end Sys2Proof.Machine
end

section
/-! The Command/Response Engine (40_command_engine.md): the layout of a command frame (R142), SENDCMD (R150) and READRESP (R151)
end to end. -/

namespace Sys2Proof.Machine

/-! ## The bytes of a frame (30_encoding.md R110, R111) -/

/-- A byte of the argument is that byte of the frame above the checksum. -/
theorem frameWord_argByte (idx : BitVec 6) (arg : Word) {i : Nat} (h : i + 8 ≤ 32) :
    (frameWord idx arg).extractLsb' (i + 8) 8 = (arg >>> i).setWidth 8 := by
  rw [BitVec.setWidth_ushiftRight_eq_extractLsb]
  exact extractLsb'_append_above (BitVec.extractLsb'_append_eq_of_add_le h)

/-- The first byte of a frame: the start bits 01 above the index. -/
theorem frameWord_firstByte (idx : BitVec 6) (arg : Word) :
    (frameWord idx arg).extractLsb' 40 8 = 0x40 ||| idx.setWidth 8 := by
  have hstart : 1#2 ++ idx = (0x40 : Byte) ||| idx.setWidth 8 := by
    revert idx
    decide
  rw [← hstart]
  exact extractLsb'_append_above (extractLsb'_append_above BitVec.extractLsb'_eq_self)

/-- Settles O5: byte by byte, the checksum by its table. -/
theorem frameLayout : Obligations.FrameLayout := by
  refine ⟨fun idx arg => ?_, rfl, rfl, fun idx h0 h8 => by rw [checksum, if_neg h0, if_neg h8]⟩
  simp only [frameBytes, frameByte, Nat.reduceMul, Nat.reduceSub]
  rw [frameWord_firstByte, frameWord_argByte idx arg (i := 24) (by decide), frameWord_argByte idx arg (i := 16) (by decide),
    frameWord_argByte idx arg (i := 8) (by decide), frameWord_argByte idx arg (i := 0) (by decide), BitVec.ushiftRight_zero,
    frameWord_checksum]

/-- The first bytes of a frame, by their indices. -/
theorem frameBytes_take (f : BitVec 48) {n : Nat} (h : n ≤ 5) :
    (frameBytes f).take (n + 1) = frameByte f 0 :: (List.range' 1 n).map (frameByte f) := by
  have hbytes : frameBytes f = (List.range 6).map (frameByte f) := rfl
  rw [hbytes, ← List.map_take, List.take_range, Nat.min_eq_left (by omega), List.range_eq_range', List.range'_succ,
    List.map_cons]

/-! ## SENDCMD (40_command_engine.md R150) -/

theorem State.CanIssue.softReset {s : State} (h : s.CanIssue) : s.softReset = false := h.2.1

theorem startSendcmd_of_argsOk {s : State} (h : s.a0.toNat ≤ 63) :
    startSendcmd s = s.build .send (s.a0.extractLsb' 0 6) s.a1 :=
  if_pos (decide_eq_true h)

/-- An op whose own step ends before a frame goes on to the frame's first byte. -/
theorem launch_sendFirst {s : State} {op : Byte} {x : Exch} (h : s.CanIssue) (hp : Prompt s.events)
    (hr : (startOp op (s.issue op)).eng = .running op (.ready x)) (hs : (startOp op (s.issue op)).softReset = false) :
    launch op s = .next (drive s.events (sendFirst x (startOp op (s.issue op)))) := by
  obtain ⟨hidle, hsoft, hheld⟩ := h
  have hsettle : settle (s.issue op) = sendFirst x (startOp op (s.issue op)) := by
    rw [settle_start (s := s.issue op) rfl hsoft, internalRun_ready hr hs]
  have hwait : (settle (s.issue op)).internal = false := by
    rw [hsettle]
    exact State.internal_of_running (l := .frame x) (by rw [sendFirst, State.ask_eng, hr, Eng.moveTo_running])
  rw [launch_issue op hidle hsoft hheld, drive_prompt hp hwait, hsettle]

/-- A SENDCMD with its argument in range waits for the exchange of its first frame byte, over any inputs. -/
theorem exec_sendcmd {s : State} (h : s.CanIssue) (ha : s.arg0.toNat ≤ 63) (hp : Prompt s.events) :
    exec .sendcmd s
      = .next (drive s.events (sendFirst .send ((s.issue 0x03).build .send (s.arg0.extractLsb' 0 6) s.arg1))) := by
  have hstart : startOp 0x03 (s.issue 0x03) = (s.issue 0x03).build .send (s.arg0.extractLsb' 0 6) s.arg1 :=
    (startOp_of_legal rfl).trans (startSendcmd_of_argsOk ha)
  have hrun := launch_sendFirst (op := 0x03) (x := .send) h hp (by rw [hstart]; rfl) (by rw [hstart]; exact h.softReset)
  rw [hstart] at hrun
  exact hrun

/-- Settles O24: the whole frame goes out, and SENDCMD returns. -/
theorem sendcmdCompletes : Obligations.SendcmdCompletes := by
  intro s g es h ha hg he
  have hp : Prompt s.events := by
    rw [he]
    match g, hg with
    | b :: g, _ => exact prompt_rx_cons b g es
  have hfeed := feed_sendFirst (s := (s.issue 0x03).build .send (s.arg0.extractLsb' 0 6) s.arg1) (op := 0x03) (x := .send)
    g hg rfl h.softReset
  rw [exec_sendcmd h ha hp, he, drive_feed es hfeed, frameSent, drive_idle es rfl]
  exact ⟨_, rfl⟩

/-- The answers to some of a frame's bytes (40_command_engine.md R141): the byte after each of them is sent. -/
theorem feed_frame_bytes {op : Byte} {x : Exch} : ∀ (g : List Byte) (s : State), s.eng = .running op (.frame x) →
    s.softReset = false → s.scratch.i.toNat + g.length ≤ 5 →
    feed g s = some (s.upd { s.scratch with i := s.scratch.i + BitVec.ofNat 16 g.length }
      (tx ((List.range' (s.scratch.i.toNat + 1) g.length).map (frameByte s.scratch.frame))) (.frame x))
  | [], s, he, _, _ => by
    rw [List.length_nil, add_zero_count, List.range'_zero, List.map_nil, tx_nil, ← State.put_eq_upd s _ _ he]
    rfl
  | b :: g, s, he, hs, hi => by
    rw [List.length_cons] at hi
    have hstep : engAnswer (.ok b) s = s.ask { s.scratch with i := s.scratch.i + 1 }
        (.xfer (frameByte s.scratch.frame (s.scratch.i.toNat + 1))) (.frame x) := by
      simp only [engAnswer, hs, he, frameStep, if_pos (show s.scratch.i.toNat < 5 by omega), Bool.false_eq_true, if_false]
    have hi1 : (s.scratch.i + 1).toNat = s.scratch.i.toNat + 1 := toNat_add_one (n := 5) (by omega) (by decide)
    rw [feed_cons _ _ (State.waiting_of_running he), hstep, feed_frame_bytes (op := op) (x := x) g _
      (by rw [State.ask_eng, he, Eng.moveTo_running]) (by rw [State.ask_softReset, hs])
      (by rw [State.ask_scratch, hi1]; omega)]
    simp only [State.ask_eq_upd, State.upd_upd, State.upd_scratch, add_one_add, hi1, List.length_cons, List.range'_succ,
      List.map_cons, tx_cons, List.singleton_append]

/-- The answers to the first of a frame's bytes, from its first byte on. -/
theorem feed_sendFirst_bytes {s : State} {op : Byte} {x : Exch} {g : List Byte} (hg : g.length ≤ 5)
    (he : s.eng = .running op (.ready x)) (hs : s.softReset = false) :
    feed g (sendFirst x s) = some (s.upd { s.scratch with i := BitVec.ofNat 16 g.length }
      (tx ((frameBytes s.scratch.frame).take (g.length + 1))) (.frame x)) := by
  rw [feed_frame_bytes (op := op) (x := x) g _ (by rw [sendFirst, State.ask_eng, he, Eng.moveTo_running])
    (by rw [sendFirst, State.ask_softReset, hs]) (by simpa [sendFirst] using hg), frameBytes_take _ hg]
  simp [sendFirst, State.ask_eq_upd]

/-- Settles O25: the frame bytes up to the failing one go out, and the failure ends SENDCMD. -/
theorem sendcmdStops : Obligations.SendcmdStops := by
  intro s g es h ha hg he
  rw [List.append_assoc] at he
  have hp : Prompt s.events := by
    rw [he]
    exact prompt_rx g (show Prompt (rxErr ++ es) from trivial)
  have hfeed := feed_sendFirst_bytes (s := (s.issue 0x03).build .send (s.arg0.extractLsb' 0 6) s.arg1) (op := 0x03) (x := .send)
    hg rfl h.softReset
  rw [exec_sendcmd h ha hp, he, drive_feed _ hfeed,
    drive_rxErr (op := 0x03) (l := .frame .send) es (by exact h.softReset) (by rfl) rfl]
  exact ⟨_, rfl⟩

/-! ## READRESP (40_command_engine.md R151) -/

theorem startReadresp_of_argsOk {s : State} (h1 : 1 ≤ s.a0.toNat) (h5 : s.a0.toNat ≤ 5) (hb : s.a1.toNat ≤ 255) :
    startReadresp s = startPoll .resp s :=
  if_pos (by rw [readrespArgsOk, decide_eq_true h1, decide_eq_true h5, decide_eq_true hb]; rfl)

/-- A READRESP with its arguments in range waits for its first poll. -/
theorem exec_readresp {s : State} (h : s.CanIssue) (h1 : 1 ≤ s.arg0.toNat) (h5 : s.arg0.toNat ≤ 5) (hb : s.arg1.toNat ≤ 255)
    (hp : Prompt s.events) : exec .readresp s = .next (drive s.events (startPoll .resp (s.issue 0x04))) := by
  obtain ⟨hidle, hsoft, hheld⟩ := h
  have hstart : startOp 0x04 (s.issue 0x04) = startPoll .resp (s.issue 0x04) :=
    (startOp_of_legal rfl).trans (startReadresp_of_argsOk h1 h5 hb)
  have hrun : drive s.events (s.issue 0x04) = drive s.events (startOp 0x04 (s.issue 0x04)) :=
    drive_start_waiting rfl hsoft hp (by rw [hstart]; rfl)
  rw [hstart] at hrun
  exact (launch_issue 0x04 hidle hsoft hheld).trans (congrArg Host.Outcome.next hrun)

theorem respBudget_resp (s : State) : respBudget .resp s = if s.a1 = 0 then s.cfg.respBudget.toNat else s.a1.toNat := rfl

/-- The budget of a READRESP with its arguments in range fits the poll counter. -/
theorem respBudget_resp_lt {s : State} (hb : s.a1.toNat ≤ 255) : respBudget .resp s < 2 ^ 8 := by
  rw [respBudget_resp]
  split
  · exact s.cfg.respBudget.isLt
  · omega

/-- A byte of READRESP's result is that byte of the response, and 0 beyond it. -/
theorem respByte_of_fillResp {s : State} {v : Vector Byte 5} {r : List Byte} (hresp : s.scratch.resp = fillResp v 0 r)
    (hr : r.length = s.a0.toNat) (h5 : s.a0.toNat ≤ 5) (j : Nat) : respByte s j = r.getD j 0 := by
  unfold respByte
  split
  next hj => rw [hresp, fillResp_getD _ _ _ _ (by omega), if_pos (by omega), Nat.sub_zero]
  next hj => rw [List.getD_eq_default _ _ (by omega)]

/-- The result of a READRESP by the bytes of its response and its polls. -/
theorem finishReadresp_of_fillResp {s : State} {v : Vector Byte 5} {r : List Byte} {n : Nat}
    (hresp : s.scratch.resp = fillResp v 0 r) (hr : r.length = s.a0.toNat) (h5 : s.a0.toNat ≤ 5)
    (hpoll : s.scratch.poll = BitVec.ofNat 8 n) (hn : n < 2 ^ 8) : finishReadresp s = { s with
      res0 := wordOfBytes (r.getD 0 0) (r.getD 1 0) (r.getD 2 0) (r.getD 3 0)
      res1 := (r.getD 4 0).setWidth 32
      res2 := BitVec.ofNat 32 n }.complete .none := by
  have hres2 : s.scratch.poll.setWidth 32 = BitVec.ofNat 32 n := by
    rw [hpoll, BitVec.setWidth_ofNat_of_le_of_lt (by decide) hn]
  simp only [finishReadresp, respByte_of_fillResp hresp hr h5, hres2]

/-- Settles O26: the polls drop the filler, and the response fills RES0 and RES1. -/
theorem readrespCompletes : Obligations.ReadrespCompletes := by
  intro s p b r es h h1 h5 ha hp hb hr he
  have hprompt : Prompt s.events := by
    rw [he, List.append_assoc]
    exact prompt_rx _ (prompt_rx_cons b r es)
  have hbudget : p < respBudget .resp (s.issue 0x04) := hp
  have hlt : respBudget .resp (s.issue 0x04) < 2 ^ 8 := respBudget_resp_lt ha
  obtain ⟨l, hfeed⟩ := feed_poll (op := 0x04) (x := .resp) b r hb p (startPoll .resp (s.issue 0x04)) rfl h.softReset
    hlt (show s.arg0.toNat < 2 ^ 16 by omega) (show 1 + p ≤ respBudget .resp (s.issue 0x04) by omega) hr
  have hbus : [Txn.xfer 0xFF] ++ tx (List.replicate (p + r.length) 0xFF) = tx (List.replicate (p + s.arg0.toNat) 0xFF) := by
    rw [← hr, ← Nat.add_assoc, List.replicate_succ, tx_cons]
    rfl
  rw [exec_readresp h h1 h5 ha hprompt, he, ← rx_append, drive_feed es hfeed, exchGot,
    finishReadresp_of_fillResp (r := b :: r) (n := p + 1) rfl hr h5 (one_add_count 8 p) (by omega), drive_idle es rfl, ← hbus,
    ← List.append_assoc]
  exact ⟨_, rfl⟩

/-- Settles O27: the polls spend the budget, and the last of them ends READRESP. -/
theorem readrespNoResponse : Obligations.ReadrespNoResponse := by
  intro s n es h h1 h5 ha hn hn1 he
  obtain ⟨m, rfl⟩ : ∃ m, n = m + 1 := ⟨n - 1, by omega⟩
  have hprompt : Prompt s.events := by
    rw [he]
    exact prompt_rx_cons _ _ es
  have hfeed := feed_filler (op := 0x04) (x := .resp) m (startPoll .resp (s.issue 0x04)) rfl h.softReset (respBudget_resp_lt ha)
    ((Nat.add_comm 1 m).trans hn)
  rw [exec_readresp h h1 h5 ha hprompt, he, drive_feed es hfeed, exchNoResp, drive_idle es rfl, List.replicate_succ, tx_cons,
    List.append_cons]
  exact ⟨_, rfl⟩

end Sys2Proof.Machine
end

section
/-! Bring-up (41_bringup.md): what each response of its commands leads to, said once, and from it the wire commands one by one
and BRINGUP end to end; SPEEDUP. -/

namespace Sys2Proof.Machine

/-! ## An exchange with a response (40_command_engine.md R141, R143) -/

/-- The bytes of a reply in the order in which they come. -/
def Reply.received (r : Reply) : List Byte := r.ignored ++ (List.replicate r.fillers 0xFF ++ r.bytes)

theorem Reply.inputs_eq (r : Reply) : r.inputs = rx r.received := rxExchange_eq _ _ _

/-- The counters and locals after the frame of an exchange and a reply to it. -/
def Scratch.answered (sc : Scratch) (idx : BitVec 6) (arg : Word) (r : Reply) : Scratch :=
  { sc with
    frame := frameWord idx arg
    poll := BitVec.ofNat 8 (r.fillers + 1)
    resp := fillResp sc.resp 0 r.bytes
    i := BitVec.ofNat 16 r.bytes.length }

/-- The running op after the frame of an exchange and a reply to it. -/
def State.answered (s : State) (idx : BitVec 6) (arg : Word) (r : Reply) (l : Label) : State :=
  s.upd (s.scratch.answered idx arg r) (txExchange idx arg r.polled) l

@[simp] theorem State.answered_params (s : State) (idx : BitVec 6) (arg : Word) (r : Reply) (l : Label) :
    (s.answered idx arg r l).params = s.params := rfl

/-- The responses of the listed commands have one to five bytes (30_encoding.md R112). -/
theorem respCount_bounds {x : Exch} (h : x ≠ .resp) (s : State) : 1 ≤ respCount x s ∧ respCount x s ≤ 5 := by
  cases x
  case resp => exact absurd rfl h
  all_goals simp [respCount]

section Exchange
variable {s t : State} {op : Byte} {x : Exch} {idx : BitVec 6} {arg : Word} {r : Reply} {es : List Event}

/-- The frame of a command, then a reply within the budget. -/
theorem feed_reply (hs : s.softReset = false) (he : s.eng = .running op (.ready x)) (hsend : x ≠ .send) (hresp : x ≠ .resp)
    (hfit : r.Fits s.cfg.respBudget.toNat (respCount x s)) :
    ∃ l, feed r.received (sendFirst x (s.put { s.scratch with frame := frameWord idx arg }))
      = some (exchGot x (s.answered idx arg r l)) := by
  obtain ⟨g, p, bytes⟩ := r
  obtain ⟨hg, hp, hlen, hfirst⟩ := hfit
  obtain ⟨hpos, hmax⟩ := respCount_bounds hresp s
  have hcount : respCount x (s.put { s.scratch with frame := frameWord idx arg }) = respCount x s := by cases x <;> rfl
  have hbudget := respBudget_of_ne_resp hresp (s.put { s.scratch with frame := frameWord idx arg })
  match bytes with
  | [] =>
    rw [← hlen] at hpos
    exact absurd hpos (Nat.not_succ_le_zero 0)
  | b :: bs =>
    obtain ⟨l, hfeed⟩ := feed_exchange (s := s.put { s.scratch with frame := frameWord idx arg }) g p b bs hsend hg hfirst he hs
      (by rw [hbudget]; exact s.cfg.respBudget.isLt) (by rw [hcount]; omega) (by rw [hbudget]; exact hp) (hlen.trans hcount.symm)
    rw [tx_append] at hfeed
    exact ⟨l, hfeed⟩

/-- A wire command with its reply is its unit's answer to the response. -/
theorem sendWire_reply (hs : s.softReset = false) (he : s.eng = .running op (.ready x)) (hsend : x ≠ .send) (hresp : x ≠ .resp)
    (hfit : r.Fits s.cfg.respBudget.toNat (respCount x s)) (hev : s.events = r.inputs ++ es)
    (hgot : ∀ l, exchGot x (s.answered idx arg r l) = t) (hover : t.waiting = false) :
    sendWire (· == x) idx arg s = .next { t with events := es } := by
  obtain ⟨l, hfeed⟩ := feed_reply (idx := idx) (arg := arg) hs he hsend hresp hfit
  rw [hgot] at hfeed
  rw [sendWire_of_ready (at_ := (· == x)) hs he (beq_self_eq_true x), hev, r.inputs_eq, exchange_feed es hfeed,
    exchange_over es hover]

theorem State.put_frame_self (h : s.scratch.frame = frameWord idx arg) :
    s.put { s.scratch with frame := frameWord idx arg } = s := by
  rw [← h]
  rfl

/-- An op that stands before a command goes on with the response. -/
theorem drive_reply (hs : s.softReset = false) (he : s.eng = .running op (.ready x)) (hsend : x ≠ .send) (hresp : x ≠ .resp)
    (hframe : s.scratch.frame = frameWord idx arg) (hfit : r.Fits s.cfg.respBudget.toNat (respCount x s))
    (hgot : ∀ l, exchGot x (s.answered idx arg r l) = t) : drive (r.inputs ++ es) s = drive es t := by
  have hne : r.received ≠ [] := List.append_ne_nil_of_left_ne_nil (List.ne_nil_of_length_eq_add_one hfit.1) _
  obtain ⟨l, hfeed⟩ := feed_reply (idx := idx) (arg := arg) hs he hsend hresp hfit
  rw [hgot, State.put_frame_self hframe] at hfeed
  rw [r.inputs_eq, drive_ready he hs hne hfeed]

end Exchange

/-! ## The response by its bytes (40_command_engine.md R145 to R148) -/

section Response
variable {s : State} {idx : BitVec 6} {arg : Word} {r : Reply} {l : Label} {b n : Nat}

theorem State.answered_resp (hfit : r.Fits b n) (hn : n ≤ 5) {j : Nat} (hj : j < n) :
    (s.answered idx arg r l).scratch.resp[j] = r.byte j := by
  obtain ⟨-, -, hlen, -⟩ := hfit
  have hget (v : Vector Byte 5) : v[j] = v.getD j 0 := by simp [Vector.getD, Nat.lt_of_lt_of_le hj hn]
  have hfill := fillResp_getD r.bytes s.scratch.resp 0 j (by omega)
  rw [if_pos (by omega)] at hfill
  exact (hget _).trans hfill

theorem isIdle_answered {v : Bool} (hfit : r.Fits b n) (h0 : (r.byte 0).getLsbD 0 = v) (hn : n ≤ 5 := by decide)
    (hpos : 0 < n := by decide) : isIdle (s.answered idx arg r l).scratch.resp[0] = v := by
  rw [State.answered_resp hfit hn hpos, isIdle, h0]

theorem ifaceMatches_answered (hfit : r.Fits b 5) (p : Params) : ifaceMatches p (s.answered idx arg r l).scratch.resp
    = ((r.byte 0).getLsbD 0 && (r.byte 3).extractLsb' 0 4 == p.cmd8Vhs && r.byte 4 == p.cmd8Pattern) := by
  rw [ifaceMatches, isIdle_answered hfit rfl, State.answered_resp hfit (by decide) (by decide),
    State.answered_resp hfit (by decide) (by decide)]

theorem extractOcr_answered (hfit : r.Fits b 5) :
    extractOcr (s.answered idx arg r l).scratch.resp = be32 (r.byte 1) (r.byte 2) (r.byte 3) (r.byte 4) := by
  rw [extractOcr, State.answered_resp hfit (by decide) (by decide), State.answered_resp hfit (by decide) (by decide),
    State.answered_resp hfit (by decide) (by decide), State.answered_resp hfit (by decide) (by decide)]

end Response

/-! ## From one command of bring-up to the next -/

/-- The running op before its next command, with a status, counters and locals, and requests made since `s`. -/
def State.beforeCommand (s : State) (op : Byte) (x : Exch) (st : Status) (sc : Scratch) (ts : List Txn) : State :=
  { s with status := st, scratch := sc, bus := s.bus ++ ts, eng := .running op (.ready x) }

theorem State.build_of_running {s : State} {op : Byte} {l : Label} (he : s.eng = .running op l) (x : Exch) (idx : BitVec 6)
    (arg : Word) : s.build x idx arg = { s with
      scratch := { s.scratch with frame := frameWord idx arg }
      eng := .running op (.ready x) } := by
  rw [State.build, he, Eng.moveTo_running]

/-- BRINGUP over with an error after a reply to its last command (41_bringup.md R181). -/
def State.failedAfter (s : State) (e : ErrCode) (idx : BitVec 6) (arg : Word) (r : Reply) : State :=
  { s with
    status := { s.status with stage := .failed, done := true, err := e != .none, errcode := e }
    donePend := true
    scratch := s.scratch.answered idx arg r
    bus := s.bus ++ txExchange idx arg r.polled
    eng := .idle }

/-- BRINGUP over, the card Ready, after a reply to its last command (41_bringup.md R178, R179). -/
def State.readyAfter (s : State) (hc : Bool) (idx : BitVec 6) (arg : Word) (r : Reply) : State :=
  { s with
    status := { s.status with stage := .ready, hc := hc, done := true, err := false, errcode := .none }
    blockSize := if hc then 512 else BitVec.ofNat 32 s.params.stdBlockSize
    donePend := true
    scratch := s.scratch.answered idx arg r
    bus := s.bus ++ txExchange idx arg r.polled
    eng := .idle }

section Got
variable {s : State} {op : Byte} {l₀ l : Label} {idx : BitVec 6} {arg : Word} {r : Reply} {b : Nat}

theorem nextReset_of_lt (he : s.eng = .running op l₀) (h : s.scratch.attempt.toNat < s.cfg.resetRetries.toNat) :
    nextReset (s.answered idx arg r l) = s.beforeCommand op .reset s.status { s.scratch.answered idx arg r with
      attempt := s.scratch.attempt + 1, frame := frameWord 0 0 } (txExchange idx arg r.polled) :=
  (if_pos h).trans (State.build_of_running (Eng.moveTo_of_running he l) ..)

theorem nextInit_of_lt (he : s.eng = .running op l₀) (h : s.scratch.attempt.toNat < s.cfg.initRetries.toNat) :
    nextInit (s.answered idx arg r l) = s.beforeCommand op .marker s.status { s.scratch.answered idx arg r with
      attempt := s.scratch.attempt + 1, frame := frameWord 55 0 } (txExchange idx arg r.polled) :=
  (if_pos h).trans (State.build_of_running (Eng.moveTo_of_running he l) ..)

theorem nextReset_of_last (h : s.cfg.resetRetries.toNat ≤ s.scratch.attempt.toNat) :
    nextReset (s.answered idx arg r l) = s.failedAfter .resetTimeout idx arg r := nextReset_of_le h

theorem nextInit_of_last (h : s.cfg.initRetries.toNat ≤ s.scratch.attempt.toNat) :
    nextInit (s.answered idx arg r l) = s.failedAfter .initTimeout idx arg r := nextInit_of_le h

theorem enterReady_answered (hc : Bool) (st : Stage) :
    enterReady hc ((s.answered idx arg r l).setStage st) = s.readyAfter hc idx arg r := by
  cases hc <;> rfl

/-- An idle R1 of CMD0: Reset, and CMD8 is next (41_bringup.md R173, R174). -/
theorem gotReset_of_idle (he : s.eng = .running op l₀) (hfit : r.Fits b 1) (h0 : (r.byte 0).getLsbD 0 = true) :
    gotReset (s.answered idx arg r l) = s.beforeCommand op .iface { s.status with stage := .reset }
      { s.scratch.answered idx arg r with
        frame := frameWord 8 (0#20 ++ s.params.cmd8Vhs ++ s.params.cmd8Pattern : BitVec (20 + 4 + 8)) }
      (txExchange idx arg r.polled) :=
  (if_pos (isIdle_answered hfit h0)).trans (State.build_of_running (Eng.moveTo_of_running he l) ..)

theorem gotReset_of_not_idle (hfit : r.Fits b 1) (h0 : (r.byte 0).getLsbD 0 = false) :
    gotReset (s.answered idx arg r l) = nextReset (s.answered idx arg r l) :=
  if_neg (ne_true_of_eq_false (isIdle_answered hfit h0))

/-- The card passes the interface check: V2 = 1, and CMD55 is next (41_bringup.md R174, R175). -/
theorem gotIface_of_match (he : s.eng = .running op l₀) (hfit : r.Fits b 5) (h0 : (r.byte 0).getLsbD 0 = true)
    (hvhs : (r.byte 3).extractLsb' 0 4 = s.params.cmd8Vhs) (hpat : r.byte 4 = s.params.cmd8Pattern) :
    gotIface (s.answered idx arg r l) = s.beforeCommand op .marker { s.status with v2 := true, stage := .versionChecked }
      { s.scratch.answered idx arg r with attempt := 1, frame := frameWord 55 0 } (txExchange idx arg r.polled) := by
  have hv2 : ifaceMatches (s.answered idx arg r l).params (s.answered idx arg r l).scratch.resp = true := by
    rw [ifaceMatches_answered hfit, h0, hvhs, hpat, State.answered_params, beq_self_eq_true, beq_self_eq_true]
    rfl
  rw [gotIface, hv2]
  exact (if_pos rfl).trans (State.build_of_running (Eng.moveTo_of_running he l) ..)

/-- The card fails the interface check: V2 = 0, and CMD58 is next (41_bringup.md R174, R177). -/
theorem gotIface_of_mismatch (he : s.eng = .running op l₀) (hfit : r.Fits b 5)
    (h : (r.byte 0).getLsbD 0 = false ∨ (r.byte 3).extractLsb' 0 4 ≠ s.params.cmd8Vhs ∨ r.byte 4 ≠ s.params.cmd8Pattern) :
    gotIface (s.answered idx arg r l) = s.beforeCommand op .ocr { s.status with v2 := false, stage := .versionChecked }
      { s.scratch.answered idx arg r with frame := frameWord 58 0 } (txExchange idx arg r.polled) := by
  have hv2 : ifaceMatches (s.answered idx arg r l).params (s.answered idx arg r l).scratch.resp = false := by
    rw [ifaceMatches_answered hfit, State.answered_params]
    rcases h with h | h | h
    · rw [h]; rfl
    · rw [beq_eq_false_iff_ne.mpr h, Bool.and_false, Bool.false_and]
    · rw [beq_eq_false_iff_ne.mpr h, Bool.and_false]
  rw [gotIface, hv2]
  exact (if_neg Bool.false_ne_true).trans (State.build_of_running (Eng.moveTo_of_running he l) ..)

/-- An idle R1 of CMD55: ACMD41 is next (41_bringup.md R175). -/
theorem gotMarker_of_idle (he : s.eng = .running op l₀) (hfit : r.Fits b 1) (h0 : (r.byte 0).getLsbD 0 = true) :
    gotMarker (s.answered idx arg r l) = s.beforeCommand op .activate s.status
      { s.scratch.answered idx arg r with frame := frameWord 41 s.params.acmd41Arg } (txExchange idx arg r.polled) :=
  (if_pos (isIdle_answered hfit h0)).trans (State.build_of_running (Eng.moveTo_of_running he l) ..)

theorem gotMarker_of_not_idle (hfit : r.Fits b 1) (h0 : (r.byte 0).getLsbD 0 = false) :
    gotMarker (s.answered idx arg r l) = nextInit (s.answered idx arg r l) :=
  if_neg (ne_true_of_eq_false (isIdle_answered hfit h0))

theorem gotActivate_of_idle (hfit : r.Fits b 1) (h0 : (r.byte 0).getLsbD 0 = true) :
    gotActivate (s.answered idx arg r l) = nextInit (s.answered idx arg r l) :=
  if_pos (isIdle_answered hfit h0)

/-- The card is initialized and passed the interface check: CMD58 is next (41_bringup.md R176). -/
theorem gotActivate_of_v2 (he : s.eng = .running op l₀) (hfit : r.Fits b 1) (h0 : (r.byte 0).getLsbD 0 = false)
    (hv2 : s.status.v2 = true) : gotActivate (s.answered idx arg r l) =
      s.beforeCommand op .ocr { s.status with stage := .voltageNegotiated }
        { s.scratch.answered idx arg r with frame := frameWord 58 0 } (txExchange idx arg r.polled) :=
  (if_neg (ne_true_of_eq_false (isIdle_answered hfit h0))).trans
    ((if_pos hv2).trans (State.build_of_running (Eng.moveTo_of_running he l) ..))

/-- The card is initialized and failed the interface check: it is Ready (41_bringup.md R177). -/
theorem gotActivate_of_legacy (hfit : r.Fits b 1) (h0 : (r.byte 0).getLsbD 0 = false) (hv2 : s.status.v2 = false) :
    gotActivate (s.answered idx arg r l) = s.readyAfter false idx arg r :=
  (if_neg (ne_true_of_eq_false (isIdle_answered hfit h0))).trans
    ((if_neg (ne_true_of_eq_false hv2)).trans (enterReady_answered ..))

/-- The capacity class by OCR bit 30 (41_bringup.md R176). -/
theorem gotOcr_of_v2 (hfit : r.Fits b 5) (hv2 : s.status.v2 = true) :
    gotOcr (s.answered idx arg r l) = s.readyAfter ((r.byte 1).getLsbD 6) idx arg r := by
  rw [← isHighCapacity_be32 (r.byte 1) (r.byte 2) (r.byte 3) (r.byte 4),
    ← extractOcr_answered (s := s) (idx := idx) (arg := arg) (l := l) hfit]
  exact (if_pos hv2).trans (enterReady_answered _ s.status.stage)

/-- The voltage advisory by OCR bits 23:15, and CMD55 is next (41_bringup.md R177). -/
theorem gotOcr_of_legacy (he : s.eng = .running op l₀) (hfit : r.Fits b 5) (h0 : (r.byte 0).getLsbD 0 = true)
    (hv2 : s.status.v2 = false) : gotOcr (s.answered idx arg r l) =
      s.beforeCommand op .marker { s.status with voltWarn := r.byte 2 == 0 && !(r.byte 3).getLsbD 7 }
        { s.scratch.answered idx arg r with attempt := 1, frame := frameWord 55 0 } (txExchange idx arg r.polled) := by
  rw [← not_hasAcceptableVoltage_be32 (r.byte 1) (r.byte 2) (r.byte 3) (r.byte 4), ← extractOcr_answered hfit]
  exact (if_neg (ne_true_of_eq_false hv2)).trans
    ((if_pos (isIdle_answered hfit h0)).trans (State.build_of_running (Eng.moveTo_of_running he l) ..))

theorem gotOcr_of_rejected (hfit : r.Fits b 5) (h0 : (r.byte 0).getLsbD 0 = false) (hv2 : s.status.v2 = false) :
    gotOcr (s.answered idx arg r l) = s.failedAfter .voltageRejected idx arg r :=
  (if_neg (ne_true_of_eq_false hv2)).trans
    (if_neg (ne_true_of_eq_false (isIdle_answered hfit h0)))

end Got

/-! ## The wire commands of bring-up -/

/-- Settles O33: an idle R1 is Reset, any other a failed attempt. -/
theorem cmd0 : Obligations.Cmd0 := by
  intro s op r es hs he hfit hev
  have hrun {t : State} (hgot : ∀ l, gotReset (s.answered 0 0 r l) = t) (hover : t.waiting = false) :
      exec .cmd0 s = .next { t with events := es } := sendWire_reply hs he nofun nofun hfit hev hgot hover
  refine ⟨fun h0 => ?idle, fun h0 ha => ?next, fun h0 ha => ?last⟩
  case idle => exact ⟨_, (hrun (fun _ => gotReset_of_idle he hfit h0) rfl :), rfl⟩
  case next => exact ⟨_, (hrun (fun _ => (gotReset_of_not_idle hfit h0).trans (nextReset_of_lt he ha)) rfl :), rfl, rfl⟩
  case last => exact ⟨_, (hrun (fun _ => (gotReset_of_not_idle hfit h0).trans (nextReset_of_last ha)) rfl :)⟩

/-- Settles O34: the R7 passes the check or fails it. -/
theorem cmd8 : Obligations.Cmd8 := by
  intro s op r es hs he hfit hev
  have hrun {t : State} (hgot : ∀ l, gotIface (s.answered 8 0x1AA r l) = t) (hover : t.waiting = false) :
      exec .cmd8 s = .next { t with events := es } := sendWire_reply hs he nofun nofun hfit hev hgot hover
  exact ⟨fun h0 hvhs hpat => ⟨_, (hrun (fun _ => gotIface_of_match he hfit h0 hvhs hpat) rfl :), rfl, rfl⟩,
    fun h => ⟨_, (hrun (fun _ => gotIface_of_mismatch he hfit h) rfl :), rfl⟩⟩

/-- Settles O35: an idle R1 goes on to ACMD41, any other is a failed attempt. -/
theorem cmd55 : Obligations.Cmd55 := by
  intro s op r es hs he hfit hev
  have hrun {t : State} (hgot : ∀ l, gotMarker (s.answered 55 0 r l) = t) (hover : t.waiting = false) :
      exec .cmd55 s = .next { t with events := es } := sendWire_reply hs he nofun nofun hfit hev hgot hover
  refine ⟨fun h0 => ?idle, fun h0 ha => ?next, fun h0 ha => ?last⟩
  case idle => exact ⟨_, (hrun (fun _ => gotMarker_of_idle he hfit h0) rfl :), rfl, rfl⟩
  case next => exact ⟨_, (hrun (fun _ => (gotMarker_of_not_idle hfit h0).trans (nextInit_of_lt he ha)) rfl :), rfl, rfl⟩
  case last => exact ⟨_, (hrun (fun _ => (gotMarker_of_not_idle hfit h0).trans (nextInit_of_last ha)) rfl :)⟩

/-- Settles O36: an R1 that is not idle ends the initialization, by V2; an idle one is a failed attempt. -/
theorem acmd41 : Obligations.Acmd41 := by
  intro s op r es hs he hfit hev
  have hrun {t : State} (hgot : ∀ l, gotActivate (s.answered 41 0x40000000 r l) = t) (hover : t.waiting = false) :
      exec .acmd41 s = .next { t with events := es } := sendWire_reply hs he nofun nofun hfit hev hgot hover
  refine ⟨fun h0 hv2 => ?ocr, fun h0 hv2 => ?legacy, fun h0 ha => ?next, fun h0 ha => ?last⟩
  case ocr => exact ⟨_, (hrun (fun _ => gotActivate_of_v2 he hfit h0 hv2) rfl :), rfl⟩
  case legacy => exact ⟨_, (hrun (fun _ => gotActivate_of_legacy hfit h0 hv2) rfl :)⟩
  case next => exact ⟨_, (hrun (fun _ => (gotActivate_of_idle hfit h0).trans (nextInit_of_lt he ha)) rfl :), rfl, rfl⟩
  case last => exact ⟨_, (hrun (fun _ => (gotActivate_of_idle hfit h0).trans (nextInit_of_last ha)) rfl :)⟩

/-- Settles O37: the OCR by V2. -/
theorem cmd58 : Obligations.Cmd58 := by
  intro s op r es hs he hfit hev
  have hrun {t : State} (hgot : ∀ l, gotOcr (s.answered 58 0 r l) = t) (hover : t.waiting = false) :
      exec .cmd58 s = .next { t with events := es } := sendWire_reply hs he nofun nofun hfit hev hgot hover
  exact ⟨fun hv2 => ⟨_, (hrun (fun _ => gotOcr_of_v2 hfit hv2) rfl :)⟩,
    fun hv2 h0 => ⟨_, (hrun (fun _ => gotOcr_of_legacy he hfit h0 hv2) rfl :), rfl, rfl⟩,
    fun hv2 h0 => ⟨_, (hrun (fun _ => gotOcr_of_rejected hfit h0 hv2) rfl :)⟩⟩

/-! ## BRINGUP end to end (41_bringup.md R171) -/

/-- BRINGUP before its first CMD0: WarmedUp, the warm-up requested (41_bringup.md R172, R173). -/
def State.warmedUp (s : State) : State :=
  (s.issue 0x01).beforeCommand 0x01 .reset { (s.issue 0x01).status with stage := .warmedUp }
    { s.scratch with attempt := 1, frame := frameWord 0 0 } [.idle s.cfg.warmupBytes.toNat]

/-- BRINGUP of an unpowered card goes through its warm-up, however that is answered. -/
theorem exec_bringup {s : State} {w : Answer} {es : List Event} (h : s.CanIssue) (hstage : s.status.stage = .unpowered)
    (hev : s.events = .answer w :: es) : exec .bringup s = .next (drive es s.warmedUp) := by
  obtain ⟨hidle, hsoft, hheld⟩ := h
  have hstart : startOp 0x01 (s.issue 0x01) = startBringup (s.issue 0x01) :=
    startOp_of_legal (show (s.status.stage == .unpowered) = true from beq_iff_eq.mpr hstage)
  have hwarm : engAnswer w (startBringup (s.issue 0x01)) = s.warmedUp := if_neg (ne_true_of_eq_false hsoft)
  have hrun : drive (.answer w :: es) (s.issue 0x01) = drive (.answer w :: es) (startOp 0x01 (s.issue 0x01)) :=
    drive_start_waiting rfl hsoft trivial (by rw [hstart]; rfl)
  rw [hstart, drive_answer (s := startBringup (s.issue 0x01)) w es rfl, hwarm] at hrun
  exact (launch_issue 0x01 hidle hsoft hheld).trans (by rw [hev, hrun])

/-- Settles O29: each command's response leads to the next command, and the last to Ready. -/
theorem bringupHighCapacity : Obligations.BringupHighCapacity := by
  intro s w r0 r8 r55 r41 r58 es h hstage fit0 idle0 fit8 idle8 hvhs hpat fit55 idle55 fit41 idle41 fit58 hev
  have hs := h.softReset
  simp only [List.append_assoc] at hev
  have hrun := calc drive (r0.inputs ++ (r8.inputs ++ (r55.inputs ++ (r41.inputs ++ (r58.inputs ++ es))))) s.warmedUp
    _ = _ := drive_reply hs rfl nofun nofun rfl fit0 fun _ => gotReset_of_idle rfl fit0 idle0
    _ = _ := drive_reply hs rfl nofun nofun rfl fit8 fun _ => gotIface_of_match rfl fit8 idle8 hvhs hpat
    _ = _ := drive_reply hs rfl nofun nofun rfl fit55 fun _ => gotMarker_of_idle rfl fit55 idle55
    _ = _ := drive_reply hs rfl nofun nofun rfl fit41 fun _ => gotActivate_of_v2 rfl fit41 idle41 rfl
    _ = _ := drive_reply hs rfl nofun nofun rfl fit58 fun _ => gotOcr_of_v2 fit58 rfl
    _ = _ := drive_idle es rfl
  rw [exec_bringup h hstage hev, hrun]
  exact ⟨_, rfl⟩

/-- Settles O30: the failed check puts CMD58 before the initialization, whose end is Ready. -/
theorem bringupLegacy : Obligations.BringupLegacy := by
  intro s w r0 r8 r58 r55 r41 es h hstage fit0 idle0 fit8 hfails fit58 idle58 fit55 idle55 fit41 idle41 hev
  have hs := h.softReset
  simp only [List.append_assoc] at hev
  have hrun := calc drive (r0.inputs ++ (r8.inputs ++ (r58.inputs ++ (r55.inputs ++ (r41.inputs ++ es))))) s.warmedUp
    _ = _ := drive_reply hs rfl nofun nofun rfl fit0 fun _ => gotReset_of_idle rfl fit0 idle0
    _ = _ := drive_reply hs rfl nofun nofun rfl fit8 fun _ => gotIface_of_mismatch rfl fit8 hfails
    _ = _ := drive_reply hs rfl nofun nofun rfl fit58 fun _ => gotOcr_of_legacy rfl fit58 idle58 rfl
    _ = _ := drive_reply hs rfl nofun nofun rfl fit55 fun _ => gotMarker_of_idle rfl fit55 idle55
    _ = _ := drive_reply hs rfl nofun nofun rfl fit41 fun _ => gotActivate_of_legacy fit41 idle41 rfl
    _ = _ := drive_idle es rfl
  rw [exec_bringup h hstage hev, hrun]
  exact ⟨_, rfl⟩

/-- Filler bytes for one attempt of the reset loop, the frame's answers and the whole budget, spend it. -/
theorem drive_reset_filler {s : State} {op : Byte} (es : List Event) (hs : s.softReset = false)
    (he : s.eng = .running op (.ready .reset)) (hframe : s.scratch.frame = frameWord 0 0) (hb : 1 ≤ s.cfg.respBudget.toNat) :
    drive (rx (List.replicate (6 + s.cfg.respBudget.toNat) 0xFF) ++ es) s = drive es (nextReset (s.unanswered .reset 0 0)) := by
  have hfeed := feed_unanswered (idx := 0) (arg := 0) (x := .reset) hs (List.length_replicate (n := 6) (a := 0xFF)) hb he
    nofun nofun
  rw [State.put_frame_self hframe, ← List.replicate_add] at hfeed
  exact drive_ready he hs (List.ne_nil_of_length_eq_add_one (List.length_replicate.trans (Nat.add_comm ..))) hfeed

/-- Filler bytes for this attempt of the reset loop and the `n` left after it (41_bringup.md R173, R180, R181). -/
theorem drive_reset_fillers {op : Byte} (es : List Event) : ∀ (n : Nat) (s : State), s.softReset = false →
    s.eng = .running op (.ready .reset) → s.scratch.frame = frameWord 0 0 → 1 ≤ s.cfg.respBudget.toNat →
    s.scratch.attempt.toNat + n = s.cfg.resetRetries.toNat →
    ∃ sc, drive (rx (List.replicate ((n + 1) * (6 + s.cfg.respBudget.toNat)) 0xFF) ++ es) s = { s with
      status := { s.status with stage := .failed, done := true, err := true, errcode := .resetTimeout }
      donePend := true
      scratch := sc
      bus := s.bus ++ (List.replicate (n + 1) (txExchange 0 0 s.cfg.respBudget.toNat)).flatten
      eng := .idle
      events := es }
  | 0, s, hs, he, hframe, hb, ha => by
    have hlast : nextReset (s.unanswered .reset 0 0) = bringupFail .resetTimeout (s.unanswered .reset 0 0) :=
      nextReset_of_le (Nat.le_of_eq ha.symm)
    rw [Nat.zero_add, Nat.one_mul, drive_reset_filler es hs he hframe hb, hlast, drive_idle es rfl, List.replicate_one,
      List.flatten_singleton]
    exact ⟨_, rfl⟩
  | n + 1, s, hs, he, hframe, hb, ha => by
    have hlt : s.scratch.attempt.toNat < s.cfg.resetRetries.toNat := by omega
    obtain ⟨sc, hnext, hframe', hattempt⟩ := nextReset_unanswered he hlt .reset 0 0
    have hleft : sc.attempt.toNat + n = s.cfg.resetRetries.toNat := by
      rw [hattempt, toNat_add_one hlt s.cfg.resetRetries.isLt]
      omega
    rw [Nat.succ_mul, Nat.add_comm, List.replicate_add, rx_append, List.append_assoc, drive_reset_filler _ hs he hframe hb, hnext,
      List.replicate_succ, List.flatten_cons, ← List.append_assoc]
    exact drive_reset_fillers es n (s.beforeCommand op .reset s.status sc (txExchange 0 0 s.cfg.respBudget.toNat)) hs rfl hframe'
      hb hleft

/-- Settles O31: CFG_RESET_RETRIES attempts, each of them spent. -/
theorem bringupResetTimeout : Obligations.BringupResetTimeout := by
  intro s w es h hstage hretries hbudget hev
  obtain ⟨n, hn⟩ : ∃ n, s.cfg.resetRetries.toNat = n + 1 := ⟨s.cfg.resetRetries.toNat - 1, by omega⟩
  obtain ⟨sc, hrun⟩ := drive_reset_fillers es n s.warmedUp h.softReset rfl rfl hbudget ((Nat.add_comm 1 n).trans hn.symm)
  rw [hn] at hev
  rw [exec_bringup h hstage hev, hn]
  exact ⟨sc, congrArg Host.Outcome.next hrun⟩

/-! ## SPEEDUP (41_bringup.md R185) -/

theorem opLegal_speedup (s : State) : opLegal 0x02 (s.issue 0x02) = (s.status.stage == .ready && !s.status.spedUp) := rfl

/-- A legal SPEEDUP waits for its `reconf`, and the transport's answer ends it. -/
theorem exec_speedup {s : State} {a : Answer} {es : List Event} (ok : Bool) (h : s.CanIssue) (hready : s.status.stage = .ready)
    (hslow : s.status.spedUp = false) (hev : s.events = .answer a :: es)
    (hanswer : engAnswer a (startSpeedup (s.issue 0x02)) = finishSpeedup ok (startSpeedup (s.issue 0x02))) :
    exec .speedup s = .next { finishSpeedup ok (startSpeedup (s.issue 0x02)) with events := es } := by
  obtain ⟨hidle, hsoft, hheld⟩ := h
  have hstart : startOp 0x02 (s.issue 0x02) = startSpeedup (s.issue 0x02) :=
    startOp_of_legal (by rw [opLegal_speedup, hready, hslow]; rfl)
  have hrun : drive (.answer a :: es) (s.issue 0x02) = drive (.answer a :: es) (startOp 0x02 (s.issue 0x02)) :=
    drive_start_waiting rfl hsoft trivial (by rw [hstart]; rfl)
  rw [hstart, drive_answer (s := startSpeedup (s.issue 0x02)) a es rfl, hanswer, drive_idle es (by cases ok <;> rfl)] at hrun
  exact (launch_issue 0x02 hidle hsoft hheld).trans (by rw [hev, hrun])

/-- Settles O32: the answer to the one `reconf` decides, and an illegal SPEEDUP makes none. -/
theorem speedup : Obligations.Speedup := by
  intro s es h
  have hsoft : ¬ s.softReset = true := ne_true_of_eq_false h.softReset
  refine ⟨fun hready hslow => ⟨fun b hev => ?ok, fun hev => ?err⟩, fun hillegal hp => ?illegal⟩
  case ok => exact exec_speedup true h hready hslow hev (if_neg hsoft)
  case err => exact exec_speedup false h hready hslow hev (if_neg hsoft)
  case illegal =>
    have hlegal : opLegal 0x02 (s.issue 0x02) = false := by
      rw [opLegal_speedup]
      rcases hillegal with hstage | hfast
      · rw [beq_eq_false_iff_ne.mpr hstage, Bool.false_and]
      · rw [hfast, Bool.not_true, Bool.and_false]
    exact launch_after h hp (if_neg (ne_true_of_eq_false hlegal))

end Sys2Proof.Machine
end

section
/-! The arithmetic of READBYTES (42_block_io.md R207): which part of its range each block holds. -/

namespace Sys2Proof.Machine

/-! ## The parts of a range

Positions are counted from the start of the first block: the range is `[off, off + size)`, and block `k` is
`[k * bs, (k + 1) * bs)`. -/

section Range
variable {s : State} {k : Nat}

/-- The range ends in its last block. -/
theorem readCount_bounds (hb : 0 < s.bs) (ha : 0 < s.a1.toNat) :
    (readCount s - 1) * s.bs < readOff s + s.a1.toNat ∧ readOff s + s.a1.toNat ≤ readCount s * s.bs := by
  have hdiv : readCount s = (readOff s + s.a1.toNat - 1) / s.bs + 1 := by
    rw [readCount, ← Nat.add_div_right _ hb]
    congr 1
    omega
  have hlo := Nat.div_mul_le_self (readOff s + s.a1.toNat - 1) s.bs
  have hhi := Nat.lt_div_mul_add (a := readOff s + s.a1.toNat - 1) hb
  rw [hdiv, Nat.add_sub_cancel, Nat.succ_mul]
  omega

/-- Block `k` is copied from where the range or the block begins. -/
theorem mul_add_readLo (hb : 0 < s.bs) (k : Nat) : k * s.bs + readLo s k = max (k * s.bs) (readOff s) := by
  have hoff := readOff_lt hb
  unfold readLo
  split
  next hk => rw [hk, Nat.zero_mul, Nat.zero_add, Nat.zero_max]
  next hk =>
    have : s.bs ≤ k * s.bs := Nat.le_mul_of_pos_left _ (Nat.pos_of_ne_zero hk)
    omega

/-- Block `k` is copied to where the range or the block ends. -/
theorem mul_add_readHi (hb : 0 < s.bs) (ha : 0 < s.a1.toNat) (hk : k < readCount s) :
    k * s.bs + readHi s k = min ((k + 1) * s.bs) (readOff s + s.a1.toNat) := by
  obtain ⟨hlo, hhi⟩ := readCount_bounds hb ha
  unfold readHi
  rw [Nat.succ_mul]
  split
  next hlast =>
    rw [← hlast, Nat.succ_mul] at hhi
    rw [← hlast, Nat.add_sub_cancel] at hlo
    have hdiv : (readOff s + s.a1.toNat - 1) / s.bs = k :=
      Nat.div_eq_of_lt_le (by omega) (by rw [Nat.succ_mul]; omega)
    have hmod := Nat.div_add_mod' (readOff s + s.a1.toNat - 1) s.bs
    rw [hdiv] at hmod
    omega
  next hmid =>
    have : (k + 1) * s.bs ≤ (readCount s - 1) * s.bs := Nat.mul_le_mul_right _ (by omega)
    rw [Nat.succ_mul] at this
    omega

/-- How many bytes of the range lie before block `k`. -/
def rangeBefore (s : State) (k : Nat) : Nat := min (k * s.bs) (readOff s + s.a1.toNat) - readOff s

theorem rangeBefore_zero (s : State) : rangeBefore s 0 = 0 := by
  rw [rangeBefore, Nat.zero_mul, Nat.zero_min, Nat.zero_sub]

theorem rangeBefore_readCount (hb : 0 < s.bs) (ha : 0 < s.a1.toNat) : rangeBefore s (readCount s) = s.a1.toNat := by
  rw [rangeBefore, Nat.min_eq_right (readCount_bounds hb ha).2, Nat.add_sub_cancel_left]

theorem rangeBefore_le (s : State) (k : Nat) : rangeBefore s k ≤ s.a1.toNat := by
  rw [rangeBefore]
  omega

theorem rangeBefore_mono (s : State) {k m : Nat} (h : k ≤ m) : rangeBefore s k ≤ rangeBefore s m := by
  have := Nat.mul_le_mul_right s.bs h
  rw [rangeBefore, rangeBefore]
  omega

/-- Before the last block the range goes on. -/
theorem rangeBefore_of_lt (hb : 0 < s.bs) (ha : 0 < s.a1.toNat) (hk : k < readCount s) :
    k * s.bs < readOff s + s.a1.toNat ∧ rangeBefore s k = k * s.bs - readOff s := by
  have hle : k * s.bs ≤ (readCount s - 1) * s.bs := Nat.mul_le_mul_right _ (by omega)
  have hlt := Nat.lt_of_le_of_lt hle (readCount_bounds hb ha).1
  exact ⟨hlt, by rw [rangeBefore, Nat.min_eq_left hlt.le]⟩

/-- Block `k` is copied from its first byte in the range on. -/
theorem readOff_add_rangeBefore (hb : 0 < s.bs) (ha : 0 < s.a1.toNat) (hk : k < readCount s) :
    readOff s + rangeBefore s k = k * s.bs + readLo s k := by
  have hlo := mul_add_readLo hb k
  have hbefore := (rangeBefore_of_lt hb ha hk).2
  omega

/-- What block `k` copies is its part of the range. -/
theorem rangeBefore_succ (hb : 0 < s.bs) (ha : 0 < s.a1.toNat) (hk : k < readCount s) :
    rangeBefore s (k + 1) = rangeBefore s k + (readHi s k - readLo s k) := by
  have hoff := readOff_lt hb
  have hhi := mul_add_readHi hb ha hk
  have hstart := readOff_add_rangeBefore hb ha hk
  have hlt := readLo_lt_readHi hb (fun h => by simp [h] at ha) hk
  rw [rangeBefore]
  omega

/-- What the first `m` blocks copy is the range before block `m`. -/
theorem sum_copied (hb : 0 < s.bs) (ha : 0 < s.a1.toNat) (m : Nat) (hm : m ≤ readCount s) :
    ((List.range m).map (fun k => readHi s k - readLo s k)).sum = rangeBefore s m := by
  induction m with
  | zero => exact (rangeBefore_zero s).symm
  | succ m ih =>
    rw [List.range_succ, List.map_append, List.sum_append, ih (Nat.le_of_lt hm), List.map_singleton, List.sum_singleton,
      rangeBefore_succ hb ha hm]

end Range

/-- Settles O48: each block is copied where it meets the range. -/
theorem stitching : Obligations.Stitching := by
  intro s hb ha
  obtain ⟨hlo, hhi⟩ := readCount_bounds hb ha
  refine ⟨rfl, rfl, hlo, hhi, fun k hk => ⟨rfl, ?hi, ?nonempty⟩, ?sum⟩
  case hi =>
    have hlast : k + 1 = readCount s ↔ k = readCount s - 1 := by omega
    simp only [readHi, hlast]
  case nonempty => exact readLo_lt_readHi hb (fun h => by simp [h] at ha) hk
  case sum =>
    rw [sum_copied hb ha _ (Nat.le_refl _), rangeBefore_readCount hb ha]

end Sys2Proof.Machine
end

section
/-! CMD17 for every op that reads a block (42_block_io.md R200 to R204). -/

namespace Sys2Proof.Machine

/-! ## A data frame, its payload into a BLOCKBUF of any length (42_block_io.md R200, R203) -/

section Data
variable {s : State} {op : Byte} {u : BlockUse}

theorem engAnswer_data (he : s.eng = .running op (.data u)) (hs : s.softReset = false) (d : Byte) :
    engAnswer (.ok d) s = dataStep u d s := by
  simp only [engAnswer, hs, he, Bool.false_eq_true, if_false]

theorem feed_datum (he : s.eng = .running op (.data u)) (hs : s.softReset = false) (d : Byte) :
    feed [d] s = some (dataStep u d s) := by
  rw [feed_cons d [] (State.waiting_of_running he), engAnswer_data he hs]
  rfl

/-- A block read after `n` bytes of its data frame but the last, with BLOCKBUF as given. -/
def State.inFrame (s : State) (u : BlockUse) (tok : Byte) (n : Nat) (b : List Byte) : State :=
  (s.upd { s.scratch with i := BitVec.ofNat 16 n, tok := tok } (tx (List.replicate n 0xFF)) (.data u)).buf b

theorem State.inFrame_succ (s : State) (u : BlockUse) (tok : Byte) (n : Nat) (b : List Byte) :
    (s.inFrame u tok n b).upd { (s.inFrame u tok n b).scratch with i := (s.inFrame u tok n b).scratch.i + 1 } [.xfer 0xFF] (.data u)
      = s.inFrame u tok (n + 1) b := by
  have hi : BitVec.ofNat 16 n + 1 = BitVec.ofNat 16 (n + 1) := (BitVec.ofNat_add n 1).symm
  rw [State.inFrame, State.buf_upd, State.upd_upd, State.inFrame, List.replicate_succ', tx_append, ← hi]
  rfl

theorem feed_token (he : s.eng = .running op (.data u)) (hs : s.softReset = false) (hi : s.scratch.i = 0) (tok : Byte) :
    feed [tok] s = some (s.inFrame u tok 1 s.blockbuf) := by
  have htake : takeDatum tok s = s.put { s.scratch with tok := tok } := if_pos hi
  have hlt : s.scratch.i.toNat < s.bs + 2 := by rw [hi]; exact Nat.succ_pos _
  rw [feed_datum he hs, dataStep, if_pos hlt, htake, hi]
  rfl

theorem feed_frame_payload (he : s.eng = .running op (.data u)) (hs : s.softReset = false) (tok : Byte) (ds : List Byte)
    (hd : ds.length = s.bs) (hL : s.bs ≤ 512) :
    feed ds (s.inFrame u tok 1 s.blockbuf) = some (s.inFrame u tok (s.bs + 1) (putBytes s.blockbuf 0 ds)) := by
  have hi : 1 + BitVec.ofNat 16 s.bs = BitVec.ofNat 16 (s.bs + 1) := one_add_count 16 s.bs
  rw [feed_payload (op := op) (u := u) ds (s.inFrame u tok 1 s.blockbuf) (Eng.moveTo_of_running he _) hs hL (Nat.le_refl 1)
    (hd ▸ Nat.le_of_eq (Nat.add_comm ..)), hd, State.inFrame, State.buf_upd, State.upd_upd, ← tx_append, ← List.replicate_add,
    State.inFrame, ← hi, Nat.add_comm s.bs]
  rfl

/-- The checksum bytes are dropped. -/
theorem takeDatum_checksum {n : Nat} (hi : s.scratch.i.toNat = s.bs + 1 + n) (c : Byte) : takeDatum c s = s := by
  have hne : ¬ s.scratch.i = 0 := fun h => by simp [h] at hi; omega
  rw [takeDatum, if_neg hne, if_neg (by omega)]

/-- The second checksum byte ends the frame. -/
theorem feed_checksum (he : s.eng = .running op (.data u)) (hs : s.softReset = false) (hL : s.bs ≤ 512) (tok c0 c1 : Byte)
    (b : List Byte) : feed [c0, c1] (s.inFrame u tok (s.bs + 1) b) = some (dataDone u (s.inFrame u tok (s.bs + 2) b)) := by
  have hfed (n : Nat) (c : Byte) : feed [c] (s.inFrame u tok n b) = some (dataStep u c (s.inFrame u tok n b)) :=
    feed_datum (s := s.inFrame u tok n b) (Eng.moveTo_of_running he _) hs c
  have hi {n : Nat} (hn : n ≤ 514) : (s.inFrame u tok n b).scratch.i.toNat = n := Nat.mod_eq_of_lt (by omega)
  have hbs (n : Nat) : (s.inFrame u tok n b).bs = s.bs := rfl
  have h0 : dataStep u c0 (s.inFrame u tok (s.bs + 1) b) = s.inFrame u tok (s.bs + 2) b := by
    rw [dataStep, hi (by omega), hbs, if_pos (Nat.lt_succ_self _), takeDatum_checksum (n := 0) (hi (by omega))]
    exact s.inFrame_succ u tok (s.bs + 1) b
  have h1 : dataStep u c1 (s.inFrame u tok (s.bs + 2) b) = dataDone u (s.inFrame u tok (s.bs + 2) b) := by
    rw [dataStep, hi (by omega), hbs, if_neg (Nat.lt_irrefl _), takeDatum_checksum (n := 1) (hi (by omega))]
  exact feed_trans ((hfed _ c0).trans (congrArg some h0)) ((hfed _ c1).trans (congrArg some h1))

/-- A whole data frame, token and checksum bytes of any value. -/
theorem feed_dataFrame (he : s.eng = .running op (.data u)) (hs : s.softReset = false) (hi : s.scratch.i = 0)
    (tok c0 c1 : Byte) (ds : List Byte) (hd : ds.length = s.bs) (hL : s.bs ≤ 512) :
    feed (tok :: ds ++ [c0, c1]) s = some (dataDone u (s.inFrame u tok (s.bs + 2) (putBytes s.blockbuf 0 ds))) :=
  feed_trans (feed_trans (feed_token he hs hi tok) (feed_frame_payload he hs tok ds hd hL)) (feed_checksum he hs hL tok c0 c1 _)

end Data

/-! ## A block read (42_block_io.md R200) -/

/-- What is received in a block read with a data frame. -/
def Reply.withFrame (r : Reply) (tok c0 c1 : Byte) (ds : List Byte) : List Byte := r.received ++ (tok :: ds ++ [c0, c1])

theorem Reply.rx_withFrame (r : Reply) (tok c0 c1 : Byte) (ds : List Byte) :
    rx (r.withFrame tok c0 c1 ds) = r.inputs ++ rx (tok :: ds ++ [c0, c1]) := by
  rw [Reply.withFrame, rx_append, r.inputs_eq]

/-- The exchange before the data frame of a block read that succeeds. -/
def BlockReply.status (b : BlockReply) : Reply := ⟨b.ignored, b.fillers, [0x00]⟩

theorem BlockReply.inputs_eq (b : BlockReply) : b.inputs = rx (b.status.withFrame 0xFE b.ck0 b.ck1 b.payload) :=
  (b.status.rx_withFrame ..).symm

theorem BlockReply.Fits.status {b : BlockReply} {budget size : Nat} (h : b.Fits budget size) : b.status.Fits budget 1 :=
  have ⟨hg, hp, _⟩ := h
  ⟨hg, hp, rfl, (by decide : (0x00 : Byte) ≠ 0xFF)⟩

theorem txExchange_append (idx : BitVec 6) (arg : Word) (m n : Nat) :
    txExchange idx arg m ++ tx (List.replicate n 0xFF) = txExchange idx arg (m + n) := by
  rw [txExchange, List.append_assoc, ← tx_append, ← List.replicate_add, txExchange]

/-- A block read that asks for its token. -/
def State.awaitsToken (s : State) (u : BlockUse) (arg : Word) (r : Reply) : State :=
  s.upd { s.scratch.answered 17 arg r with i := 0 } (txExchange 17 arg (r.polled + 1)) (.data u)

/-- A block read over with READ_REJECTED. -/
def State.rejected (s : State) (u : BlockUse) (arg : Word) (r : Reply) : State :=
  { blockFail u .readRejected { s with errByte := r.byte 0 } with
    scratch := s.scratch.answered 17 arg r
    bus := s.bus ++ txExchange 17 arg r.polled }

/-- The running op after the data frame of a block read, with BLOCKBUF as given. -/
def State.blockRead (s : State) (op : Byte) (u : BlockUse) (arg : Word) (r : Reply) (tok : Byte) (b : List Byte) : State :=
  { s with
    blockbuf := b
    scratch := { s.scratch.answered 17 arg r with i := BitVec.ofNat 16 (s.bs + 2), tok := tok }
    bus := s.bus ++ txExchange 17 arg (r.polled + s.bs + 3)
    eng := .running op (.data u) }

section BlockRead
variable {s : State} {op : Byte} {u : BlockUse} {arg : Word} {r : Reply} {l : Label} {b : Nat}

/-- A status byte 0x00 goes on to the data frame (42_block_io.md R202). -/
theorem gotStatus_of_zero (hfit : r.Fits b 1) (h0 : r.byte 0 = 0x00) : gotStatus u (s.answered 17 arg r l)
    = s.awaitsToken u arg r := by
  have hask : gotStatus u (s.answered 17 arg r l)
      = (s.answered 17 arg r l).ask { s.scratch.answered 17 arg r with i := 0 } (.xfer 0xFF) (.data u) :=
    if_pos ((State.answered_resp hfit (by decide) (by decide)).trans h0)
  rw [hask, State.awaitsToken, ← txExchange_append, State.answered, State.upd_ask]
  rfl

/-- Any other status byte is READ_REJECTED (42_block_io.md R202). -/
theorem gotStatus_of_ne_zero (hfit : r.Fits b 1) (h0 : r.byte 0 ≠ 0x00) :
    gotStatus u (s.answered 17 arg r l) = s.rejected u arg r := by
  have hbyte : (s.answered 17 arg r l).scratch.resp[0] = r.byte 0 := State.answered_resp hfit (by decide) (by decide)
  rw [gotStatus, hbyte, if_neg h0, State.rejected, blockFail_eq, blockFail_eq]
  rfl

theorem State.inFrame_awaitsToken (he : s.eng = .running op l) (tok : Byte) (buf : List Byte) :
    (s.awaitsToken u arg r).inFrame u tok (s.bs + 2) buf = s.blockRead op u arg r tok buf := by
  have hn : r.polled + 1 + (s.bs + 2) = r.polled + s.bs + 3 := by omega
  rw [State.inFrame, State.awaitsToken, State.upd_upd, txExchange_append, hn, State.upd, he]
  rfl

/-- A block read with status 0x00, token and checksum bytes of any value. -/
theorem feed_blockRead (hs : s.softReset = false) (he : s.eng = .running op (.ready (.block u)))
    (hfit : r.Fits s.cfg.respBudget.toNat 1) (h0 : r.byte 0 = 0x00) (tok c0 c1 : Byte) (ds : List Byte) (hd : ds.length = s.bs)
    (hL : s.bs ≤ 512) :
    feed (r.withFrame tok c0 c1 ds) (sendFirst (.block u) (s.put { s.scratch with frame := frameWord 17 arg }))
      = some (dataDone u (s.blockRead op u arg r tok (putBytes s.blockbuf 0 ds))) := by
  obtain ⟨l, hfeed⟩ := feed_reply (idx := 17) (arg := arg) hs he nofun nofun hfit
  rw [exchGot, gotStatus_of_zero hfit h0] at hfeed
  have hframe := feed_dataFrame (s := s.awaitsToken u arg r) (Eng.moveTo_of_running he _) hs rfl tok c0 c1 ds hd hL
  exact (feed_trans hfeed hframe).trans (congrArg (some <| dataDone u ·) (State.inFrame_awaitsToken he tok _))

/-- A data-start token other than 0xFE (42_block_io.md R202). -/
theorem dataDone_of_ne {tok : Byte} (htok : tok ≠ 0xFE) (buf : List Byte) : dataDone u (s.blockRead op u arg r tok buf)
    = blockFail u .badStartToken { s.blockRead op u arg r tok buf with errByte := tok } := if_neg htok

theorem dataDone_of_ok (buf : List Byte) : dataDone u (s.blockRead op u arg r 0xFE buf)
    = afterBlock u ((s.blockRead op u arg r 0xFE buf).validate true) := if_pos rfl

/-- A block read that succeeds goes on with its caller (42_block_io.md R203). -/
theorem feed_blockReply {b : BlockReply} (hs : s.softReset = false) (he : s.eng = .running op (.ready (.block u)))
    (hfit : b.Fits s.cfg.respBudget.toNat s.bs) (hL : s.bs ≤ 512) (hbuf : s.bs ≤ s.blockbuf.length) :
    feed (b.status.withFrame 0xFE b.ck0 b.ck1 b.payload)
      (sendFirst (.block u) (s.put { s.scratch with frame := frameWord 17 arg })) = some (afterBlock u
        ((s.blockRead op u arg b.status 0xFE (b.payload ++ s.blockbuf.drop s.bs)).validate true)) := by
  have ⟨_, _, hlen⟩ := hfit
  have hput : putBytes s.blockbuf 0 b.payload = b.payload ++ s.blockbuf.drop s.bs := by
    rw [putBytes_eq _ _ _ (by omega), Nat.zero_add, hlen, List.take_zero, List.nil_append]
  rw [feed_blockRead hs he hfit.status rfl 0xFE b.ck0 b.ck1 b.payload hlen hL, hput, dataDone_of_ok]

end BlockRead

/-! ## CMD17 (42_block_io.md R200 to R204) -/

theorem State.build_waiting (s : State) (x : Exch) (idx : BitVec 6) (arg : Word) : (s.build x idx arg).waiting = false := by
  cases he : s.eng with
  | idle => exact State.waiting_of_idle (congrArg (Eng.moveTo · _) he)
  | running op l => exact State.waiting_of_running (l := .ready x) (Eng.moveTo_of_running he _)

theorem dirScan_waiting (n : Nat) (s : State) : (dirScan n s).waiting = false := by
  induction n generalizing s with
  | zero =>
    simp only [dirScan, dirBlockDone]
    split
    · rfl
    · exact State.build_waiting ..
  | succ n ih =>
    simp only [dirScan]
    split
    next => rfl
    next => exact ih _
    next =>
      split
      · rfl
      · exact ih _
    next => rfl

/-- No caller waits for the transport when it has its block: it is over, at an internal step, or before the next CMD17. -/
theorem afterBlock_waiting (u : BlockUse) (s : State) : (afterBlock u s).waiting = false := by
  cases u with
  | readblk | partition => rfl
  | readbytes =>
    cases he : s.eng with
    | idle => exact State.waiting_of_idle (congrArg (Eng.moveTo · _) he)
    | running op l => exact State.waiting_of_running (l := .copy) (Eng.moveTo_of_running he _)
  | mountMbr => exact State.build_waiting ..
  | mountBoot =>
    simp only [afterBlock, finishMount]
    split <;> rfl
  | dirnext => exact dirScan_waiting ..

section Cmd17
variable {s t : State} {op : Byte} {u : BlockUse} {arg : Word} {es : List Event}

theorem exec_cmd17 {bs : List Byte} (hs : s.softReset = false) (he : s.eng = .running op (.ready (.block u)))
    (hev : s.events = rx bs ++ es)
    (hfeed : feed bs (sendFirst (.block u) (s.put { s.scratch with frame := frameWord 17 arg })) = some t)
    (hover : t.waiting = false) : exec (.cmd17 arg) s = .next { t with events := es } := by
  refine (sendWire_of_ready hs he rfl).trans ?_
  rw [hev, exchange_feed es hfeed, exchange_over es hover]

end Cmd17

/-- Settles O39: the frame and the data frame are received, and the caller of `read_block` goes on. -/
theorem cmd17Completes : Obligations.Cmd17Completes := by
  intro s op arg u b es hs he hL hbuf hfit hev
  have hrun : exec (.cmd17 arg) s = _ :=
    exec_cmd17 hs he (hev.trans (by rw [b.inputs_eq])) (feed_blockReply hs he hfit hL hbuf) (afterBlock_waiting ..)
  refine ⟨_, hrun, rfl, rfl, rfl, rfl, fun hu => ?readblk, fun hu => ?readbytes⟩
  case readblk => subst hu; exact hrun
  case readbytes => subst hu; exact hrun

/-- Settles O40: the status byte, the token and the spent budget each end the block read with their own error. -/
theorem cmd17Fails : Obligations.Cmd17Fails := by
  intro s op arg u es hs he
  refine ⟨fun r hfit h0 hev => ?rejected, fun r tok c0 c1 ds hfit h0 htok hL hd hev => ?token, fun g hg hb hev => ?silent⟩
  case rejected =>
    obtain ⟨l, hfeed⟩ := feed_reply (idx := 17) (arg := arg) hs he nofun nofun hfit
    rw [exchGot, gotStatus_of_ne_zero hfit h0, State.rejected, blockFail_eq] at hfeed
    exact ⟨_, exec_cmd17 hs he (r.inputs_eq ▸ hev) hfeed rfl⟩
  case token =>
    have hfeed := feed_blockRead (arg := arg) hs he hfit h0 tok c0 c1 ds hd hL
    rw [dataDone_of_ne htok, blockFail_eq] at hfeed
    exact ⟨_, _, exec_cmd17 hs he (r.rx_withFrame .. ▸ hev) hfeed rfl⟩
  case silent =>
    have hrun : exec (.cmd17 arg) s = _ := sendWire_unanswered (x := .block u) hs hg hb hev he rfl nofun nofun
    rw [exchNoResp, blockFail_eq] at hrun
    exact ⟨_, hrun⟩

end Sys2Proof.Machine
end

section
/-! READBLK end to end (42_block_io.md R205), and the state in which READBLK and READBYTES stand before their first CMD17. -/

namespace Sys2Proof.Machine

/-! ## From the issue of a block read to its CMD17 (42_block_io.md R200, R201) -/

/-- In a state of the invariant an inactive scan holds nothing, so a cancelled scan is a dropped one (44_directory.md R277). -/
theorem State.CoreInv.cancelScan_dropped {s : State} (h : s.CoreInv) : s.cancelScan = { s with
    status := { s.status with dirActive := false }
    dir := s.dir.dropped } := by
  rw [s.cancelScan_eq]
  cases hactive : s.status.dirActive with
  | true =>
    rw [(h.scan.active hactive).1]
    rfl
  | false =>
    obtain ⟨hfrags, hloaded⟩ := h.scan.inactive hactive
    have hdir : s.dir.dropped = s.dir := by rw [Dir.dropped, ← hfrags, ← hloaded]
    rw [hdir, Bool.and_false, Bool.and_false]
    rfl

/-- Op issue in a state that can issue. -/
theorem State.CanIssue.issue_inv {s : State} (h : s.CanIssue) (hinv : s.Inv) (op : Byte) : (s.issue op).Inv := by
  obtain ⟨hidle, hsoft, hheld⟩ := h
  exact Machine.issue_inv hinv (by rw [State.busy, hidle, hsoft]; rfl) hheld op

/-- An issued op that has cancelled the scan, before its first CMD17. -/
def State.asking (s : State) (op : Byte) (u : BlockUse) (sc : Scratch) : State :=
  { s.issue op with
    status := { (s.issue op).status with bufvalid := false, dirActive := false }
    dir := s.dir.dropped
    scratch := sc
    eng := .running op (.ready (.block u)) }

/-- Of an op whose own step ends before a frame, the run begins at the frame. -/
theorem launch_asking {s t : State} {op : Byte} {x : Exch} (h : s.CanIssue) (hp : Prompt s.events)
    (ht : startOp op (s.issue op) = t) (he : t.eng = .running op (.ready x)) (hs : t.softReset = false) :
    launch op s = .next (drive s.events t) := by
  subst ht
  have hwait : (settle (startOp op (s.issue op))).internal = false := by
    rw [settle_ready he hs]
    exact State.internal_of_running (l := .frame x) (Eng.moveTo_of_running he _)
  rw [launch_sendFirst h hp he hs, drive_prompt hp hwait, settle_ready he hs]

/-! ## READBLK (42_block_io.md R205) -/

theorem Reply.withFrame_ne_nil {r : Reply} {tok c0 c1 : Byte} {ds : List Byte} : r.withFrame tok c0 c1 ds ≠ [] :=
  List.append_ne_nil_of_right_ne_nil _ (List.cons_ne_nil tok (ds ++ [c0, c1]))

/-- READBLK before its CMD17. -/
def State.readblkAsks (s : State) : State :=
  s.asking 0x05 .readblk { s.scratch with lba := s.arg0, frame := frameWord 17 (s.arg0 <<< 9) }

section Readblk
variable {s t : State} {bs : List Byte} {es : List Event}

theorem startOp_readblk (h : s.CanIssue) (hinv : s.Inv) (hready : s.status.stage = .ready) :
    startOp 0x05 (s.issue 0x05) = s.readblkAsks := by
  have hlegal : opLegal 0x05 (s.issue 0x05) = true := State.isReady_issue hready _
  exact (startOp_of_legal hlegal).trans
    ((congrArg (readBlock .readblk s.arg0) (h.issue_inv hinv 0x05).core.cancelScan_dropped).trans rfl)

/-- READBLK over answers that end it. -/
theorem exec_readblk (h : s.CanIssue) (hinv : s.Inv) (hready : s.status.stage = .ready) (hne : bs ≠ [])
    (hev : s.events = rx bs ++ es) (hfeed : feed bs (sendFirst (.block .readblk)
      (s.readblkAsks.put { s.readblkAsks.scratch with frame := frameWord 17 (s.arg0 <<< 9) })) = some t)
    (hover : t.eng = .idle) : exec .readblk s = .next { t with events := es } := by
  have hstart := startOp_readblk h hinv hready
  rw [State.put_frame_self (s := s.readblkAsks) rfl, ← hstart] at hfeed
  rw [← drive_idle es hover]
  exact launch_ready 0x05 h (by rw [hstart]; rfl) (by rw [hstart]; exact h.softReset) hne hev hfeed

end Readblk

/-- Settles O42: the block read of ARG0 succeeds, and READBLK completes with it. -/
theorem readblkCompletes : Obligations.ReadblkCompletes := by
  intro s b es hinv h hready hfit hev
  have hbuf : s.bs ≤ s.blockbuf.length := hinv.core.bs_le.trans_eq hinv.buffers.blockbuf.symm
  have hfeed := feed_blockReply (arg := s.arg0 <<< 9) (s := s.readblkAsks) h.softReset rfl hfit hinv.core.bs_le hbuf
  exact ⟨_, exec_readblk h hinv hready Reply.withFrame_ne_nil (hev.trans (by rw [b.inputs_eq])) hfeed rfl⟩

/-- Settles O43: the token and the spent budget each end the block read of ARG0 with their own error. -/
theorem readblkFails : Obligations.ReadblkFails := by
  intro s es hinv h hready
  refine ⟨fun r tok c0 c1 ds hfit h0 htok hd hev => ?token, fun g hg hev => ?silent⟩
  case token =>
    have hfeed := feed_blockRead (arg := s.arg0 <<< 9) (s := s.readblkAsks) h.softReset rfl hfit h0 tok c0 c1 ds hd
      hinv.core.bs_le
    rw [dataDone_of_ne htok, blockFail_eq] at hfeed
    exact ⟨_, _, exec_readblk h hinv hready Reply.withFrame_ne_nil (r.rx_withFrame .. ▸ hev) hfeed rfl⟩
  case silent =>
    have hfeed := feed_unanswered (idx := 17) (arg := s.arg0 <<< 9) (s := s.readblkAsks) (g := g) h.softReset hg
      hinv.cfg.respBudget rfl nofun nofun
    rw [exchNoResp, blockFail_eq] at hfeed
    have hne : g ++ List.replicate s.cfg.respBudget.toNat 0xFF ≠ [] :=
      List.append_ne_nil_of_left_ne_nil (List.ne_nil_of_length_eq_add_one hg) _
    exact ⟨_, exec_readblk h hinv hready hne (rx_append .. ▸ hev) hfeed rfl⟩

end Sys2Proof.Machine
end

section
/-! One block of READBYTES (42_block_io.md R206): its block read, then its part of the range copied to DMEM. -/

namespace Sys2Proof.Machine

/-! ## A range of DMEM written -/

/-- `m'` is `m` with `f` at every address of `[lo, hi)`. -/
def Memory.Gets (m m' : Memory) (lo hi : Nat) (f : Nat → Byte) : Prop :=
  ∀ a, m'.read a = if lo ≤ a ∧ a < hi then some (f a) else m.read a

section Gets
variable {m m' m'' : Memory} {lo mid hi : Nat} {f : Nat → Byte}

theorem Memory.Gets.refl (m : Memory) (lo : Nat) (f : Nat → Byte) : m.Gets m lo lo f :=
  fun _ => (if_neg (by omega)).symm

theorem Memory.Gets.write (m : Memory) (a : Nat) (f : Nat → Byte) : m.Gets (m.write a (f a)) a (a + 1) f := by
  intro x
  rw [Memory.read_write]
  by_cases h : x = a
  · rw [if_pos h, if_pos (by omega), h]
  · rw [if_neg h, if_neg (by omega)]

theorem Memory.Gets.trans (h : m.Gets m' lo mid f) (h' : m'.Gets m'' mid hi f) (hlo : lo ≤ mid) (hhi : mid ≤ hi) :
    m.Gets m'' lo hi f := by
  intro a
  rw [h' a, h a]
  by_cases hin : lo ≤ a ∧ a < hi
  · rw [if_pos hin]
    split
    · rfl
    · exact if_pos (by omega)
  · rw [if_neg hin, if_neg (by omega), if_neg (by omega)]

end Gets

/-! ## The copy loop (42_block_io.md R206) -/

/-- READBYTES after `n` more bytes of its copy loop, with DMEM as given. -/
def State.copied (s : State) (n : Nat) (mem : Memory) : State :=
  { s with
    dmem := mem
    scratch := { s.scratch with
      dst := s.scratch.dst + BitVec.ofNat 32 n, written := s.scratch.written + n, j := s.scratch.j + n } }

theorem internalRun_succ {s : State} (h : s.internal = true) (n : Nat) : internalRun (n + 1) s = internalRun n (engInternal s) :=
  if_pos h

section Copy
variable {op : Byte}

theorem engInternal_copy {s : State} (he : s.eng = .running op .copy) (hs : s.softReset = false) : engInternal s = copyStep s := by
  simp only [engInternal, hs, he, Bool.false_eq_true, if_false]

theorem copyByte_copied (s : State) (n : Nat) (mem : Memory) : (copyByte s).copied n mem = s.copied (n + 1) mem := by
  have hdst : s.scratch.dst + 1 + BitVec.ofNat 32 n = s.scratch.dst + BitVec.ofNat 32 (n + 1) := add_one_add _ n
  have hshift (i : Nat) : i + 1 + n = i + (n + 1) := by omega
  rw [State.copied, State.copied, ← hdst, ← hshift s.scratch.written, ← hshift s.scratch.j]
  rfl

theorem copyByte_gets {s : State} {f : Nat → Byte} (hf : f s.scratch.dst.toNat = byteAt s.blockbuf s.scratch.j) :
    s.dmem.Gets (copyByte s).dmem s.scratch.dst.toNat (s.scratch.dst.toNat + 1) f := by
  have hwrite := Memory.Gets.write s.dmem s.scratch.dst.toNat f
  rw [hf] at hwrite
  exact hwrite

/-- The `n + 1` bytes left of a block are written one by one, BLOCKBUF byte `j` and so on to `dst` and so on. -/
theorem internalRun_copy (f : Nat → Byte) : ∀ (n : Nat) (s : State), s.eng = .running op .copy → s.softReset = false →
    s.scratch.j + n + 1 = readHi s s.scratch.k.toNat → s.scratch.dst.toNat + n < 2 ^ 32 →
    (∀ i ≤ n, f (s.scratch.dst.toNat + i) = byteAt s.blockbuf (s.scratch.j + i)) →
    ∃ mem, (∀ r, internalRun (r + n + 1) s = internalRun r (afterCopy (s.copied (n + 1) mem)))
      ∧ s.dmem.Gets mem s.scratch.dst.toNat (s.scratch.dst.toNat + n + 1) f
  | 0, s, he, hs, hj, _, hf => by
    have hlast : engInternal s = afterCopy (copyByte s) := (engInternal_copy he hs).trans (if_neg (by omega))
    refine ⟨(copyByte s).dmem, fun r => ?_, copyByte_gets (hf 0 (Nat.le_refl 0))⟩
    rw [internalRun_succ (State.internal_of_running he), hlast]
    rfl
  | n + 1, s, he, hs, hj, hfit, hf => by
    have hstep : engInternal s = copyByte s := (engInternal_copy he hs).trans (if_pos (by omega))
    have hdst : (copyByte s).scratch.dst.toNat = s.scratch.dst.toNat + 1 :=
      toNat_add_one (n := 2 ^ 32 - 1) (by omega) (by decide)
    have hshift (j i : Nat) : j + 1 + i = j + (i + 1) := by omega
    have hrest : ∀ i ≤ n, f ((copyByte s).scratch.dst.toNat + i) = byteAt s.blockbuf (s.scratch.j + 1 + i) := fun i hi => by
      rw [hdst, hshift, hshift, hf (i + 1) (by omega)]
    have hlen : s.scratch.j + 1 + n + 1 = readHi s s.scratch.k.toNat := (congrArg (· + 1) (hshift _ n)).trans hj
    obtain ⟨mem, hrun, hmem⟩ := internalRun_copy f n (copyByte s) he hs hlen (by omega) hrest
    rw [hdst, hshift] at hmem
    refine ⟨mem, fun r => ?_, (copyByte_gets (hf 0 (Nat.zero_le _))).trans hmem (by omega) (by omega)⟩
    rw [internalRun_succ (State.internal_of_running he), hstep, ← copyByte_copied]
    exact hrun r

end Copy

/-! ## One block of READBYTES (42_block_io.md R206) -/

/-- What holds where READBYTES stands before the CMD17 of block `scratch.k`. -/
structure State.BeforeChunk (s : State) : Prop where
  bs_pos : 0 < s.bs
  size_pos : 0 < s.a1.toNat
  fits : s.a0.toNat + s.a1.toNat ≤ 2 ^ 32
  inRange : s.scratch.k.toNat < readCount s
  invalid : s.status.bufvalid = false
  lba : s.scratch.lba = BitVec.ofNat 32 (readFirst s + s.scratch.k.toNat)
  written : s.scratch.written = rangeBefore s s.scratch.k.toNat
  dst : s.scratch.dst = s.a0 + BitVec.ofNat 32 s.scratch.written
  frame : s.scratch.frame = frameWord 17 (s.scratch.lba <<< 9)

section Chunk
variable {s t : State} {op : Byte} {es : List Event}

theorem State.Inv.beforeChunk (h : s.Inv) (he : s.eng = .running op (.ready (.block .readbytes))) : s.BeforeChunk := by
  have hplace : Label.Place (.ready (.block .readbytes)) op s := by simpa only [State.EngineInv, he] using h.engine
  obtain ⟨⟨⟨hready, -, -, ha1, hargs, hk⟩, hinvalid, hlba, hwritten, hdst⟩, -, hframe⟩ := hplace
  have hpos := h.core.bs_pos hready
  have hsize : 0 < s.a1.toNat := Nat.pos_of_ne_zero fun h0 => ha1 (BitVec.eq_of_toNat_eq h0)
  refine ⟨hpos, hsize, ?fits, hk, hinvalid, ?lba, ?written, hdst, hframe⟩
  case fits =>
    simp only [readbytesArgsOk, Bool.and_eq_true, decide_eq_true_eq] at hargs
    exact hargs.1
  case lba => rw [hlba, BitVec.ofNat_add, BitVec.ofNat_toNat, BitVec.setWidth_eq]
  case written => rw [hwritten, (rangeBefore_of_lt hpos hsize hk).2]

/-- The destination of the first byte of a block. -/
theorem State.BeforeChunk.dst_toNat (h : s.BeforeChunk) :
    s.scratch.dst.toNat = s.a0.toNat + rangeBefore s s.scratch.k.toNat
      ∧ rangeBefore s s.scratch.k.toNat < s.a1.toNat := by
  obtain ⟨hlt, hbefore⟩ := rangeBefore_of_lt h.bs_pos h.size_pos h.inRange
  have hpos := h.size_pos
  have hfits := h.fits
  have hin : rangeBefore s s.scratch.k.toNat < s.a1.toNat := by omega
  refine ⟨?_, hin⟩
  rw [h.dst, h.written, BitVec.toNat_add, BitVec.toNat_ofNat, Nat.mod_eq_of_lt (a := rangeBefore s _) (by omega),
    Nat.mod_eq_of_lt (by omega)]

theorem feed_inv {bs : List Byte} (h : s.Inv) (hfeed : feed bs s = some t) : t.Inv := by
  induction bs generalizing s with
  | nil => cases hfeed; exact h
  | cons b bs ih =>
    rw [feed] at hfeed
    split at hfeed
    · exact ih (engAnswer_inv h _) hfeed
    · cases hfeed

theorem engInternal_ready {x : Exch} (he : s.eng = .running op (.ready x)) (hs : s.softReset = false) :
    engInternal s = sendFirst x s := by
  simp only [engInternal, hs, he, Bool.false_eq_true, if_false]

/-- READBYTES with block `scratch.k` in BLOCKBUF, the block's bytes in DMEM or not. -/
def State.chunkRead (s : State) (op : Byte) (b : BlockReply) (sc : Scratch) (mem : Memory) : State :=
  { s with
    status := { s.status with bufvalid := true }
    blockbuf := b.payload ++ s.blockbuf.drop s.bs
    scratch := sc
    dmem := mem
    bus := s.bus ++ b.sent s.scratch.lba s.bs
    eng := .running op .copy }

/-- A good block gets READBYTES to its copy loop. -/
theorem drive_chunkRead {b : BlockReply} (h : s.Inv) (hs : s.softReset = false)
    (he : s.eng = .running op (.ready (.block .readbytes))) (hfit : b.Fits s.cfg.respBudget.toNat s.bs) (es : List Event) :
    ∃ sc, drive (b.inputs ++ es) s = drive es (s.chunkRead op b sc s.dmem) ∧ (s.chunkRead op b sc s.dmem).Inv
      ∧ sc.k = s.scratch.k ∧ sc.written = s.scratch.written ∧ sc.dst = s.scratch.dst
      ∧ sc.j = readLo s s.scratch.k.toNat := by
  have hfeed := feed_blockReply (arg := s.scratch.lba <<< 9) hs he hfit h.core.bs_le
    (h.core.bs_le.trans_eq h.buffers.blockbuf.symm)
  rw [State.put_frame_self (h.beforeChunk he).frame] at hfeed
  have hinv := feed_inv (engInternal_ready he hs ▸ engInternal_inv h) hfeed
  have hrun := drive_ready (es := es) he hs Reply.withFrame_ne_nil hfeed
  rw [← b.inputs_eq] at hrun
  exact ⟨_, hrun, hinv, rfl, rfl, rfl, rfl⟩

/-- After its last byte a block is followed by the next one's CMD17 or by the end. -/
theorem afterCopy_eng (he : s.eng = .running op .copy) :
    (afterCopy s).eng = .idle ∨ (afterCopy s).eng = .running op (.ready (.block .readbytes)) := by
  unfold afterCopy
  split
  · exact .inr (Eng.moveTo_of_running he _)
  · exact .inl rfl

theorem afterCopy_softReset (s : State) : (afterCopy s).softReset = s.softReset := by
  unfold afterCopy
  split <;> rfl

/-- From there the engine makes at most one internal step. -/
theorem internalRun_afterCopy (he : s.eng = .running op .copy) (hs : s.softReset = false) :
    internalRun 2 (afterCopy s) = settle (afterCopy s) ∧ (settle (afterCopy s)).internal = false := by
  have hs' := (afterCopy_softReset s).trans hs
  rcases afterCopy_eng he with hidle | hready
  · have hint := State.internal_of_idle hidle
    rw [settle_idle hidle]
    exact ⟨internalRun_of_not_internal hint 2, hint⟩
  · have hwait : (sendFirst (.block .readbytes) (afterCopy s)).internal = false :=
      State.internal_of_running (l := .frame _) (Eng.moveTo_of_running hready _)
    rw [settle_ready hready hs', internalRun_succ (State.internal_of_running hready), engInternal_ready hready hs']
    exact ⟨internalRun_of_not_internal hwait 1, hwait⟩

/-- The run goes through the whole copy loop before it takes an input. -/
theorem drive_copy {f : Nat → Byte} {n : Nat} (h : s.Inv) (he : s.eng = .running op .copy) (hs : s.softReset = false)
    (hj : s.scratch.j + n + 1 = readHi s s.scratch.k.toNat) (hfit : s.scratch.dst.toNat + n < 2 ^ 32)
    (hf : ∀ i ≤ n, f (s.scratch.dst.toNat + i) = byteAt s.blockbuf (s.scratch.j + i)) (hp : Prompt es) :
    ∃ mem, drive es s = drive es (afterCopy (s.copied (n + 1) mem)) ∧ (afterCopy (s.copied (n + 1) mem)).Inv
      ∧ s.dmem.Gets mem s.scratch.dst.toNat (s.scratch.dst.toNat + n + 1) f := by
  obtain ⟨mem, hrun, hmem⟩ := internalRun_copy f n s he hs hj hfit hf
  obtain ⟨hrest, hwait⟩ := internalRun_afterCopy (s := s.copied (n + 1) mem) he hs
  have hbound : internalBound s = 2 + n + 1 := by
    simp only [internalBound, he]
    omega
  have hsettle : settle s = settle (afterCopy (s.copied (n + 1) mem)) := by rw [settle, hbound, hrun, hrest]
  refine ⟨mem, ?_, ?_, hmem⟩
  · rw [drive_prompt hp (hsettle ▸ hwait), hsettle, ← drive_prompt hp hwait]
  · have hinv := internalRun_inv (0 + n + 1) h
    rw [hrun] at hinv
    exact hinv

/-- A good block with its part of the range: `S` at a position is the byte the card has there. -/
theorem drive_chunk (S : Nat → Byte) {b : BlockReply} (h : s.Inv) (hs : s.softReset = false)
    (he : s.eng = .running op (.ready (.block .readbytes))) (hfit : b.Fits s.cfg.respBudget.toNat s.bs)
    (hS : ∀ j < s.bs, S (s.scratch.k.toNat * s.bs + j) = byteAt b.payload j) (hp : Prompt es) :
    ∃ sc mem, drive (b.inputs ++ es) s = drive es (afterCopy (s.chunkRead op b sc mem))
      ∧ (afterCopy (s.chunkRead op b sc mem)).Inv ∧ sc.k = s.scratch.k ∧ sc.written = rangeBefore s (s.scratch.k.toNat + 1)
      ∧ s.dmem.Gets mem (s.a0.toNat + rangeBefore s s.scratch.k.toNat) (s.a0.toNat + rangeBefore s (s.scratch.k.toNat + 1))
        (fun a => S (readOff s + (a - s.a0.toNat))) := by
  obtain ⟨sc, hrun, hinv, hk, hwritten, hdst, hj⟩ := drive_chunkRead h hs he hfit es
  have hc := h.beforeChunk he
  obtain ⟨hto, -⟩ := hc.dst_toNat
  have hstart := readOff_add_rangeBefore hc.bs_pos hc.size_pos hc.inRange
  have hend := rangeBefore_succ hc.bs_pos hc.size_pos hc.inRange
  have hle := rangeBefore_le s (s.scratch.k.toNat + 1)
  have hhi := readHi_le hc.bs_pos s.scratch.k.toNat
  have hfits := hc.fits
  obtain ⟨n, hn⟩ : ∃ n, readHi s s.scratch.k.toNat = readLo s s.scratch.k.toNat + n + 1 :=
    Nat.exists_eq_add_of_lt (readLo_lt_readHi hc.bs_pos (fun h0 => by simpa [h0] using hc.size_pos) hc.inRange)
  have hnext : s.a0.toNat + rangeBefore s (s.scratch.k.toNat + 1) = sc.dst.toNat + n + 1 := by rw [hdst]; omega
  have hf : ∀ i ≤ n, S (readOff s + (sc.dst.toNat + i - s.a0.toNat))
      = byteAt (b.payload ++ s.blockbuf.drop s.bs) (sc.j + i) := by
    intro i hi
    have hpos : readOff s + (sc.dst.toNat + i - s.a0.toNat) = s.scratch.k.toNat * s.bs + (sc.j + i) := by rw [hdst, hj]; omega
    have hlt : sc.j + i < s.bs := by omega
    rw [hpos, hS _ hlt, byteAt, byteAt, List.getD_append _ _ _ _ (hfit.2.2 ▸ hlt)]
  obtain ⟨mem, hcopy, hinv', hmem⟩ := drive_copy (f := fun a => S (readOff s + (a - s.a0.toNat))) hinv rfl hs
    (show sc.j + n + 1 = readHi s sc.k.toNat by rw [hj, hk, hn]) (show sc.dst.toNat + n < 2 ^ 32 by omega) hf hp
  refine ⟨_, mem, hrun.trans hcopy, hinv', hk, ?written, ?mem⟩
  case written =>
    show sc.written + (n + 1) = _
    rw [hwritten, hc.written]
    omega
  case mem =>
    rw [hnext, ← hto, ← hdst]
    exact hmem

end Chunk

end Sys2Proof.Machine
end

section
/-! READBYTES end to end (42_block_io.md R206, R208): its start, its blocks, its ends. -/

namespace Sys2Proof.Machine

/-! ## What the card holds -/

/-- `S` at a position from the start of the first block is the byte that the replies carry there. -/
def Carries (S : Nat → Byte) (size : Nat) (blocks : List (BlockReply × Nat)) : Prop :=
  ∀ p ∈ blocks, ∀ j < size, S (p.2 * size + j) = byteAt p.1.payload j

/-- Byte `q` of the payloads of blocks in a row (42_block_io.md R208). -/
def cardByte (blocks : List BlockReply) (size q : Nat) : Byte :=
  byteAt ((blocks.map BlockReply.payload).getD (q / size) []) (q % size)

theorem carries_cardByte (blocks : List BlockReply) (size : Nat) : Carries (cardByte blocks size) size blocks.zipIdx := by
  rintro ⟨b, i⟩ hb j hj
  have hget : blocks[i]? = some b := List.mem_zipIdx_iff_getElem?.mp hb
  have hdiv : (i * size + j) / size = i := Nat.div_eq_of_lt_le (Nat.le_add_right ..) (by rw [Nat.succ_mul]; omega)
  have hmod : (i * size + j) % size = j := by rw [Nat.mul_add_mod', Nat.mod_eq_of_lt hj]
  rw [cardByte, hdiv, hmod, List.getD_eq_getElem?_getD, List.getElem?_map, hget]
  rfl

/-- The requests of block reads at the given blocks of the range. -/
def State.requests (s : State) (blocks : List (BlockReply × Nat)) : List Txn :=
  blocks.flatMap fun b => b.1.sent (BitVec.ofNat 32 (readFirst s + b.2)) s.bs

/-! ## Blocks in a row (42_block_io.md R206) -/

/-- READBYTES before the CMD17 of a further block, with the blocks before it read and copied. -/
def State.nextChunk (s : State) (op : Byte) (b : List Byte) (sc : Scratch) (mem : Memory) (ts : List Txn) : State :=
  { s with
    status := { s.status with bufvalid := false }
    blockbuf := b
    scratch := sc
    dmem := mem
    bus := s.bus ++ ts
    eng := .running op (.ready (.block .readbytes)) }

theorem State.nextChunk_nextChunk (s : State) (op : Byte) (b b' : List Byte) (sc sc' : Scratch) (mem mem' : Memory)
    (ts ts' : List Txn) : (s.nextChunk op b sc mem ts).nextChunk op b' sc' mem' ts' = s.nextChunk op b' sc' mem' (ts ++ ts') := by
  rw [State.nextChunk, State.nextChunk, State.nextChunk, List.append_assoc]

section Chunks
variable {op : Byte} {es : List Event}

theorem afterCopy_of_lt {s : State} {b : BlockReply} {sc : Scratch} {mem : Memory} (hk : sc.k.toNat + 1 < readCount s) :
    ∃ sc', afterCopy (s.chunkRead op b sc mem) = s.nextChunk op (b.payload ++ s.blockbuf.drop s.bs) sc' mem
      (b.sent s.scratch.lba s.bs) ∧ sc'.k = sc.k + 1 :=
  ⟨_, (if_pos hk).trans rfl, rfl⟩

theorem afterCopy_of_last {s : State} {b : BlockReply} {sc : Scratch} {mem : Memory} (hk : sc.k.toNat + 1 = readCount s) :
    afterCopy (s.chunkRead op b sc mem)
      = { s.chunkRead op b sc mem with res0 := BitVec.ofNat 32 sc.written }.complete .none :=
  if_neg (show ¬ sc.k.toNat + 1 < readCount s by omega)

theorem prompt_blocks (blocks : List BlockReply) (hp : Prompt es) : Prompt (blocks.flatMap BlockReply.inputs ++ es) := by
  induction blocks with
  | nil => exact hp
  | cons b blocks ih =>
    rw [List.flatMap_cons, List.append_assoc, b.inputs_eq]
    exact prompt_rx _ ih

/-- Good blocks in a row, none of them the last of the range. -/
theorem drive_chunks (S : Nat → Byte) (hp : Prompt es) :
    ∀ (blocks : List BlockReply) (s : State), s.Inv → s.softReset = false → s.eng = .running op (.ready (.block .readbytes)) → s.scratch.k.toNat + blocks.length < readCount s →
    (∀ b ∈ blocks, b.Fits s.cfg.respBudget.toNat s.bs) → Carries S s.bs (blocks.zipIdx s.scratch.k.toNat) →
    ∃ buf sc mem, drive (blocks.flatMap BlockReply.inputs ++ es) s
        = drive es (s.nextChunk op buf sc mem (s.requests (blocks.zipIdx s.scratch.k.toNat)))
      ∧ (s.nextChunk op buf sc mem (s.requests (blocks.zipIdx s.scratch.k.toNat))).Inv
      ∧ sc.k.toNat = s.scratch.k.toNat + blocks.length ∧ buf.drop s.bs = s.blockbuf.drop s.bs
      ∧ s.dmem.Gets mem (s.a0.toNat + rangeBefore s s.scratch.k.toNat)
          (s.a0.toNat + rangeBefore s (s.scratch.k.toNat + blocks.length)) (fun a => S (readOff s + (a - s.a0.toNat)))
  | [], s, hinv, _, he, _, _, _ => by
    have hself : s.nextChunk op s.blockbuf s.scratch s.dmem [] = s := by
      rw [State.nextChunk, ← (hinv.beforeChunk he).invalid, ← he, List.append_nil]
    exact ⟨s.blockbuf, s.scratch, s.dmem, congrArg (drive es) hself.symm, hself.symm ▸ hinv, rfl, rfl,
      Memory.Gets.refl _ _ _⟩
  | b :: blocks, s, hinv, hs, he, hlen, hfit, hS => by
    rw [List.zipIdx_cons] at hS ⊢
    rw [List.length_cons] at hlen ⊢
    obtain ⟨hS0, hS⟩ := List.forall_mem_cons.mp hS
    obtain ⟨hfit0, hfit⟩ := List.forall_mem_cons.mp hfit
    have hc := hinv.beforeChunk he
    obtain ⟨sc, mem, hrun, hinv', hk, -, hmem⟩ := drive_chunk S hinv hs he hfit0 hS0 (prompt_blocks blocks hp)
    obtain ⟨sc', hnext, hk'⟩ := afterCopy_of_lt (s := s) (op := op) (b := b) (sc := sc) (mem := mem) (by rw [hk]; omega)
    have hcount := readCount_le hc.bs_pos
    have hk1 : sc'.k.toNat = s.scratch.k.toNat + 1 := by
      rw [hk', hk]
      exact toNat_add_one (n := 2 ^ 32 - 1) (by omega) (by decide)
    rw [hnext] at hrun hinv'
    obtain ⟨buf, sc₂, mem₂, hrun₂, hinv₂, hlast, hbuf, hmem₂⟩ := drive_chunks S hp blocks
      (s.nextChunk op (b.payload ++ s.blockbuf.drop s.bs) sc' mem (b.sent s.scratch.lba s.bs)) hinv' hs rfl
      (show sc'.k.toNat + blocks.length < readCount s by omega) hfit (show Carries S s.bs (blocks.zipIdx sc'.k.toNat) by rwa [hk1])
    rw [State.nextChunk_nextChunk] at hrun₂ hinv₂
    have hrequests : s.requests ((b, s.scratch.k.toNat) :: blocks.zipIdx (s.scratch.k.toNat + 1))
        = b.sent s.scratch.lba s.bs ++ s.requests (blocks.zipIdx sc'.k.toNat) := by
      rw [hc.lba, hk1]
      rfl
    have hend : s.scratch.k.toNat + (blocks.length + 1) = sc'.k.toNat + blocks.length := by omega
    rw [← hk1] at hmem
    rw [hrequests, hend, List.flatMap_cons, List.append_assoc, hrun]
    refine ⟨buf, sc₂, mem₂, hrun₂, hinv₂, hlast, hbuf.trans (List.drop_left' hfit0.2.2), hmem.trans hmem₂ ?_ ?_⟩
    · exact Nat.add_le_add_left (rangeBefore_mono s (by omega)) _
    · exact Nat.add_le_add_left (rangeBefore_mono s (Nat.le_add_right ..)) _

end Chunks

/-! ## READBYTES from its issue (42_block_io.md R206) -/

/-- READBYTES before its first CMD17. -/
def State.readbytesAsks (s : State) : State :=
  let lba : Word := BitVec.ofNat 32 (s.arg2.toNat / s.bs) + 0
  s.asking 0x06 .readbytes { s.scratch with k := 0, written := 0, dst := s.arg0, lba := lba, frame := frameWord 17 (lba <<< 9) }

section Readbytes
variable {s : State} {es : List Event}

theorem readbytesArgsOk_issue (h0 : s.arg0.toNat + s.arg1.toNat ≤ 2 ^ 32) (h2 : s.arg2.toNat + s.arg1.toNat ≤ 2 ^ 32) :
    readbytesArgsOk (s.issue 0x06) = true :=
  Bool.and_eq_true_iff.mpr ⟨decide_eq_true h0, decide_eq_true h2⟩

/-- A legal READBYTES whose ranges fit begins by ending the scan. -/
theorem startOp_readbytes (h : s.CanIssue) (hinv : s.Inv) (hready : s.status.stage = .ready)
    (hargs : readbytesArgsOk (s.issue 0x06) = true) : startOp 0x06 (s.issue 0x06) =
      (let t := State.put { s.issue 0x06 with
          status := { (s.issue 0x06).status with dirActive := false }
          dir := s.dir.dropped } { s.scratch with written := 0, dst := s.arg0 }
       if s.arg1 = 0 then { t with res0 := 0 }.complete .none else readChunk 0 t) := by
  have hlegal : opLegal 0x06 (s.issue 0x06) = true := State.isReady_issue hready _
  refine (startOp_of_legal hlegal).trans ((if_pos hargs).trans ?_)
  rw [(h.issue_inv hinv 0x06).core.cancelScan_dropped]
  rfl

theorem startOp_readbytes_of_ne (h : s.CanIssue) (hinv : s.Inv) (hready : s.status.stage = .ready)
    (hargs : readbytesArgsOk (s.issue 0x06) = true) (hsize : s.arg1 ≠ 0) : startOp 0x06 (s.issue 0x06) = s.readbytesAsks :=
  (startOp_readbytes h hinv hready hargs).trans ((if_neg hsize).trans rfl)

theorem State.readbytesAsks_inv (h : s.CanIssue) (hinv : s.Inv) (hready : s.status.stage = .ready)
    (hargs : readbytesArgsOk (s.issue 0x06) = true) (hsize : s.arg1 ≠ 0) : s.readbytesAsks.Inv :=
  startOp_readbytes_of_ne h hinv hready hargs hsize ▸
    startOp_inv ((h.issue_inv hinv 0x06).live rfl h.softReset) (op := 0x06) rfl

/-- READBYTES over good blocks, none of them the last of its range. -/
theorem exec_readbytes_chunks {blocks : List BlockReply} (S : Nat → Byte) (hinv : s.Inv) (h : s.CanIssue)
    (hready : s.status.stage = .ready) (hargs : readbytesArgsOk (s.issue 0x06) = true) (hsize : s.arg1 ≠ 0)
    (hlen : blocks.length < readCount s.readbytesAsks) (hfit : ∀ b ∈ blocks, b.Fits s.cfg.respBudget.toNat s.bs)
    (hS : Carries S s.bs blocks.zipIdx) (hp : Prompt es) (hev : s.events = blocks.flatMap BlockReply.inputs ++ es) :
    ∃ buf sc mem, let t := s.readbytesAsks.nextChunk 0x06 buf sc mem (s.readbytesAsks.requests blocks.zipIdx)
      exec .readbytes s = .next (drive es t) ∧ t.Inv ∧ sc.k.toNat = blocks.length ∧ buf.drop s.bs = s.blockbuf.drop s.bs
      ∧ s.dmem.Gets mem s.arg0.toNat (s.arg0.toNat + rangeBefore s.readbytesAsks blocks.length)
        (fun a => S (s.arg2.toNat % s.bs + (a - s.arg0.toNat))) := by
  have hstart := startOp_readbytes_of_ne h hinv hready hargs hsize
  have hrun : exec .readbytes s = .next (drive s.events s.readbytesAsks) :=
    launch_asking h (hev ▸ prompt_blocks blocks hp) hstart rfl h.softReset
  obtain ⟨buf, sc, mem, hdrive, hinv', hk, hbuf, hmem⟩ := drive_chunks S hp blocks s.readbytesAsks
    (s.readbytesAsks_inv h hinv hready hargs hsize) h.softReset rfl ((Nat.zero_add _).symm ▸ hlen) hfit hS
  rw [hrun, hev]
  refine ⟨buf, sc, mem, congrArg _ hdrive, hinv', hk.trans (Nat.zero_add _), hbuf, ?_⟩
  have hbegin : s.readbytesAsks.a0.toNat + rangeBefore s.readbytesAsks s.readbytesAsks.scratch.k.toNat = s.arg0.toNat :=
    congrArg (s.arg0.toNat + ·) (rangeBefore_zero _)
  have hm : s.readbytesAsks.scratch.k.toNat + blocks.length = blocks.length := Nat.zero_add _
  rw [hbegin, hm] at hmem
  exact hmem

end Readbytes

/-- Settles O44: an empty range is over at the start; else the blocks before the last are copied one after another, and READBYTES
completes with the last. -/
theorem readbytesRange : Obligations.ReadbytesRange := by
  intro s blocks es hinv h hready h0 h2
  have hargs := readbytesArgsOk_issue h0 h2
  refine ⟨fun hsize hp => ?nothing, fun hsize hlen hfit hp hev => ?blocks⟩
  case nothing =>
    have hstart := (startOp_readbytes h hinv hready hargs).trans (if_pos hsize)
    have hrun : exec .readbytes s = _ := launch_over 0x06 h hp (by rw [hstart]; rfl)
    rw [hrun, hstart]
    exact ⟨_, rfl⟩
  case blocks =>
    have hfirst := (s.readbytesAsks_inv h hinv hready hargs hsize).beforeChunk rfl
    have hlen : blocks.length = readCount s.readbytesAsks := hlen
    rcases List.eq_nil_or_concat' blocks with rfl | ⟨init, last, rfl⟩
    · exact absurd (hlen ▸ hfirst.inRange) (Nat.not_lt_zero _)
    have hS := carries_cardByte (init ++ [last]) s.bs
    rw [List.length_append, List.length_singleton] at hlen
    rw [List.flatMap_append, List.flatMap_singleton, List.append_assoc] at hev
    rw [List.zipIdx_append, Nat.zero_add, List.zipIdx_singleton] at hS ⊢
    obtain ⟨hSinit, hSlast⟩ := List.forall_mem_append.mp hS
    obtain ⟨hfitinit, hfitlast⟩ := List.forall_mem_append.mp hfit
    obtain ⟨buf, sc, mem, hrun, hinv', hk, hbuf, hmem⟩ := exec_readbytes_chunks _ hinv h hready hargs hsize (by omega) hfitinit
      hSinit (prompt_blocks [last] hp) (by rw [hev, List.flatMap_singleton])
    rw [List.flatMap_singleton] at hrun
    have ht := hinv'.beforeChunk rfl
    obtain ⟨sc', mem', hdrive, -, hk', hwritten, hmem'⟩ := drive_chunk (cardByte (init ++ [last]) s.bs) hinv' h.softReset rfl
      (hfitlast last (List.mem_singleton_self _)) (hk ▸ hSlast (last, init.length) (List.mem_singleton_self _)) hp
    have hcopied : rangeBefore s.readbytesAsks (sc.k.toNat + 1) = s.arg1.toNat := by
      rw [hk, hlen]
      exact rangeBefore_readCount hfirst.bs_pos hfirst.size_pos
    have hres : BitVec.ofNat 32 sc'.written = s.arg1 := by
      rw [show sc'.written = s.arg1.toNat from hwritten.trans hcopied, BitVec.ofNat_toNat, BitVec.setWidth_eq]
    rw [afterCopy_of_last (by rw [hk']; exact (congrArg (· + 1) hk).trans hlen), hres, drive_idle es rfl] at hdrive
    have hrequests : (init.zipIdx ++ [(last, init.length)]).flatMap
          (fun b => b.1.sent (BitVec.ofNat 32 (s.arg2.toNat / s.bs + b.2)) s.bs)
        = s.readbytesAsks.requests init.zipIdx ++ last.sent sc.lba s.bs := by
      have hlba : sc.lba = BitVec.ofNat 32 (s.arg2.toNat / s.bs + init.length) := hk ▸ ht.lba
      rw [List.flatMap_append, List.flatMap_singleton, hlba]
      rfl
    replace hmem' : mem.Gets mem' (s.arg0.toNat + rangeBefore s.readbytesAsks sc.k.toNat)
        (s.arg0.toNat + rangeBefore s.readbytesAsks (sc.k.toNat + 1))
        (fun a => cardByte (init ++ [last]) s.bs (s.arg2.toNat % s.bs + (a - s.arg0.toNat))) := hmem'
    rw [hcopied, hk] at hmem'
    refine ⟨sc', last.payload ++ buf.drop s.bs, mem', ?run, ?buffer, hmem.trans hmem' (Nat.le_add_right ..)
      (Nat.add_le_add_left (rangeBefore_le s.readbytesAsks _) _)⟩
    case run =>
      rw [hrun, hdrive, hrequests, ← List.append_assoc]
      rfl
    case buffer =>
      rw [List.getLast?_concat, hbuf]
      exact fun b hb => by rw [Option.mem_some.mp hb]

theorem Reply.Fits.prompt {r : Reply} {budget count : Nat} (h : r.Fits budget count) (es : List Event) :
    Prompt (r.inputs ++ es) := by
  have hne : r.received ≠ [] := List.append_ne_nil_of_left_ne_nil (List.ne_nil_of_length_eq_add_one h.1) _
  obtain ⟨b, bs, hreceived⟩ := List.exists_cons_of_ne_nil hne
  rw [r.inputs_eq, hreceived]
  exact prompt_rx_cons b bs es

/-- An op whose block read is rejected is over, and all further inputs stay. -/
theorem drive_rejected {s : State} {op : Byte} {u : BlockUse} {arg : Word} {r : Reply}
    (hframe : s.scratch.frame = frameWord 17 arg) (hs : s.softReset = false) (he : s.eng = .running op (.ready (.block u)))
    (hfit : r.Fits s.cfg.respBudget.toNat 1) (h0 : r.byte 0 ≠ 0x00) (es : List Event) :
    drive (r.inputs ++ es) s = { s.rejected u arg r with events := es } :=
  (drive_reply hs he nofun nofun hframe hfit fun _ => gotStatus_of_ne_zero hfit h0).trans (drive_idle es rfl)

/-- Settles O45: the blocks before the rejected one are copied one after another, and its status byte ends READBYTES. -/
theorem readbytesStops : Obligations.ReadbytesStops := by
  intro s blocks r es hinv h hready h0 h2 hsize hlen hfit hr hbyte hev
  have hargs := readbytesArgsOk_issue h0 h2
  rw [List.append_assoc] at hev
  obtain ⟨buf, sc, mem, hrun, hinv', hk, -, hmem⟩ := exec_readbytes_chunks (cardByte blocks s.bs) hinv h hready hargs hsize hlen
    hfit (carries_cardByte blocks s.bs) (hr.prompt es) hev
  have ht := hinv'.beforeChunk rfl
  have hbefore : rangeBefore s.readbytesAsks blocks.length = blocks.length * s.bs - s.arg2.toNat % s.bs :=
    (rangeBefore_of_lt (s := s.readbytesAsks) ht.bs_pos ht.size_pos hlen).2
  have hlba : sc.lba = BitVec.ofNat 32 (s.arg2.toNat / s.bs + blocks.length) := hk ▸ ht.lba
  have hwritten : sc.written = rangeBefore s.readbytesAsks blocks.length := hk ▸ ht.written
  rw [drive_rejected ht.frame h.softReset rfl hr hbyte es] at hrun
  rw [hbefore] at hwritten hmem
  rw [hrun, ← hlba, ← hwritten]
  exact ⟨_, _, mem, rfl, hwritten ▸ hmem⟩

end Sys2Proof.Machine
end

section
/-! FAT32 volumes end to end (43_fat32.md R230 to R240): CLUS2LBA, PARTITION, and MOUNT with and without its signature. -/

namespace Sys2Proof.Machine

/-! ## CLUS2LBA (43_fat32.md R240) -/

theorem clusterLba_toNat (v : Vol) {c : Word} (h : 2 ≤ c.toNat) :
    (clusterLba v c).toNat = (v.dataLba.toNat + (c.toNat - 2) * v.spc.toNat) % 2 ^ 32 := by
  have hsub : (c - 2).toNat = c.toNat - 2 := BitVec.toNat_sub_of_le h
  rw [clusterLba, BitVec.toNat_add, BitVec.toNat_mul, hsub, toNat_zeroExtend v.spc (by decide), Nat.add_mod_mod]

theorem startClus2lba_of_le {s : State} (h : 2 ≤ s.a0.toNat) :
    startClus2lba s = { s with res0 := clusterLba s.vol s.a0 }.complete .none := if_neg (Nat.not_lt.mpr h)

/-- Settles O52: CLUS2LBA is over at its first step, whichever of its three cases it is in. -/
theorem clus2lba : Obligations.Clus2lba := by
  intro s h hp
  refine ⟨fun hm hc => ?mapped, fun hm hc => ?invalid, fun hm => ?unmounted⟩
  case mapped =>
    have hlegal : opLegal 0x09 (s.issue 0x09) = true := hm
    have hstart : startOp 0x09 (s.issue 0x09) = { s.issue 0x09 with res0 := clusterLba s.vol s.arg0 }.complete .none :=
      (startOp_of_legal hlegal).trans (startClus2lba_of_le hc)
    have hrun : exec .clus2lba s = _ := launch_over 0x09 h hp (by rw [hstart, State.complete_eng])
    rw [hrun, hstart]
    exact ⟨_, rfl, clusterLba_toNat s.vol hc⟩
  case invalid => exact launch_checked h hp hm (startClus2lba_invalidCluster hc)
  case unmounted => exact launch_after h hp (if_neg (ne_true_of_eq_false hm))

/-! ## A 512-byte block read (42_block_io.md R200, 43_fat32.md R230) -/

/-- The running op with a 512-byte block in BLOCKBUF. -/
def State.holding (s : State) (op : Byte) (u : BlockUse) (b : BlockReply) (lba : Word) (sc : Scratch) : State :=
  { s with
    status := { s.status with bufvalid := true }
    blockbuf := b.payload
    scratch := sc
    bus := s.bus ++ b.sent lba 512
    eng := .running op (.data u) }

/-- An op that stands before the CMD17 of a 512-byte block goes on with the block. -/
theorem drive_block512 {s : State} {op : Byte} {u : BlockUse} {b : BlockReply} {lba : Word} (hs : s.softReset = false)
    (he : s.eng = .running op (.ready (.block u))) (hframe : s.scratch.frame = frameWord 17 (lba <<< 9))
    (hsize : s.blockSize = 512) (hbuf : s.blockbuf.length = 512) (hfit : b.Fits s.cfg.respBudget.toNat 512) (es : List Event) :
    ∃ sc, drive (b.inputs ++ es) s = drive es (afterBlock u (s.holding op u b lba sc)) := by
  have hbs : s.bs = 512 := congrArg BitVec.toNat hsize
  have hdrop : s.blockbuf.drop 512 = [] := List.drop_eq_nil_of_le (Nat.le_of_eq hbuf)
  have hfeed := feed_blockReply (arg := lba <<< 9) hs he (hbs.symm ▸ hfit) (Nat.le_of_eq hbs)
    (Nat.le_of_eq (hbs.trans hbuf.symm))
  rw [State.put_frame_self hframe, State.blockRead, hbs, hdrop, List.append_nil] at hfeed
  exact ⟨_, b.inputs_eq ▸ drive_ready he hs Reply.withFrame_ne_nil hfeed⟩

theorem BlockReply.Fits.prompt {b : BlockReply} {budget size : Nat} (h : b.Fits budget size) (es : List Event) :
    Prompt (b.inputs ++ es) := by
  rw [b.inputs_eq, Reply.rx_withFrame, List.append_assoc]
  exact h.status.prompt _

/-! ## The partition record (43_fat32.md R231 to R233) -/

/-- The fields of record `n` of a block. -/
def partitionRecord (b : List Byte) (n : Nat) : Part where
  ptype := byteAt b (recordOffset n + 4)
  count := le32 b (recordOffset n + 4)
  lba := le32 b (recordOffset n + 8)

theorem decodePartition_eq (s : State) : decodePartition s = { s with part := partitionRecord s.blockbuf s.a0.toNat } := rfl

theorem finishPartition_eq (s : State) : finishPartition s = { s with
    part := partitionRecord s.blockbuf s.a0.toNat
    res0 := (partitionRecord s.blockbuf s.a0.toNat).lba }.complete .none := by
  rw [finishPartition, decodePartition_eq]

theorem mountPartition_eq (s : State) : mountPartition s = readBlock .mountBoot (partitionRecord s.blockbuf s.a0.toNat).lba
    { s with part := partitionRecord s.blockbuf s.a0.toNat } := by
  rw [mountPartition, decodePartition_eq]

theorem checkPartition_eq_none {s : State} (h1 : 1 ≤ s.a0.toNat) (h4 : s.a0.toNat ≤ 4) (hb : s.blockSize = 512) :
    checkPartition s = .none := by
  have hargs : partitionArgsOk s = true := Bool.and_eq_true_iff.mpr ⟨decide_eq_true h1, decide_eq_true h4⟩
  have hsize : s.bs = 512 := congrArg BitVec.toNat hb
  simp only [checkPartition, hargs, hsize, Bool.not_true, Bool.false_eq_true, ne_eq, not_true_eq_false, if_false]

/-! ## PARTITION (43_fat32.md R232) -/

/-- PARTITION before its CMD17. -/
def State.partitionAsks (s : State) : State :=
  s.asking 0x07 .partition { s.scratch with lba := 0, frame := frameWord 17 ((0 : Word) <<< 9) }

theorem startOp_partition {s : State} (h : s.CanIssue) (hinv : s.Inv) (hready : s.status.stage = .ready)
    (h1 : 1 ≤ s.arg0.toNat) (h4 : s.arg0.toNat ≤ 4) (hsize : s.blockSize = 512) :
    startOp 0x07 (s.issue 0x07) = s.partitionAsks := by
  have hlegal : opLegal 0x07 (s.issue 0x07) = true := State.isReady_issue hready _
  have hcheck : checkPartition (s.issue 0x07) = .none := checkPartition_eq_none h1 h4 hsize
  refine (startOp_of_legal hlegal).trans ((if_pos hcheck).trans ?_)
  rw [(h.issue_inv hinv 0x07).core.cancelScan_dropped]
  rfl

/-- Settles O49: block 0 is read, and PARTITION completes with its record. -/
theorem partitionCompletes : Obligations.PartitionCompletes := by
  intro s b es hinv h hready hsize h1 h4 hfit hev
  have hrun : exec .partition s = .next (drive s.events s.partitionAsks) :=
    launch_asking h (hev ▸ hfit.prompt es) (startOp_partition h hinv hready h1 h4 hsize) rfl h.softReset
  obtain ⟨sc, hdrive⟩ := drive_block512 (s := s.partitionAsks) (u := .partition) (lba := 0) h.softReset rfl rfl hsize
    hinv.buffers.blockbuf hfit es
  rw [hrun, hev, hdrive, afterBlock, finishPartition_eq, drive_idle es rfl]
  exact ⟨sc, rfl⟩

/-! ## The boot sector (43_fat32.md R234 to R237) -/

theorem regionLbas_toNat (lba : Word) (v : Vol) :
    (regionLbas lba v).1.toNat = (lba.toNat + v.rsvd.toNat) % 2 ^ 32
    ∧ (regionLbas lba v).2.toNat = ((regionLbas lba v).1.toNat + v.nfats.toNat * v.spf.toNat) % 2 ^ 32 := by
  constructor
  · rw [regionLbas, BitVec.toNat_add, toNat_zeroExtend v.rsvd (by decide)]
  · rw [regionLbas, BitVec.toNat_add, BitVec.toNat_mul, toNat_zeroExtend v.nfats (by decide), Nat.add_mod_mod]

section FinishMount
variable {s : State}

theorem finishMount_of_signature (h : le16 s.blockbuf 0x1FE = 0xAA55) : finishMount s =
    (let r := regionLbas s.part.lba (decodeBpb s).vol
     { decodeBpb s with
      vol := { (decodeBpb s).vol with bootSig := 0xAA55, fatLba := r.1, dataLba := r.2 }
      status := { s.status with mounted := true }
      res0 := r.1
      res1 := r.2 }.complete .none) := by
  rw [← h]
  exact if_pos h

theorem finishMount_of_badSignature (h : le16 s.blockbuf 0x1FE ≠ 0xAA55) :
    finishMount s = (decodeBpb s).complete .badSignature := if_neg h

theorem finishMount_eng (s : State) : (finishMount s).eng = .idle := by
  rw [finishMount]
  split <;> rfl

end FinishMount

/-! ## MOUNT (43_fat32.md R236) -/

/-- MOUNT before its first CMD17. -/
def State.mountAsks (s : State) : State :=
  State.asking { s with status := { s.status with mounted := false } } 0x08 .mountMbr
    { s.scratch with lba := 0, frame := frameWord 17 ((0 : Word) <<< 9) }

/-- MOUNT with the boot sector in BLOCKBUF and the fields of block 0's record in the partition registers. -/
def State.bootRead (s : State) (m b : BlockReply) (sc : Scratch) : State :=
  { s.issue 0x08 with
    part := partitionRecord m.payload s.arg0.toNat
    status := { (s.issue 0x08).status with mounted := false, bufvalid := true, dirActive := false }
    dir := s.dir.dropped
    blockbuf := b.payload
    scratch := sc
    bus := s.bus ++ m.sent 0 512 ++ b.sent (partitionRecord m.payload s.arg0.toNat).lba 512
    eng := .running 0x08 (.data .mountBoot) }

section Mount
variable {s : State}

theorem startOp_mount (h : s.CanIssue) (hinv : s.Inv) (hready : s.status.stage = .ready)
    (h1 : 1 ≤ s.arg0.toNat) (h4 : s.arg0.toNat ≤ 4) (hsize : s.blockSize = 512) :
    startOp 0x08 (s.issue 0x08) = s.mountAsks := by
  have hlegal : opLegal 0x08 (s.issue 0x08) = true := State.isReady_issue hready _
  have hcheck : checkPartition (s.issue 0x08) = .none := checkPartition_eq_none h1 h4 hsize
  refine (startOp_of_legal hlegal).trans ((if_pos hcheck).trans ?_)
  rw [(h.issue_inv hinv 0x08).core.cancelScan_dropped]
  rfl

/-- MOUNT over two good blocks is over with what it makes of the second. -/
theorem exec_mount {m b : BlockReply} {es : List Event} (h : s.CanIssue) (hinv : s.Inv) (hready : s.status.stage = .ready)
    (hsize : s.blockSize = 512) (h1 : 1 ≤ s.arg0.toNat) (h4 : s.arg0.toNat ≤ 4) (hm : m.Fits s.cfg.respBudget.toNat 512)
    (hb : b.Fits s.cfg.respBudget.toNat 512) (hev : s.events = m.inputs ++ b.inputs ++ es) :
    ∃ sc, exec .mount s = .next { finishMount (s.bootRead m b sc) with events := es } := by
  rw [List.append_assoc] at hev
  have hrun : exec .mount s = .next (drive s.events s.mountAsks) :=
    launch_asking h (hev ▸ hm.prompt _) (startOp_mount h hinv hready h1 h4 hsize) rfl h.softReset
  obtain ⟨sc, hmbr⟩ := drive_block512 (s := s.mountAsks) (u := .mountMbr) (lba := 0) h.softReset rfl rfl hsize
    hinv.buffers.blockbuf hm (b.inputs ++ es)
  rw [afterBlock, mountPartition_eq] at hmbr
  have ⟨_, _, hlen⟩ := hm
  obtain ⟨sc', hboot⟩ := drive_block512 (s := readBlock .mountBoot (partitionRecord m.payload s.arg0.toNat).lba
      { s.mountAsks.holding 0x08 .mountMbr m 0 sc with part := partitionRecord m.payload s.arg0.toNat })
    (u := .mountBoot) h.softReset rfl rfl hsize hlen hb es
  rw [afterBlock, drive_idle es (finishMount_eng _)] at hboot
  exact ⟨sc', hrun.trans (congrArg _ (hev ▸ hmbr.trans hboot))⟩

end Mount

/-- Settles O50: both blocks are read, and the signature lets the region LBAs be computed. -/
theorem mountCompletes : Obligations.MountCompletes := by
  intro s m b plba es hinv h hready hsize h1 h4 hm hb hlba hsig hev
  subst hlba
  obtain ⟨sc, hrun⟩ := exec_mount h hinv hready hsize h1 h4 hm hb hev
  obtain ⟨hfat, hdata⟩ := regionLbas_toNat (partitionRecord m.payload s.arg0.toNat).lba (decodeBpb (s.bootRead m b sc)).vol
  rw [finishMount_of_signature (s := s.bootRead m b sc) hsig] at hrun
  exact ⟨sc, _, _, hrun, hfat, hdata⟩

/-- Settles O51: both blocks are read, and the wrong signature ends MOUNT before the region LBAs. -/
theorem mountBadSignature : Obligations.MountBadSignature := by
  intro s m b plba es hinv h hready hsize h1 h4 hm hb hlba hsig hev
  subst hlba
  obtain ⟨sc, hrun⟩ := exec_mount h hinv hready hsize h1 h4 hm hb hev
  rw [finishMount_of_badSignature (s := s.bootRead m b sc) hsig] at hrun
  exact ⟨sc, hrun⟩

end Sys2Proof.Machine
end

section
/-! The names of directory slots (44_directory.md R262 to R267): a short name, the bytes of code units and chunks, and the order of a
long name's fragments. -/

namespace Sys2Proof.Machine

/-! ## Short names (44_directory.md R262) -/

/-- Exactly the spaces at the end of a field are trimmed off it. -/
theorem trimRight_field {f : List Byte} {n : Nat} (hn : f.length = n) :
    f = trimRight f ++ List.replicate (n - (trimRight f).length) 0x20 ∧ (trimRight f).getLast? ≠ some 0x20
      ∧ (trimRight f).length ≤ n := by
  have hsplit : trimRight f ++ f.rtakeWhile (· == 0x20) = f := List.rdropWhile_append_rtakeWhile
  have hlen := congrArg List.length hsplit
  rw [List.length_append, hn] at hlen
  have hspaces : f.rtakeWhile (· == 0x20) = List.replicate (n - (trimRight f).length) 0x20 :=
    List.eq_replicate_iff.mpr ⟨by omega, fun x hx => beq_iff_eq.mp (List.mem_rtakeWhile_imp (p := (· == 0x20)) hx)⟩
  refine ⟨by rw [← hspaces, hsplit], fun h => ?_, by omega⟩
  obtain ⟨hne, hlast⟩ := List.mem_getLast?_eq_getLast h
  exact List.rdropWhile_last_not (· == 0x20) f hne (beq_iff_eq.mpr hlast.symm)

/-- Settles O54: base and extension are the two fields, each without the spaces at its end. -/
theorem shortName_spec : Obligations.ShortName := by
  intro t ht
  obtain ⟨hbase, hbaseLast, hbaseLen⟩ := trimRight_field (f := t.take 8) (n := 8) (by rw [List.length_take, ht]; rfl)
  obtain ⟨hext, hextLast, hextLen⟩ :=
    trimRight_field (f := (t.drop 8).take 3) (n := 3) (by rw [List.length_take, List.length_drop, ht]; rfl)
  exact ⟨_, _, rfl, hbase, hbaseLast, hbaseLen, hext, hextLast, hextLen⟩

/-! ## UTF-8 (44_directory.md R264 to R266) -/

/-- The bits of a byte below its marker of `8 - i` bits add to it. -/
theorem toNat_marker_or {c i : Nat} (hc : c <<< i < 2 ^ 8) {y : Byte} (hy : y.toNat < 2 ^ i) :
    (BitVec.ofNat 8 (c <<< i) ||| y).toNat = c <<< i + y.toNat := by
  rw [BitVec.toNat_or, BitVec.toNat_ofNat, Nat.mod_eq_of_lt hc, Nat.shiftLeft_add_eq_or_of_lt hy]

/-- A continuation byte holds the low six bits. -/
theorem toNat_continuation (v : BitVec 16) : (0x80 ||| (v &&& 0x3F).setWidth 8 : Byte).toNat = 0x80 + v.toNat % 64 := by
  have hlow : ((v &&& 0x3F).setWidth 8 : Byte).toNat = v.toNat % 64 := by
    have hand : (v &&& 0x3F).toNat = v.toNat % 64 := Nat.and_two_pow_sub_one_eq_mod v.toNat 6
    rw [BitVec.toNat_setWidth, hand]
    omega
  rw [← hlow]
  exact toNat_marker_or (c := 2) (i := 6) (by decide) (by omega)

theorem toNat_setWidth_shiftRight {u : BitVec 16} {k : Nat} (h : u.toNat / 2 ^ k < 2 ^ 8) :
    ((u >>> k).setWidth 8 : Byte).toNat = u.toNat / 2 ^ k := by
  rw [BitVec.toNat_setWidth, BitVec.toNat_ushiftRight, Nat.shiftRight_eq_div_pow, Nat.mod_eq_of_lt h]

theorem utf8_toNat (u : BitVec 16) : (utf8 u).map BitVec.toNat =
    if u.toNat ≤ 0x7F then [u.toNat]
    else if u.toNat ≤ 0x7FF then [0xC0 + u.toNat / 64, 0x80 + u.toNat % 64]
    else [0xE0 + u.toNat / 4096, 0x80 + u.toNat / 64 % 64, 0x80 + u.toNat % 64] := by
  have hu := u.isLt
  unfold utf8
  split_ifs with hone htwo
  · have hbyte : (u.setWidth 8).toNat = u.toNat := by rw [BitVec.toNat_setWidth]; omega
    rw [List.map_singleton, hbyte]
  · have hhigh : ((u >>> 6).setWidth 8 : Byte).toNat = u.toNat / 64 := toNat_setWidth_shiftRight (k := 6) (by omega)
    have hlead : (0xC0 ||| (u >>> 6).setWidth 8 : Byte).toNat = 0xC0 + u.toNat / 64 :=
      hhigh ▸ toNat_marker_or (c := 6) (i := 5) (by decide) (by omega)
    simp only [List.map_cons, List.map_nil, hlead, toNat_continuation]
  · have hhigh : ((u >>> 12).setWidth 8 : Byte).toNat = u.toNat / 4096 := toNat_setWidth_shiftRight (k := 12) (by omega)
    have hlead : (0xE0 ||| (u >>> 12).setWidth 8 : Byte).toNat = 0xE0 + u.toNat / 4096 :=
      hhigh ▸ toNat_marker_or (c := 14) (i := 4) (by decide) (by omega)
    have hmid : (0x80 ||| ((u >>> 6) &&& 0x3F).setWidth 8 : Byte).toNat = 0x80 + u.toNat / 64 % 64 :=
      (toNat_continuation (u >>> 6)).trans (by rw [BitVec.toNat_ushiftRight, Nat.shiftRight_eq_div_pow])
    simp only [List.map_cons, List.map_nil, hlead, toNat_continuation, hmid]

/-- A chunk ends at its first terminator (44_directory.md R265). -/
theorem chunkUtf8_append {c c' : List (BitVec 16)} (hc : ∀ u ∈ c, u ≠ 0x0000 ∧ u ≠ 0xFFFF)
    (hc' : c'.head? = none ∨ c'.head? = some 0x0000 ∨ c'.head? = some 0xFFFF) : chunkUtf8 (c ++ c') = c.flatMap utf8 := by
  have hkept : ∀ u ∈ c, (u != 0x0000 && u != 0xFFFF) = true := fun u hu => by
    obtain ⟨h0, hF⟩ := hc u hu
    rw [bne_iff_ne.mpr h0, bne_iff_ne.mpr hF, Bool.and_self]
  have hcut : c'.takeWhile (fun u => u != 0x0000 && u != 0xFFFF) = [] := by
    cases c' with
    | nil => rfl
    | cons u us => rcases hc' with h | h | h <;> cases h <;> rfl
  rw [chunkUtf8, List.takeWhile_append_of_pos hkept, hcut, List.append_nil]

theorem fragUtf8_append {x y z : List (BitVec 16)} (hx : x.length = 5) (hy : y.length = 6) (hz : z.length = 2) :
    fragUtf8 (x ++ y ++ z) = chunkUtf8 x ++ chunkUtf8 y ++ chunkUtf8 z := by
  have hxy : (x ++ y).length = 11 := by rw [List.length_append, hx, hy]
  have hfirst : (x ++ y ++ z).take 5 = x := by rw [List.append_assoc]; exact List.take_left' hx
  have hsecond : ((x ++ y ++ z).drop 5).take 6 = y := by rw [List.append_assoc, List.drop_left' hx]; exact List.take_left' hy
  have hthird : ((x ++ y ++ z).drop 11).take 2 = z := by rw [List.drop_left' hxy]; exact List.take_of_length_le hz.le
  rw [fragUtf8, hfirst, hsecond, hthird]

/-- Settles O55: a code unit by its size, a fragment by its three chunks. -/
theorem nameBytes : Obligations.NameBytes := by
  refine ⟨utf8_toNat, fun a b c a' b' c' hchunks ha hb hc => ?_⟩
  have hchunk {x x' : List (BitVec 16)} (hmem : (x, x') ∈ [(a, a'), (b, b'), (c, c')]) : chunkUtf8 (x ++ x') = x.flatMap utf8 :=
    have ⟨hkept, hcut⟩ := hchunks (x, x') hmem
    chunkUtf8_append hkept hcut
  rw [fragUtf8_append ha hb hc, hchunk (by simp), hchunk (by simp), hchunk (by simp)]

/-! ## Long names (44_directory.md R267) -/

/-- The order of a long name's fragments. -/
abbrev Frag.Before : Frag → Frag → Prop := (fun f : Frag => f.ord.toNat) ⁻¹'o (· ≤ ·)

theorem insertFrag_eq_orderedInsert (f : Frag) (fs : List Frag) : insertFrag f fs = fs.orderedInsert Frag.Before f := by
  induction fs with
  | nil => rfl
  | cons g gs ih => rw [insertFrag, ih]; rfl

theorem sortFrags_eq_insertionSort (fs : List Frag) : sortFrags fs = fs.insertionSort Frag.Before := by
  induction fs with
  | nil => rfl
  | cons f fs ih => rw [sortFrags, ih, insertFrag_eq_orderedInsert]; rfl

/-- A fragment goes before those of its own ordinal. -/
theorem insertFrag_filter_ord (f : Frag) (fs : List Frag) (o : Byte) :
    (insertFrag f fs).filter (fun g => g.ord = o) = (f :: fs).filter (fun g => g.ord = o) := by
  induction fs with
  | nil => rfl
  | cons g gs ih =>
    rw [insertFrag]
    split
    next => rfl
    next hlt =>
      have hne : f.ord ≠ g.ord := fun h => hlt (by rw [h])
      rw [List.filter_cons, ih]
      by_cases hf : f.ord = o
      · have hg : g.ord ≠ o := fun hg => hne (hf.trans hg.symm)
        simp [hf, hg]
      · simp [List.filter_cons, hf]

/-- Fragments of one ordinal stay in the order they were met in. -/
theorem sortFrags_filter_ord (fs : List Frag) (o : Byte) :
    (sortFrags fs).filter (fun g => g.ord = o) = fs.filter (fun g => g.ord = o) := by
  induction fs with
  | nil => rfl
  | cons f fs ih => rw [sortFrags, insertFrag_filter_ord, List.filter_cons, List.filter_cons, ih]

/-- Settles O56: `sortFrags` is an insertion sort, and a stable one. -/
theorem longName : Obligations.LongName := by
  intro fs
  have hsort := sortFrags_eq_insertionSort fs
  exact ⟨sortFrags fs, hsort ▸ List.perm_insertionSort Frag.Before fs, hsort ▸ List.pairwise_insertionSort Frag.Before fs,
    sortFrags_filter_ord fs, rfl⟩

end Sys2Proof.Machine
end

section
/-! The directory ops that are over at their first step (44_directory.md R270 to R274): DECSLOT, DIRSTART, and DIRNEXT without a
scan. -/

namespace Sys2Proof.Machine

/-! ## The fields of a result -/

theorem flags_setWidth_eq_wordOfBytes (f : Bool) (a c : Byte) :
    (BitVec.ofBool f ++ a ++ c : BitVec (1 + 8 + 8)).setWidth 32 = wordOfBytes c a (if f then 1 else 0) 0 := by
  apply BitVec.eq_of_toNat_eq
  rw [toNat_zeroExtend _ (by decide), toNat_append_byte, toNat_append_byte, wordOfBytes_toNat]
  cases f
  · simp
  · simp; omega

theorem kind_setWidth_eq_wordOfBytes (a c : Byte) : (a ++ c : BitVec (8 + 8)).setWidth 32 = wordOfBytes c a 0 0 := by
  apply BitVec.eq_of_toNat_eq
  rw [toNat_zeroExtend _ (by decide), toNat_append_byte, wordOfBytes_toNat]
  simp

theorem firstCluster_eq_wordOfBytes (t : List Byte) :
    firstCluster t = wordOfBytes (byteAt t 26) (byteAt t 27) (byteAt t 20) (byteAt t 21) := by
  apply BitVec.eq_of_toNat_eq
  have hlow : (le16 t 26).toNat = (byteAt t 26).toNat + 2 ^ 8 * (byteAt t 27).toNat := le16_toNat t 26
  have hhigh : (le16 t 20).toNat = (byteAt t 20).toNat + 2 ^ 8 * (byteAt t 21).toNat := le16_toNat t 20
  rw [firstCluster, BitVec.toNat_append, ← Nat.shiftLeft_add_eq_or_of_lt (le16 t 26).isLt, Nat.shiftLeft_eq, hlow, hhigh,
    wordOfBytes_toNat]
  omega

/-! ## DECSLOT (44_directory.md R270, R271) -/

/-- What DECSLOT leaves of a slot, whatever the slot's kind. -/
def State.decodedSlot (s : State) (t : List Byte) : State :=
  { s.after .none with
    res0 := decslotRes0 t
    res1 := (decslotRes12 t).1
    res2 := (decslotRes12 t).2
    namebuf := decslotName t ++ s.namebuf.drop (decslotName t).length
    nameLen := BitVec.ofNat 16 (decslotName t).length }

theorem exec_decslot {s : State} (h : s.CanIssue) (hp : Prompt s.events) (hdec : s.params.hasDirDecoder = true)
    (hvalid : s.status.bufvalid = true) (harg : s.arg0.toNat < s.bs / 32) :
    exec .decslot s = .next (s.decodedSlot (slotOf s.blockbuf s.arg0.toNat)) := by
  have hlegal : opLegal 0x0A (s.issue 0x0A) = true := Bool.and_eq_true_iff.mpr ⟨hdec, hvalid⟩
  have hstart := (startOp_of_legal hlegal).trans (if_pos (decide_eq_true harg))
  have hrun : exec .decslot s = _ := launch_over 0x0A h hp (by rw [hstart]; rfl)
  rw [hrun, hstart]
  rfl

/-- Settles O57: the result of each kind of slot. -/
theorem decslot : Obligations.Decslot := by
  rintro s t h hp hdec hvalid harg rfl
  rw [exec_decslot h hp hdec hvalid harg, State.decodedSlot]
  generalize slotOf s.blockbuf s.arg0.toNat = t
  refine ⟨fun h0 => ?endOfDir, fun h0 => ?free, fun h0 h5 hattr => ?longFrag, fun h0 h5 hattr => ?short⟩
  case endOfDir =>
    have hkind := (classify_eq_endOfDir_iff t).mpr h0
    simp only [decslotRes0, decslotRes12, decslotName, hkind]
    rfl
  case free =>
    have hkind := (classify_eq_free_iff t).mpr h0
    simp only [decslotRes0, decslotRes12, decslotName, hkind]
    rfl
  case longFrag =>
    have hkind := (classify_eq_longFrag_iff t).mpr ⟨h0, h5, (and_0x0F_eq_iff _).mp hattr⟩
    simp only [decslotRes0, decslotRes12, decslotName, hkind]
    rfl
  case short =>
    have hkind := (classify_eq_short_iff t).mpr ⟨h0, h5, (and_0x0F_eq_iff _).not.mp hattr⟩
    simp only [decslotRes0, decslotRes12, decslotName, hkind, kind_setWidth_eq_wordOfBytes, firstCluster_eq_wordOfBytes]
    rfl

/-! ## DIRSTART, and DIRNEXT without a scan (44_directory.md R272, R274) -/

/-- Settles O58: DIRSTART sets the scan's registers, and DIRNEXT finds no scan. -/
theorem scanStarts : Obligations.ScanStarts := by
  intro s h hp hdec
  refine ⟨fun hready => ?dirstart, fun hinactive => ?dirnext⟩
  case dirstart =>
    have hlegal : opLegal 0x0B (s.issue 0x0B) = true := Bool.and_eq_true_iff.mpr ⟨hdec, State.isReady_issue hready _⟩
    have hstart : startOp 0x0B (s.issue 0x0B) = startDirstart (s.issue 0x0B) := startOp_of_legal hlegal
    have hrun : exec .dirstart s = _ := launch_over 0x0B h hp (by rw [hstart]; rfl)
    rw [hrun, hstart]
    rfl
  case dirnext =>
    have hlegal : opLegal 0x0C (s.issue 0x0C) = true :=
      Bool.and_eq_true_iff.mpr ⟨hdec, Bool.or_eq_true_iff.mpr (.inl (congrArg not hinactive))⟩
    have hstart : startOp 0x0C (s.issue 0x0C) = dirEnd (s.issue 0x0C) :=
      (startOp_of_legal hlegal).trans (if_pos (congrArg not hinactive))
    have hrun : exec .dirnext s = _ := launch_over 0x0C h hp (by rw [hstart]; rfl)
    rw [hrun, hstart]
    rfl

end Sys2Proof.Machine
end

section
/-! DIRNEXT over the loaded block (44_directory.md R274 to R276): one slot, the slots it skips, and what follows them. -/

namespace Sys2Proof.Machine

/-! ## One slot of the loaded block (44_directory.md R274, R276) -/

/-- The scan of the same block at a slot, with the fragments held there. -/
def State.scanAt (s : State) (slot : Byte) (fs : List Frag) : State :=
  { s with dir := { s.dir with slot := slot, frags := fs } }

section Slot
variable {s : State} {t : List Byte} (n : Nat) (ht : slotOf s.blockbuf s.dir.slot.toNat = t)
include ht

theorem dirScan_endOfDir (h : classify t = .endOfDir) :
    dirScan (n + 1) s = dirEnd (s.scanAt (s.dir.slot + 1) s.dir.frags).endScan := by
  simp only [dirScan, ht, h, State.scanAt]

theorem dirScan_free (h : classify t = .free) : dirScan (n + 1) s = dirScan n (s.scanAt (s.dir.slot + 1) s.dir.frags) := by
  simp only [dirScan, ht, h, State.scanAt]

theorem dirScan_longFrag_full (h : classify t = .longFrag) (hfull : s.params.maxFragments ≤ s.dir.frags.length) :
    dirScan (n + 1) s = (s.scanAt (s.dir.slot + 1) s.dir.frags).endScan.complete .nameTooLong := by
  simp only [dirScan, ht, h, if_pos hfull, State.scanAt]

theorem dirScan_longFrag_room (h : classify t = .longFrag) (hroom : s.dir.frags.length < s.params.maxFragments) :
    dirScan (n + 1) s
      = dirScan n (s.scanAt (s.dir.slot + 1) (s.dir.frags ++ [{ ord := byteAt t 0, cu := fragUnits t }])) := by
  simp only [dirScan, ht, h, if_neg (Nat.not_le.mpr hroom), State.scanAt]

theorem dirScan_short (h : classify t = .short) : dirScan (n + 1) s = dirYield t (s.scanAt (s.dir.slot + 1) s.dir.frags) := by
  simp only [dirScan, ht, h, State.scanAt]

end Slot

/-! ## Slots skipped (44_directory.md R276) -/

theorem State.heldOver_succ (s : State) (k : Nat) {t : List Byte} (ht : slotOf s.blockbuf (s.dir.slot.toNat + k) = t) :
    s.heldOver (k + 1) = s.heldOver k
      ++ if classify t = .longFrag then [{ ord := byteAt t 0, cu := fragUnits t }] else [] := by
  rw [State.heldOver, List.range_succ, List.map_append, List.filterMap_append, List.map_singleton, ht, ← State.heldOver]
  split <;> simp [*]

/-- A scan past its next `k` slots, their fragments held. -/
def State.past (s : State) (k : Nat) : State :=
  s.scanAt (BitVec.ofNat 8 (s.dir.slot.toNat + k)) (s.dir.frags ++ s.heldOver k)

theorem State.past_zero (s : State) : s.past 0 = s := by
  have hslot : BitVec.ofNat 8 (s.dir.slot.toNat + 0) = s.dir.slot := BitVec.ofNat_toNat ..
  have hfrags : s.dir.frags ++ s.heldOver 0 = s.dir.frags := List.append_nil _
  rw [State.past, hslot, hfrags]
  rfl

theorem State.past_next (s : State) (k : Nat) (fs : List Frag) :
    (s.past k).scanAt ((s.past k).dir.slot + 1) fs = s.scanAt (BitVec.ofNat 8 (s.dir.slot.toNat + k + 1)) fs :=
  congrArg (s.scanAt · fs) (BitVec.ofNat_add (s.dir.slot.toNat + k) 1).symm

section Past
variable {s : State} {k : Nat}

theorem State.slotOf_past (hk : s.dir.slot.toNat + k < 2 ^ 8) :
    slotOf (s.past k).blockbuf (s.past k).dir.slot.toNat = slotOf s.blockbuf (s.dir.slot.toNat + k) :=
  congrArg (slotOf s.blockbuf) (Nat.mod_eq_of_lt hk)

theorem dirScan_past_succ (n : Nat) (hk : s.dir.slot.toNat + k < 2 ^ 8) (hskips : s.Skips (k + 1))
    (hroom : (s.dir.frags ++ s.heldOver (k + 1)).length ≤ s.params.maxFragments) :
    dirScan (n + 1) (s.past k) = dirScan n (s.past (k + 1)) := by
  have ht := State.slotOf_past hk
  have hheld := s.heldOver_succ k rfl
  have hpast : s.past (k + 1) = s.scanAt (BitVec.ofNat 8 (s.dir.slot.toNat + k + 1)) (s.dir.frags ++ s.heldOver (k + 1)) := rfl
  rw [hpast]
  rcases hskips k (Nat.lt_succ_self k) with hfree | hfrag
  · rw [hfree, if_neg nofun, List.append_nil] at hheld
    rw [dirScan_free n ht hfree, State.past_next, hheld]
    rfl
  · rw [hfrag, if_pos rfl] at hheld
    rw [hheld, ← List.append_assoc] at hroom ⊢
    rw [List.length_append] at hroom
    rw [dirScan_longFrag_room n ht hfrag hroom, State.past_next]
    rfl

/-- Free slots and fragments the store has room for are passed one by one. -/
theorem dirScan_past (n : Nat) : ∀ k, s.dir.slot.toNat + k ≤ 2 ^ 8 → s.Skips k →
    (s.dir.frags ++ s.heldOver k).length ≤ s.params.maxFragments → dirScan (n + k) s = dirScan n (s.past k)
  | 0, _, _, _ => congrArg (dirScan n) s.past_zero.symm
  | k + 1, hk, hskips, hroom => by
    have hroom' : (s.dir.frags ++ s.heldOver k).length ≤ s.params.maxFragments := by
      rw [s.heldOver_succ k rfl, ← List.append_assoc, List.length_append] at hroom
      omega
    rw [Nat.add_comm k, ← Nat.add_assoc, dirScan_past (n + 1) k (by omega) (fun j hj => hskips j (by omega)) hroom',
      dirScan_past_succ n hk hskips hroom, Nat.add_comm 1]

end Past

/-! ## DIRNEXT over the loaded block (44_directory.md R274, R275) -/

/-- The scan of a DIRNEXT that is legal and finds it active. -/
structure State.InScan (s : State) : Prop where
  decoder : s.params.hasDirDecoder = true
  ready : s.status.stage = .ready
  active : s.status.dirActive = true

theorem State.Inv.inScan {s : State} (hinv : s.Inv) (hready : s.status.stage = .ready) (hactive : s.status.dirActive = true) :
    (s.issue 0x0C).InScan :=
  have ⟨hdec, _⟩ := hinv.scan.active hactive
  ⟨hdec, hready, hactive⟩

section Dirnext
variable {s : State}

theorem startOp_dirnext (h : s.InScan) :
    startOp 0x0C s = if s.dir.loaded then dirScanBlock s else readBlock .dirnext s.dir.lba s := by
  have hlegal : opLegal 0x0C s = true :=
    Bool.and_eq_true_iff.mpr ⟨h.decoder, Bool.or_eq_true_iff.mpr (.inr (beq_iff_eq.mpr h.ready))⟩
  exact (startOp_of_legal hlegal).trans (if_neg (by rw [h.active]; decide))

theorem startOp_dirnext_loaded (h : s.InScan) (hl : s.dir.loaded = true) : startOp 0x0C s = dirScanBlock s :=
  (startOp_dirnext h).trans (if_pos hl)

theorem startOp_dirnext_unloaded (h : s.InScan) (hl : s.dir.loaded = false) :
    startOp 0x0C s = readBlock .dirnext s.dir.lba s :=
  (startOp_dirnext h).trans (if_neg (ne_true_of_eq_false hl))

/-- A DIRNEXT scans on behind the slots it skips. -/
theorem startOp_dirnext_past {k : Nat} (hinv : s.Inv) (hready : s.status.stage = .ready) (hactive : s.status.dirActive = true)
    (hl : s.dir.loaded = true) (hskips : s.Skips k) (hroom : (s.dir.frags ++ s.heldOver k).length ≤ s.params.maxFragments)
    (n : Nat) (hn : s.dir.slot.toNat + k + n = s.bs / 32) :
    startOp 0x0C (s.issue 0x0C) = dirScan n ((s.issue 0x0C).past k) := by
  have hbs := hinv.core.bs_le
  have hcount : (s.issue 0x0C).slots - (s.issue 0x0C).dir.slot.toNat = n + k := by
    show s.bs / 32 - s.dir.slot.toNat = n + k
    omega
  rw [startOp_dirnext_loaded (hinv.inScan hready hactive) hl, dirScanBlock, hcount]
  exact dirScan_past n k (by show s.dir.slot.toNat + k ≤ _; omega) hskips hroom

/-- The result of an entry by its bytes. -/
theorem dirYield_eq (t : List Byte) (s : State) : dirYield t s = { s with
    res0 := wordOfBytes 1 (byteAt t 11) (if s.dir.frags = [] then 0 else 1) 0
    res1 := wordOfBytes (byteAt t 26) (byteAt t 27) (byteAt t 20) (byteAt t 21)
    res2 := wordOfBytes (byteAt t 28) (byteAt t 29) (byteAt t 30) (byteAt t 31)
    res3 := s.dir.lba
    namebuf := (if s.dir.frags = [] then shortName t else lfnName s.dir.frags)
      ++ s.namebuf.drop (if s.dir.frags = [] then shortName t else lfnName s.dir.frags).length
    nameLen := BitVec.ofNat 16 (if s.dir.frags = [] then shortName t else lfnName s.dir.frags).length
    dir := { s.dir with frags := [] } }.complete .none := by
  have hname : entryName s.dir.frags t = if s.dir.frags = [] then shortName t else lfnName s.dir.frags := by
    simp only [entryName, List.isEmpty_iff]
  have hflag : (if !s.dir.frags.isEmpty then 1 else 0 : Byte) = if s.dir.frags = [] then 0 else 1 := by
    cases s.dir.frags <;> rfl
  rw [← hname, ← hflag, ← flags_setWidth_eq_wordOfBytes, ← firstCluster_eq_wordOfBytes]
  rfl

end Dirnext

/-- Settles O59: behind the slots skipped, the kind of the next one decides. -/
theorem dirnextOverBlock : Obligations.DirnextOverBlock := by
  rintro s k t fs hinv h hp hready hactive hl hskips rfl hroom hlt ht
  obtain ⟨n, hn⟩ : ∃ n, s.dir.slot.toNat + k + (n + 1) = s.bs / 32 := ⟨s.bs / 32 - s.dir.slot.toNat - k - 1, by omega⟩
  have hbs := hinv.core.bs_le
  have ht : slotOf ((s.issue 0x0C).past k).blockbuf ((s.issue 0x0C).past k).dir.slot.toNat = t :=
    (State.slotOf_past (by show s.dir.slot.toNat + k < _; omega)).trans ht.symm
  have hstart := startOp_dirnext_past hinv hready hactive hl hskips hroom (n + 1) hn
  have hover (hidle : (dirScan (n + 1) ((s.issue 0x0C).past k)).eng = .idle) :
      exec .dirnext s = .next { dirScan (n + 1) ((s.issue 0x0C).past k) with events := s.events } :=
    hstart ▸ launch_over 0x0C h hp (hstart ▸ hidle)
  refine ⟨fun hkind => ?short, fun hkind => ?endOfDir, fun hkind hfull => ?longFrag⟩
  case short =>
    rw [dirScan_short n ht hkind, State.past_next, dirYield_eq] at hover
    exact hover rfl
  case endOfDir =>
    rw [dirScan_endOfDir n ht hkind, State.past_next] at hover
    exact hover rfl
  case longFrag =>
    rw [dirScan_longFrag_full n ht hkind hfull.ge, State.past_next] at hover
    exact hover rfl

end Sys2Proof.Machine
end

section
/-! DIRNEXT across blocks (44_directory.md R274, R275): the end of a block, the next block read, and the scan of it. -/

namespace Sys2Proof.Machine

/-! ## Runs that settle alike -/

section Alike
variable {s t : State} {es : List Event}

/-- A run over inputs that do not land first depends on where the engine's internal steps lead alone. -/
theorem drive_of_settle_eq (hp : Prompt es) (h : settle s = settle t) : drive es s = drive es t := by
  match es, hp with
  | [], _ | .answer _ :: _, _ => rw [drive, drive, h]
  | .host none _ :: _, _ | .hard none _ :: _, _ => rw [drive, drive, paceRun, paceRun, h]

/-- Ops whose own steps lead to one state run alike. -/
theorem launch_congr {op : Byte} (hs : s.CanIssue) (ht : t.CanIssue) (hp : Prompt s.events) (hev : s.events = t.events)
    (hstart : startOp op (s.issue op) = startOp op (t.issue op)) : launch op s = launch op t := by
  obtain ⟨hs0, hs1, hs2⟩ := hs
  obtain ⟨ht0, ht1, ht2⟩ := ht
  have hsettle : settle (s.issue op) = settle (t.issue op) := by
    rw [settle_start (s := s.issue op) rfl hs1, settle_start (s := t.issue op) rfl ht1, hstart]
  rw [launch_issue op hs0 hs1 hs2, launch_issue op ht0 ht1 ht2, ← hev, drive_of_settle_eq hp hsettle]

end Alike

/-! ## The end of a block (44_directory.md R275) -/

/-- The scan before its next block, with the count of blocks left as given. -/
def State.nextBlock (s : State) (left : Word) : State :=
  { s with dir := { s.dir with lba := s.dir.lba + 1, left := left, loaded := false } }

theorem dirBlockDone_of_last {s : State} (h : s.dir.left = 1) : dirBlockDone s = dirEnd (s.nextBlock 0).endScan := by
  have hleft : s.dir.left - 1 = 0 := sub_eq_zero.mpr h
  simp only [dirBlockDone, hleft, if_true, State.nextBlock]

theorem dirBlockDone_of_more {s : State} (h : s.dir.left ≠ 1) :
    dirBlockDone s = readBlock .dirnext (s.dir.lba + 1) (s.nextBlock (s.dir.left - 1)) :=
  if_neg (sub_ne_zero.mpr h)

/-! ## The scan of a block leads to the op's end or to the next block -/

theorem readBlock_goTo (u : BlockUse) (lba : Word) (s : State) (l : Label) :
    readBlock u lba (s.goTo l) = readBlock u lba s := by
  cases he : s.eng <;> simp [readBlock, State.build, State.goTo, he, State.put]

/-- The scan does not see at which label its op stands. -/
theorem dirScan_goTo (l : Label) : ∀ (n : Nat) (s : State), dirScan n (s.goTo l) = dirScan n s
  | 0, s => by
    by_cases h : s.dir.left = 1
    · exact (dirBlockDone_of_last (s := s.goTo l) h).trans (dirBlockDone_of_last h).symm
    · exact (dirBlockDone_of_more (s := s.goTo l) h).trans
        ((readBlock_goTo .dirnext _ (s.nextBlock _) l).trans (dirBlockDone_of_more h).symm)
  | n + 1, s => by
    obtain ⟨t, ht⟩ : ∃ t, slotOf s.blockbuf s.dir.slot.toNat = t := ⟨_, rfl⟩
    have ht' : slotOf (s.goTo l).blockbuf (s.goTo l).dir.slot.toNat = t := ht
    cases hkind : classify t with
    | endOfDir => rw [dirScan_endOfDir n ht hkind, dirScan_endOfDir n ht' hkind]; rfl
    | free =>
      rw [dirScan_free n ht hkind, dirScan_free n ht' hkind]
      exact dirScan_goTo l n (s.scanAt _ _)
    | short => rw [dirScan_short n ht hkind, dirScan_short n ht' hkind]; rfl
    | longFrag =>
      rcases Nat.lt_or_ge s.dir.frags.length s.params.maxFragments with hroom | hfull
      · rw [dirScan_longFrag_room n ht hkind hroom, dirScan_longFrag_room n ht' hkind hroom]
        exact dirScan_goTo l n (s.scanAt _ _)
      · rw [dirScan_longFrag_full n ht hkind hfull, dirScan_longFrag_full n ht' hkind hfull]; rfl

theorem dirScan_eng : ∀ (n : Nat) (s : State),
    (dirScan n s).eng = .idle ∨ (dirScan n s).eng = s.eng.moveTo (.ready (.block .dirnext))
  | 0, s => by
    by_cases h : s.dir.left = 1
    · exact .inl (congrArg State.eng (dirBlockDone_of_last h))
    · exact .inr (congrArg State.eng (dirBlockDone_of_more h))
  | n + 1, s => by
    obtain ⟨t, ht⟩ : ∃ t, slotOf s.blockbuf s.dir.slot.toNat = t := ⟨_, rfl⟩
    cases hkind : classify t with
    | endOfDir => rw [dirScan_endOfDir n ht hkind]; exact .inl rfl
    | free => rw [dirScan_free n ht hkind]; exact dirScan_eng n _
    | short => rw [dirScan_short n ht hkind]; exact .inl rfl
    | longFrag =>
      rcases Nat.lt_or_ge s.dir.frags.length s.params.maxFragments with hroom | hfull
      · rw [dirScan_longFrag_room n ht hkind hroom]; exact dirScan_eng n _
      · rw [dirScan_longFrag_full n ht hkind hfull]; exact .inl rfl

/-- Behind a scan at most the next frame's first byte is an internal step. -/
theorem settle_dirScan (n : Nat) {s : State} {op : Byte} {l : Label} (he : s.eng = .running op l) :
    settle (dirScan n s) = internalRun 1 (dirScan n s) := by
  rcases dirScan_eng n s with hidle | hready
  · rw [settle_idle hidle, internalRun_of_not_internal (State.internal_of_idle hidle)]
  · rw [settle, internalBound, hready, he]
    rfl

/-- A DIRNEXT that finds a block loaded scans it as one that has just read it does. -/
theorem drive_dirnext_loaded {s : State} {l : Label} {es : List Event} (hp : Prompt es)
    (he : s.eng = .running 0x0C l) (hs : s.softReset = false) (hscan : s.InScan) (hl : s.dir.loaded = true) :
    drive es (s.goTo .start) = drive es (dirScanBlock s) := by
  refine drive_of_settle_eq hp ?_
  have hstart : startOp 0x0C (s.goTo .start) = dirScanBlock s :=
    (startOp_dirnext_loaded (s := s.goTo .start) ⟨hscan.decoder, hscan.ready, hscan.active⟩ hl).trans
      (dirScan_goTo .start _ s)
  rw [settle_start (s := s.goTo .start) (Eng.moveTo_of_running he _) hs, hstart, dirScanBlock, settle_dirScan _ he]

/-! ## A block read of any size (42_block_io.md R200) -/

/-- An op that stands before the CMD17 of a block goes on with the block. -/
theorem drive_blockReply {s : State} {op : Byte} {u : BlockUse} {b : BlockReply} {lba : Word} (hs : s.softReset = false)
    (he : s.eng = .running op (.ready (.block u))) (hframe : s.scratch.frame = frameWord 17 (lba <<< 9))
    (hL : s.bs ≤ 512) (hbuf : s.blockbuf.length = 512) (hfit : b.Fits s.cfg.respBudget.toNat s.bs) (es : List Event) :
    drive (b.inputs ++ es) s = drive es (afterBlock u ((s.blockRead op u (lba <<< 9) b.status 0xFE
      (b.payload ++ s.blockbuf.drop s.bs)).validate true)) := by
  have hfeed := feed_blockReply (arg := lba <<< 9) hs he hfit hL (hL.trans_eq hbuf.symm)
  rw [State.put_frame_self hframe] at hfeed
  exact b.inputs_eq ▸ drive_ready he hs Reply.withFrame_ne_nil hfeed

/-! ## DIRNEXT across blocks (44_directory.md R274, R275) -/

/-- DIRNEXT before the CMD17 of its next block. -/
def State.dirnextAsks (s : State) : State :=
  readBlock .dirnext s.dir.lba (s.issue 0x0C)

/-- DIRNEXT with its block in BLOCKBUF, before the scan of it. -/
def State.dirnextHolds (s : State) (b : BlockReply) : State :=
  { (s.dirnextAsks.blockRead 0x0C .dirnext (s.dir.lba <<< 9) b.status 0xFE (b.payload ++ s.blockbuf.drop s.bs)).validate true with
    dir := { s.dir with slot := 0, loaded := true } }

/-- The state in which a DIRNEXT finds the block that another one would read. -/
def State.withDirBlock (s : State) (b : BlockReply) (sc : Scratch) (es : List Event) : State :=
  { s with
    dir := { s.dir with slot := 0, loaded := true }
    status := { s.status with bufvalid := true }
    blockbuf := b.payload ++ s.blockbuf.drop s.bs
    scratch := sc
    bus := s.bus ++ b.sent s.dir.lba s.bs
    events := es }

theorem drive_withDirBlock (s : State) (b : BlockReply) (es : List Event) :
    drive es ((s.withDirBlock b (s.dirnextHolds b).scratch es).issue 0x0C) = drive es ((s.dirnextHolds b).goTo .start) :=
  drive_with_events es ((s.dirnextHolds b).goTo .start) es

/-- Settles O60: behind the last slot of a block the scan ends or goes on to the next block, and a block read is scanned. -/
theorem dirnextAcrossBlocks : Obligations.DirnextAcrossBlocks := by
  intro s fs hinv h hready hactive
  have hscan := hinv.inScan hready hactive
  refine ⟨fun k hl hp hskips hfs hroom hend => ?blockDone, fun b es hl hfit hp hev => ?blockRead⟩
  case blockDone =>
    subst hfs
    have hstart : startOp 0x0C (s.issue 0x0C) = dirBlockDone ((s.issue 0x0C).past k) :=
      startOp_dirnext_past hinv hready hactive hl hskips hroom 0 hend
    rw [← hend]
    refine ⟨fun hlast => ?last, fun hmore => ?more⟩
    case last =>
      have hdone : startOp 0x0C (s.issue 0x0C) = dirEnd (((s.issue 0x0C).past k).nextBlock 0).endScan :=
        hstart.trans (dirBlockDone_of_last hlast)
      have hrun : exec .dirnext s = _ := launch_over 0x0C h hp (by rw [hdone]; rfl)
      rw [hrun, hdone]
      rfl
    case more =>
      have hnext : startOp 0x0C (((s.past k).nextBlock (s.dir.left - 1)).issue 0x0C) = _ :=
        startOp_dirnext_unloaded ⟨hscan.decoder, hready, hactive⟩ rfl
      exact launch_congr h h hp rfl ((hstart.trans (dirBlockDone_of_more hmore)).trans hnext.symm)
  case blockRead =>
    have ⟨hidle, hsoft, hheld⟩ := h
    have hasks : startOp 0x0C (s.issue 0x0C) = s.dirnextAsks := startOp_dirnext_unloaded hscan hl
    have hread : drive (b.inputs ++ es) s.dirnextAsks = drive es (dirScanBlock (s.dirnextHolds b)) :=
      drive_blockReply (s := s.dirnextAsks) (u := .dirnext) (lba := s.dir.lba) hsoft rfl rfl hinv.core.bs_le
        hinv.buffers.blockbuf hfit es
    have hfound : drive es ((s.dirnextHolds b).goTo .start) = drive es (dirScanBlock (s.dirnextHolds b)) :=
      drive_dirnext_loaded hp rfl hsoft ⟨hscan.decoder, hready, hactive⟩ rfl
    refine ⟨(s.dirnextHolds b).scratch, ?_⟩
    calc exec .dirnext s
      _ = .next (drive s.events s.dirnextAsks) := launch_asking h (hev ▸ hfit.prompt es) hasks rfl hsoft
      _ = .next (drive es ((s.withDirBlock b (s.dirnextHolds b).scratch es).issue 0x0C)) := by
        rw [hev, hread, ← hfound, drive_withDirBlock]
      _ = exec .dirnext (s.withDirBlock b (s.dirnextHolds b).scratch es) :=
        (launch_issue (s := s.withDirBlock b (s.dirnextHolds b).scratch es) 0x0C hidle hsoft hheld).symm

end Sys2Proof.Machine
end

section
/-! The statements of 60_exceptions.md: the interrupt line (R321), ILLEGAL_OP (R301), and the steps that stop (R311,
20_memory.md R70, R74). -/

namespace Sys2Proof.Machine

/-! ## The interrupt line (60_exceptions.md R321) -/

theorem State.complete_irq (s : State) (e : ErrCode) : (s.complete e).irq = s.irqEn := Bool.true_and _

theorem State.writeReg_ctrl_irq (s : State) {v : Word} (h : v.getLsbD 0 = false) :
    (s.writeReg 0x008 v).irq = (s.donePend && v.getLsbD 1) := by
  rw [State.writeReg_ctrl s h]
  rfl

theorem State.writeReg_intStatus_irq (s : State) {v : Word} (h : v.getLsbD 0 = true) : (s.writeReg 0x00C v).irq = false := by
  rw [State.writeReg_intStatus, State.irq, h, Bool.not_true, Bool.and_false, Bool.false_and]

/-- Settles O18: what each operation leaves of DONE_PEND and IRQ_EN. -/
theorem interruptLine : Obligations.InterruptLine :=
  ⟨fun _ => rfl, State.complete_irq, fun s _ => s.writeReg_ctrl_irq, fun s _ => s.writeReg_intStatus_irq, fun _ => rfl⟩

/-! ## No input (60_exceptions.md R311, 70_reset_and_hazards.md R343) -/

theorem State.not_internal_of_waiting {s : State} (h : s.waiting = true) : s.internal = false := by
  obtain ⟨op, l, he, hl⟩ := State.waiting_iff.mp h
  rw [State.internal_of_running he, hl]

theorem inputStep_nil {s : State} (h : s.events = []) :
    inputStep s = if s.waiting then .fault .transportSilent else .next s := by
  simp only [inputStep, h]

/-- Settles O8: neither block has an internal step, so each turns to its inputs and finds none. -/
theorem stepWithoutInput : Obligations.StepWithoutInput := by
  refine fun s hr hev => ⟨fun hw => ?waiting, fun he => ?idle⟩
  case waiting => rw [step_input hr (.inl (State.not_internal_of_waiting hw)), inputStep_nil hev, hw, if_pos rfl]
  case idle =>
    rw [step_input hr (.inl (State.internal_of_idle he)), inputStep_nil hev, State.waiting_of_idle he]
    rfl

/-! ## ILLEGAL_OP (60_exceptions.md R301) -/

/-- Op issue changes nothing that the legality table looks at (30_encoding.md R105). -/
theorem opLegal_issue (op op' : Byte) (s : State) : opLegal op (s.issue op') = opLegal op s := rfl

theorem launch_illegal {s : State} {op : Byte} (h : s.CanIssue) (hp : Prompt s.events) (hl : opLegal op s = false) :
    launch op s = .next (s.after .illegalOp) :=
  launch_after h hp (if_neg (ne_true_of_eq_false ((opLegal_issue op op s).trans hl)))

section Illegal
variable {s : State}

theorem State.not_isReady (h : s.status.stage ≠ .ready) : s.isReady = false := beq_eq_false_iff_ne.mpr h

theorem opLegal_bringup_eq_false (h : s.status.stage ≠ .unpowered) : opLegal 0x01 s = false := beq_eq_false_iff_ne.mpr h

theorem opLegal_speedup_eq_false (h : s.status.stage ≠ .ready ∨ s.status.spedUp = true) : opLegal 0x02 s = false :=
  Bool.and_eq_false_iff.mpr (h.imp State.not_isReady (congrArg not))

theorem opLegal_dirstart_eq_false (h : s.params.hasDirDecoder = false ∨ s.status.stage ≠ .ready) : opLegal 0x0B s = false :=
  Bool.and_eq_false_iff.mpr (h.imp_right State.not_isReady)

theorem opLegal_decslot_eq_false (h : s.params.hasDirDecoder = false ∨ s.status.bufvalid = false) : opLegal 0x0A s = false :=
  Bool.and_eq_false_iff.mpr h

theorem opLegal_dirnext_eq_false (h : s.params.hasDirDecoder = false ∨ s.status.dirActive = true ∧ s.status.stage ≠ .ready) :
    opLegal 0x0C s = false :=
  Bool.and_eq_false_iff.mpr
    (h.imp_right fun ⟨hactive, hstage⟩ => Bool.or_eq_false_iff.mpr ⟨congrArg not hactive, State.not_isReady hstage⟩)

/-- The reserved op codes (30_encoding.md R106). -/
theorem opLegal_reserved {op : Byte} (h : op.toNat = 0 ∨ 0x0C < op.toNat) : opLegal op s = false := by
  unfold opLegal
  split
  case h_13 => rfl
  all_goals omega

end Illegal

/-- Settles O22: an op that the legality table forbids is over at its start, and the table forbids each of these. -/
theorem illegalOps : Obligations.IllegalOps := by
  intro s h hp
  refine ⟨fun hstage => ?bringup, fun hs => ?speedup, fun hstage => ?notReady, fun hm => ?clus2lba, fun hb => ?decslot,
    fun hactive hstage => ?dirnext, fun hdec => ?noDecoder, fun v hv => ?reserved⟩
  case bringup => exact launch_illegal h hp (opLegal_bringup_eq_false hstage)
  case speedup => exact launch_illegal h hp (opLegal_speedup_eq_false hs)
  case notReady =>
    have hready : s.isReady = false := State.not_isReady hstage
    exact ⟨launch_illegal h hp hready, launch_illegal h hp hready, launch_illegal h hp hready, launch_illegal h hp hready,
      launch_illegal h hp (opLegal_dirstart_eq_false (.inr hstage))⟩
  case clus2lba => exact launch_illegal h hp hm
  case decslot => exact launch_illegal h hp (opLegal_decslot_eq_false (.inr hb))
  case dirnext => exact launch_illegal h hp (opLegal_dirnext_eq_false (.inr ⟨hactive, hstage⟩))
  case noDecoder =>
    exact ⟨launch_illegal h hp (opLegal_decslot_eq_false (.inl hdec)),
      launch_illegal h hp (opLegal_dirstart_eq_false (.inl hdec)), launch_illegal h hp (opLegal_dirnext_eq_false (.inl hdec))⟩
  case reserved =>
    have hcode : (v.extractLsb' 0 8).toNat = v.toNat % 256 := by simp [BitVec.extractLsb'_toNat]
    rw [writeOp_eq_launch]
    exact launch_illegal h hp (opLegal_reserved (hcode.symm ▸ hv))

/-! ## Steps that stop

A step ends in a next state but for two causes outside the block. The one that could stop inside it is a wire command where its
exchange is not next: the invariant says which frame stands in `scratch.frame`, and the frame's index says which exchange. -/

/-- How the step of a block with these inputs may end: the fault of a silent transport (60_exceptions.md R311) and the refusals
of a malformed or foreign host access (20_memory.md R70, R74) are all that stop it. -/
def State.StopsOutside (s : State) : Host.Outcome State Fault Refusal → Prop
  | .next _ => True
  | .fault _ => s.waiting = true ∧ s.events = []
  | .refused r => ∃ p a es, s.events = .host p a :: es
      ∧ (a.shapeOk = false ∧ r = .hostAccessShape ∨ a.shapeOk = true ∧ a.inSpace s.params = false ∧ r = .outsideBlock)

theorem State.StopsOutside.of_next {s : State} {o : Host.Outcome State Fault Refusal} (h : ∃ t, o = .next t) :
    s.StopsOutside o := by
  obtain ⟨t, rfl⟩ := h
  trivial

/-! ## The engine's own steps do not stop -/

theorem launch_next (op : Byte) (s : State) : ∃ t, launch op s = .next t := by
  unfold launch
  split_ifs
  all_goals exact ⟨_, rfl⟩

theorem heldStep_next (s : State) : ∃ t, heldStep s = .next t := by
  unfold heldStep
  split
  all_goals exact ⟨_, rfl⟩

/-- A wire command goes out where its exchange is next, or gives way to a pending soft reset. -/
theorem sendWire_next {at_ : Exch → Bool} {s : State} {op : Byte} {x : Exch} (he : s.eng = .running op (.ready x))
    (hat : at_ x = true) (idx : BitVec 6) (arg : Word) : ∃ t, sendWire at_ idx arg s = .next t := by
  simp only [sendWire, he, hat, if_true]
  split_ifs
  all_goals exact ⟨_, rfl⟩

/-- The index of an exchange's frame (30_encoding.md R112); SENDCMD's is the host's, and READRESP sends none. -/
def Exch.index? : Exch → Option (BitVec 6)
  | .reset => some 0
  | .iface => some 8
  | .block _ => some 17
  | .activate => some 41
  | .marker => some 55
  | .ocr => some 58
  | .send | .resp => none

theorem Exch.index?_isSome {x : Exch} (hsend : x ≠ .send) (hresp : x ≠ .resp) : ∃ idx, x.index? = some idx := by
  cases x
  case send => exact absurd rfl hsend
  case resp => exact absurd rfl hresp
  all_goals exact ⟨_, rfl⟩

/-- The frame that the invariant asks for has that index. -/
theorem Exch.frameOf_index {x : Exch} {idx : BitVec 6} (h : x.index? = some idx) (s : State) :
    (x.frameOf s).extractLsb' 40 6 = idx := by
  cases x
  case send | resp => cases h
  all_goals
    cases h
    exact frameWord_index _ _

/-- A wire command is sent at the exchange of its index. -/
theorem exec_next_of_index {i : Instr} {idx : BitVec 6} {arg : Word} {s : State} {op : Byte} {x : Exch}
    (hi : commandOf i = some (idx, arg)) (hx : x.index? = some idx) (he : s.eng = .running op (.ready x)) :
    ∃ t, exec i s = .next t := by
  cases i
  case cmd0 | cmd8 | cmd17 | cmd55 | acmd41 | cmd58 =>
    refine sendWire_next he ?_ _ _
    cases hi
    cases x <;> simp_all [Exch.index?]
  all_goals cases hi

/-- What the engine fetches is the command of the frame it stands before. -/
theorem wireFetch_eq_some {s : State} {i : Instr} (h : wireFetch s = some i) :
    ∃ op x, s.eng = .running op (.ready x) ∧ x ≠ .send ∧ decode (frameBytes s.scratch.frame) = .ok i := by
  unfold wireFetch at h
  split at h
  next op x he =>
    split_ifs at h with hx
    split at h
    next hd =>
      cases h
      exact ⟨op, x, he, hx, hd⟩
    next => cases h
  all_goals cases h

/-- From a state of the invariant the engine goes on: the command it fetches is that of the exchange it stands before. -/
theorem advance_next {s : State} (h : s.Inv) : ∃ t, advance s = .next t := by
  cases hf : wireFetch s with
  | none =>
    unfold advance
    rw [hf]
    exact ⟨_, rfl⟩
  | some i =>
    obtain ⟨op, x, he, hsend, hd⟩ := wireFetch_eq_some hf
    have hplace := h.engine
    rw [State.EngineInv, he] at hplace
    obtain ⟨-, hresp, hframe⟩ : x.Place op s ∧ x ≠ .resp ∧ s.scratch.frame = x.frameOf s := hplace
    obtain ⟨idx, hx⟩ := Exch.index?_isSome hsend hresp
    rw [decode_frameBytes, hframe] at hd
    obtain ⟨idx', arg, hword, hi⟩ := decodeFrame_eq_ok_iff.mp hd
    have hidx : idx' = idx := by rw [← frameWord_index idx' arg, hword, Exch.frameOf_index hx s]
    rw [advance_of_wireFetch hf]
    exact exec_next_of_index (hidx ▸ hi) hx he

/-! ## Steps on an input -/

/-- A well-shaped access inside the block is done (20_memory.md R76). -/
theorem hostAccess_next {a : HostAccess} {s : State} (hshape : a.shapeOk = true) (hspace : a.inSpace s.params = true) :
    ∃ t, hostAccess a s = .next t := by
  simp only [hostAccess, hshape, hspace, Bool.not_true, Bool.false_eq_true, if_false]
  cases a.dir with
  | rd => exact ⟨_, rfl⟩
  | wr v =>
    dsimp only
    split_ifs
    · rw [writeOp_eq_launch]
      exact launch_next _ s
    · exact ⟨_, rfl⟩

/-- A host access is refused for its shape, then for its place, and otherwise done (20_memory.md R70, R74). -/
theorem hostAccess_stopsOutside {s : State} {p : Option Nat} {a : HostAccess} {es : List Event}
    (he : s.events = .host p a :: es) : s.StopsOutside (hostAccess a { s with events := es }) := by
  cases hshape : a.shapeOk with
  | false =>
    simp only [hostAccess, hshape, Bool.not_false, if_true]
    exact ⟨p, a, es, he, .inl ⟨hshape, rfl⟩⟩
  | true =>
    cases hspace : a.inSpace s.params with
    | false =>
      simp only [hostAccess, hshape, hspace, Bool.not_true, Bool.not_false, Bool.false_eq_true, if_false, if_true]
      exact ⟨p, a, es, he, .inr ⟨hshape, hspace, rfl⟩⟩
    | true => exact .of_next (hostAccess_next (s := { s with events := es }) hshape hspace)

theorem inputStep_stopsOutside (s : State) : s.StopsOutside (inputStep s) := by
  unfold inputStep
  split
  case h_1 hev =>
    split_ifs with hw
    · exact ⟨hw, hev⟩
    · trivial
  case h_2 => split_ifs <;> trivial
  case h_3 hev => exact hostAccess_stopsOutside hev
  all_goals trivial

theorem step_stopsOutside {s : State} (h : s.Inv) : s.StopsOutside (step s) := by
  unfold step schedule
  split_ifs
  · exact .of_next (heldStep_next s)
  · exact .of_next (advance_next h)
  · exact inputStep_stopsOutside s

/-- Settles O11: a held block and an engine with an internal step go on, and an input stops the step only from outside. -/
theorem stepStopsOnlyOutside : Obligations.StepStopsOnlyOutside := by
  intro s h
  have hstops := step_stopsOutside h
  refine ⟨fun f hf => ?fault, fun r hr => ?refused⟩
  case fault => rwa [hf] at hstops
  case refused => rwa [hr] at hstops

end Sys2Proof.Machine
end

section
/-! The statements of 70_reset_and_hazards.md: the soft reset (R341) and the hard reset (R340). -/

namespace Sys2Proof.Machine

/-! ## A write of CTRL that asks for a soft reset (70_reset_and_hazards.md R341) -/

theorem State.writeReg_ctrl_reset_not_busy {s : State} {v : Word} (hv : v.getLsbD 0 = true) (hb : s.busy = false) :
    s.writeReg 0x008 v = s.blockReset := by
  show s.writeCtrl v = _
  rw [State.writeCtrl, if_pos hv, hb]
  exact if_neg Bool.false_ne_true

theorem State.writeReg_ctrl_reset_busy {s : State} {v : Word} (hv : v.getLsbD 0 = true) (hb : s.busy = true) :
    s.writeReg 0x008 v = { s with irqEn := v.getLsbD 1, softReset := true } := by
  show s.writeCtrl v = _
  rw [State.writeCtrl, if_pos hv, if_pos hb]

/-! ## The running op's next step under a pending soft reset -/

section Pending
variable {s : State}

theorem State.busy_of_softReset (hs : s.softReset = true) : s.busy = true := by rw [State.busy, hs, Bool.or_true]

theorem engAnswer_softReset (hs : s.softReset = true) (r : Answer) : engAnswer r s = s.blockReset := if_pos hs

theorem engInternal_softReset (hs : s.softReset = true) : engInternal s = s.blockReset := if_pos hs

/-- The first of the internal steps is the reset, and an idle engine makes no other. -/
theorem internalRun_softReset (hs : s.softReset = true) (hi : s.internal = true) {n : Nat} (hn : n ≠ 0) :
    internalRun n s = s.blockReset := by
  obtain ⟨m, rfl⟩ := Nat.exists_eq_succ_of_ne_zero hn
  rw [internalRun_succ hi, engInternal_softReset hs, internalRun_of_not_internal (State.internal_of_idle s.blockReset_eng)]

theorem internalBound_ne_zero (hi : s.internal = true) : internalBound s ≠ 0 := by
  obtain ⟨op, l, he, hl⟩ := State.internal_iff.mp hi
  simp only [internalBound, he]
  cases l
  case start | ready | copy => exact Nat.succ_ne_zero _
  all_goals cases hl

theorem paceRun_softReset (hs : s.softReset = true) (hi : s.internal = true) {p : Option Nat} (hp : p ≠ some 0) :
    paceRun p s = s.blockReset := by
  cases p with
  | none => exact internalRun_softReset hs hi (internalBound_ne_zero hi)
  | some n => exact internalRun_softReset hs hi (fun hn => hp (congrArg some hn))

theorem paceLeft_of_not_internal (hi : s.internal = false) (p : Option Nat) : paceLeft p s = p := by
  cases p with
  | none => rfl
  | some n => exact if_neg (ne_true_of_eq_false hi)

/-- A run that an input does not cut before its first step is the reset alone: every input stays. -/
theorem drive_softReset (hs : s.softReset = true) (hi : s.internal = true) {es : List Event} (hl : landsNow es = false) :
    drive es s = { s.blockReset with events := es } := by
  have hidle : s.blockReset.internal = false := State.internal_of_idle s.blockReset_eng
  have hsettle : settle s = s.blockReset := paceRun_softReset (p := none) hs hi nofun
  rcases es with _ | ⟨r | ⟨p, a⟩ | ⟨p, l⟩, es⟩
  case nil => rw [drive, hsettle]
  case cons.answer =>
    rw [drive, hsettle, State.waiting_of_idle s.blockReset_eng]
    exact if_neg Bool.false_ne_true
  case cons.host | cons.hard =>
    have hp : p ≠ some 0 := by rintro rfl; cases hl
    rw [drive, paceRun_softReset hs hi hp, paceLeft_of_not_internal hidle]

/-- A wire command that is not refused gives way to the reset. -/
theorem sendWire_softReset {t : State} {at_ : Exch → Bool} {idx : BitVec 6} {arg : Word} (hs : s.softReset = true)
    (h : sendWire at_ idx arg s = .next t) : t = s.blockReset := by
  unfold sendWire at h
  split at h
  case h_1 =>
    rw [if_pos hs] at h
    split at h <;> cases h
    rfl
  all_goals cases h

/-- The invariant has the engine go on; whichever way it does, its step is the reset. -/
theorem advance_softReset (h : s.Inv) (hs : s.softReset = true) (hi : s.internal = true) (hl : landsNow s.events = false) :
    advance s = .next s.blockReset := by
  cases hf : wireFetch s with
  | none =>
    unfold advance
    rw [hf]
    exact congrArg Host.Outcome.next (drive_softReset hs hi hl)
  | some i =>
    obtain ⟨at_, idx, arg, hsend⟩ := exec_eq_sendWire (wireFetch_command hf) s
    obtain ⟨t, ht⟩ := advance_next h
    rw [ht]
    rw [advance_of_wireFetch hf, hsend] at ht
    rw [sendWire_softReset hs ht]

/-- A block held in hard reset has no internal step to make (70_reset_and_hazards.md R340; log 20). -/
theorem State.Inv.not_inReset_of_internal (h : s.Inv) (hi : s.internal = true) : s.inReset = false := by
  by_contra hr
  have heng : s.eng = .idle := congrArg State.eng (h.held (eq_true_of_ne_false hr))
  rw [State.internal_of_idle heng] at hi
  cases hi

end Pending

/-- Settles O13: the write is `writeCtrl`, which resets an idle block and leaves a busy one waiting for its reset; the op's next
step is one on an answer or one of `advance`, and each is the reset. -/
theorem softReset : Obligations.SoftReset := by
  refine ⟨fun s p v es hr hbase hp hv hev => ⟨fun hb => ?idle, fun hb => ?busy⟩, fun s r es hs hr hw hev => ?answer,
    fun s h hs hi hl => ?internal⟩
  case idle =>
    rw [step_write hr hbase hp (by decide) (by decide) (by decide) hev,
      State.writeReg_ctrl_reset_not_busy (s := { s with events := es }) hv hb]
    rfl
  case busy =>
    rw [step_write hr hbase hp (by decide) (by decide) (by decide) hev,
      State.writeReg_ctrl_reset_busy (s := { s with events := es }) hv hb]
    exact ⟨_, rfl, rfl, State.busy_of_softReset rfl⟩
  case answer =>
    rw [step_answer hr hw hev, drive_answer r es hw, engAnswer_softReset hs, drive_idle es s.blockReset_eng]
  case internal => rw [step_internal (h.not_inReset_of_internal hi) hi hl, advance_softReset h hs hi hl]

/-! ## Hard reset (70_reset_and_hazards.md R340) -/

section Held
variable {s : State} {es : List Event}

/-- Whatever arrives but the release is dropped (log 20). -/
theorem heldStep_ignores {e : Event} (he : ∀ p, e ≠ .hard p false) (hev : s.events = e :: es) :
    heldStep s = .next { s with events := es } := by
  unfold heldStep
  rw [hev]
  match e with
  | .answer _ | .host _ _ | .hard _ true => rfl
  | .hard p false => exact absurd rfl (he p)

theorem heldStep_release {p : Option Nat} (hev : s.events = .hard p false :: es) :
    heldStep s = .next { s.blockReset with events := es } := by
  unfold heldStep
  rw [hev]

end Held

/-- Settles O14: the assertion is an input that lands, and a held block takes every later one as `heldStep` does. -/
theorem hardReset : Obligations.HardReset :=
  ⟨fun _ _ _ hr hp hev => step_assert hr hp hev,
    fun _ _ _ hr hev he => (step_held hr).trans (heldStep_ignores he hev),
    fun _ _ _ hr hev => (step_held hr).trans (heldStep_release hev)⟩

end Sys2Proof.Machine
end
